-- ==== Sys2Proof/Word.lean ====
section
/-! DEFINITION. The word types of the RBC: bytes, 32-bit register words, byte sequences (00_scope.md R13–R15). -/

namespace Sys2Proof

/-- A byte, value 0..255 (R13). -/
abbrev Byte := BitVec 8

/-- A register, operand or system byte address: 32 bits (R32, R80). -/
abbrev Word := BitVec 32

/-- A finite byte sequence, lowest address first (R15, R83). -/
abbrev Bytes := List Byte

end Sys2Proof
end

