-- ==== Sys2Proof/Machine/Bytes.lean ====
section
/-! DEFINITION. Arithmetic and field primitives over byte sequences (00_scope.md R13–R16). -/

namespace Sys2Proof.Machine

/-- `ceil(a/b) = (a + b − 1) / b` (R13). -/
def ceilDiv (a b : Nat) : Nat := (a + b - 1) / b

/-- `zeros(n)` (R15). -/
def zeros (n : Nat) : Bytes := List.replicate n 0

/-- Byte `i` of a sequence, 0 past its end. Every rule reads within the length it has checked (log 21). -/
def byteAt (a : Bytes) (i : Nat) : Byte := a.getD i 0

/-- `le16(a,o)` (R16). -/
def le16 (a : Bytes) (o : Nat) : Nat := (byteAt a o).toNat + 2 ^ 8 * (byteAt a (o + 1)).toNat

/-- `le32(a,o)` (R16). -/
def le32 (a : Bytes) (o : Nat) : Nat :=
  (byteAt a o).toNat + 2 ^ 8 * (byteAt a (o + 1)).toNat + 2 ^ 16 * (byteAt a (o + 2)).toNat +
    2 ^ 24 * (byteAt a (o + 3)).toNat

/-- `be32(a,o)` (R16). -/
def be32 (a : Bytes) (o : Nat) : Nat :=
  2 ^ 24 * (byteAt a o).toNat + 2 ^ 16 * (byteAt a (o + 1)).toNat + 2 ^ 8 * (byteAt a (o + 2)).toNat +
    (byteAt a (o + 3)).toNat

/-- `s32(v)`: a 32-bit value read as two's complement (R14). -/
def s32 (v : Nat) : Int := if v / 2 ^ 31 % 2 = 1 then (v : Int) - 2 ^ 32 else v

/-- `sle32(a,o) = s32(le32(a,o))` (R16). -/
def sle32 (a : Bytes) (o : Nat) : Int := s32 (le32 a o)

/-- Byte `k` of a value, counting from the least significant. -/
def byteOf (v k : Nat) : Byte := BitVec.ofNat 8 (v / 2 ^ (8 * k))

/-- `LE16(v)` (R16). -/
def LE16 (v : Nat) : Bytes := [byteOf v 0, byteOf v 1]

/-- `LE32(v)`: `v mod 2^32`, least significant byte first (R16). -/
def LE32 (v : Nat) : Bytes := [byteOf v 0, byteOf v 1, byteOf v 2, byteOf v 3]

/-- `BE32(v)`: the same four bytes, most significant first (R16). -/
def BE32 (v : Nat) : Bytes := [byteOf v 3, byteOf v 2, byteOf v 1, byteOf v 0]

/-- `put(a, o, s)` replaces `a[o..o+len(s))` with `s` (R16). -/
def put (a : Bytes) (o : Nat) (s : Bytes) : Bytes := a.take o ++ s ++ a.drop (o + s.length)

end Sys2Proof.Machine
end

