-- ==== Sys2Proof/Config.lean ====
section
/-! DEFINITION. The configuration record of one instance (00_scope.md R9) and the free values, which are constants
without a body: nothing in Lean can say what they are. -/

namespace Sys2Proof

/-- `LUMA_MODE` (R9): the arithmetic of the luminance comparison. -/
inductive LumaMode where
  /-- Unbounded integers (R160), the default. -/
  | exact
  /-- IEEE-754 double precision (R162). -/
  | binary64
  deriving DecidableEq, Repr

/-- Which `DEFLATE_BODY` the instance was built with (R9, R12). -/
inductive DeflateChoice where
  /-- The OPEN parameter: free function number `k`, of which nothing is known but, as a premise, the law R236. -/
  | openBody (k : Nat)
  /-- The reference instance `DEFLATE_STORED` (R237). -/
  | stored
  deriving DecidableEq, Repr

/-- The addresses `base .. base + size - 1`: one piece of `MEM_ADMIT` (R9). -/
structure Region where
  base : Nat
  size : Nat
  deriving DecidableEq, Repr

/-- `CFG` (R9). Build-time constants; no step changes them (log 1). -/
structure Cfg where
  /-- `W` -/
  width : Nat
  /-- `H` -/
  height : Nat
  /-- `L` -/
  frameLen : Nat
  /-- `WR` -/
  weightR : Nat
  /-- `WG` -/
  weightG : Nat
  /-- `WB` -/
  weightB : Nat
  /-- `T` -/
  threshold : Nat
  lumaMode : LumaMode
  /-- `ZLIB_HDR[0]`, named `CMF` by R236. -/
  zlibCmf : Byte
  /-- `ZLIB_HDR[1]`, named `FLG` by R236. -/
  zlibFlg : Byte
  deflate : DeflateChoice
  /-- `RBC_BASE` -/
  rbcBase : Word
  /-- `MEM_ADMIT`, as a list of regions; the instance's own window is never part of it (log 3). -/
  memAdmit : List Region
  deriving DecidableEq, Repr

namespace Config

/-- The OPEN deflate compressor number `k` (R9, R12). Free function (log 4). -/
opaque deflateBody : Nat → Bytes → Bytes

/-- A draw of one byte (R291, R296, R297). Free value (log 7). -/
opaque freeByte : Nat → Byte

/-- A draw of one register value (R297: "any `RESULT_LEN` and any `RESULT`"). Free value (log 7). -/
opaque freeWord : Nat → Word

/-- A draw of a completion outcome (R297: "any legal `STATUS` completion value"): 0 is success, 1..8 an error code
of R261. Free value (log 7). -/
opaque freeOutcome : Nat → Fin 9

/-- What the binary64 comparison answers when a value of R162 is beyond the format's range, of which the spec states
no result. Arguments: the three weights, the threshold and the three channels. Free value (log 15). -/
opaque darkBeyondBinary64 : Nat → Nat → Nat → Nat → Byte → Byte → Byte → Bool

/-- The reference configuration of R9. The three OPEN parameters take the values of logs 2, 3 and 4. -/
def reference : Cfg where
  width := 800
  height := 480
  frameLen := 48062
  weightR := 30
  weightG := 59
  weightB := 11
  threshold := 128
  lumaMode := .exact
  zlibCmf := 0x78
  zlibFlg := 0xDA
  deflate := .openBody 0
  rbcBase := 0x40000000
  memAdmit := [⟨0, 2 ^ 32⟩]

end Config

end Sys2Proof
end

