-- ==== Sys2Proof/Machine/Luma.lean ====
section
/-! DEFINITION. The luminance threshold in both modes (40_encoder.md R160, R162, R163).

A nonnegative binary64 value is held as the number of units of 2^−1074 it is: every finite double is a whole number of
them. `fl` of R162 is then rounding to a whole number with at most 53 significant bits, ties to even. -/

namespace Sys2Proof.Machine

/-- `num / den` to the nearest natural, ties to even. -/
def roundDiv (num den : Nat) : Nat :=
  let q := num / den
  let r := num % den
  if 2 * r < den then q else if den < 2 * r then q + 1 else q + q % 2

/-- `fl` (R162): `num / den` units to the nearest binary64, ties to even; the last kept bit is bit `k` of the units. -/
def fl64 (num den : Nat) : Nat :=
  let k := Nat.log2 (num / den) + 1 - 53
  roundDiv num (den * 2 ^ k) * 2 ^ k

/-- Units in 1: 2^1074. -/
def unit64 : Nat := 2 ^ 1074

/-- The value is past the largest finite binary64 (2^1024 and more). -/
def beyond64 (v : Nat) : Bool := decide (2 ^ 1024 * unit64 ≤ v)

/-- The binary64 value nearest `w/100` (R162). -/
def coef64 (w : Nat) : Nat := fl64 (w * unit64) 100

/-- `fl(c·v)` of a coefficient and a channel (R162). -/
def term64 (w : Nat) (v : Byte) : Nat := fl64 (coef64 w * v.toNat) 1

/-- `gray64(R,G,B) = fl(fl(fl(cR·R) + fl(cG·G)) + fl(cB·B))` (R162), in units. -/
def gray64 (c : Cfg) (r g b : Byte) : Nat :=
  fl64 (fl64 (term64 c.weightR r + term64 c.weightG g) 1 + term64 c.weightB b) 1

/-- Some value that R162 names is past the format's range. The sums bound the terms, so the last sum and the three
coefficients decide it. -/
def lumaBeyond64 (c : Cfg) (r g b : Byte) : Bool :=
  beyond64 (coef64 c.weightR) || beyond64 (coef64 c.weightG) || beyond64 (coef64 c.weightB) || beyond64 (gray64 c r g b)

/-- `dark` in exact mode (R160): `WR·R + WG·G + WB·B < 100·T`. -/
def darkExact (c : Cfg) (r g b : Byte) : Bool :=
  decide (c.weightR * r.toNat + c.weightG * g.toNat + c.weightB * b.toNat < 100 * c.threshold)

/-- `dark` in binary64 mode (R162): `gray64 < T`, `T` exact. Past the format's range the spec states no result, and the
answer is a free value (log 15). -/
def darkBinary64 (c : Cfg) (r g b : Byte) : Bool :=
  if lumaBeyond64 c r g b then
    Config.darkBeyondBinary64 c.weightR c.weightG c.weightB c.threshold r g b
  else decide (gray64 c r g b < c.threshold * unit64)

/-- The luminance threshold; the alpha channel is not read (R163). -/
def dark (c : Cfg) (r g b : Byte) : Bool :=
  match c.lumaMode with
  | .exact => darkExact c r g b
  | .binary64 => darkBinary64 c r g b

end Sys2Proof.Machine
end

