-- ==== Sys2Proof/Machine/State.lean ====
section
/-! DEFINITION. The state of the RBC as plain data (10_state.md), the reasons a step can stop, and the state after reset. -/

namespace Sys2Proof.Machine

/-- The sequencing state (R31). -/
inductive Phase where
  | idle
  | busy
  deriving DecidableEq, Repr

/-- `LATCH` (R48): the operands of the command in flight. -/
structure Latch where
  cmd : Word
  srcAddr : Word
  srcLen : Word
  dstAddr : Word
  dstCap : Word
  arg0 : Word
  arg1 : Word
  deriving DecidableEq, Repr

/-- One RBC instance: its configuration (R9), the registers of its window that hold a value (R32), its phase, its latch
and `TAINT`. The `CFG_*` registers are hardwired to the configuration (R33–R35); `CMD` and the reserved offsets hold
nothing (R36, R46). -/
structure Block where
  cfg : Cfg
  phase : Phase
  /-- `STATUS` (R37). -/
  status : Word
  srcAddr : Word
  srcLen : Word
  dstAddr : Word
  dstCap : Word
  arg0 : Word
  arg1 : Word
  resultLen : Word
  result : Word
  latch : Latch
  /-- `TAINT` (R49). -/
  taint : Bool
  deriving DecidableEq, Repr

/-- System memory (R80) in one canonical form, `Memory.wf`: addresses strictly rising, no entry equal to what an unlisted
address reads as. -/
abbrev Memory := List Host.Cell

/-- The width of a host access (R88). -/
inductive AccessWidth where
  | b8
  | b16
  | b32
  | b64
  deriving DecidableEq, Repr

/-- One host access (R116). The list of accesses still to come stands in the state. -/
inductive HostOp where
  /-- A store of `v` aimed at a register window. -/
  | wr (addr : Word) (width : AccessWidth) (v : Word)
  /-- A load aimed at a register window. -/
  | rd (addr : Word) (width : AccessWidth)
  /-- A byte store. -/
  | st (addr : Word) (b : Byte)
  /-- A byte load. -/
  | ld (addr : Word)
  /-- `L: rd STATUS -> x ; if x[1] = 0 goto L` (R117) on the register at `addr`. -/
  | poll (addr : Word)
  /-- `assert x = v` on the register value read last (R117, `run_ok`). -/
  | check (v : Word)
  deriving DecidableEq, Repr

/-- What a host load returned. -/
inductive Seen where
  | reg (addr v : Word)
  | byte (addr : Word) (b : Byte)
  deriving DecidableEq, Repr

/-- Who moves next. Instance 0 is the one in focus, instance `k + 1` is number `k` of the peers. -/
inductive Turn where
  | host
  | block (k : Nat)
  /-- The platform asserts the reset of instance `k` (R290). -/
  | reset (k : Nat)
  deriving DecidableEq, Repr

/-- The machine: one instance in focus, the other instances (R20, R98), system memory (R80), and four lists and a
counter of the model's own (logs 7 and 8). -/
structure State where
  blk : Block
  peers : List Block
  mem : Memory
  /-- How many free values have been drawn. -/
  draws : Nat
  /-- The host accesses still to come. -/
  hostOps : List HostOp
  /-- The turns still to come. -/
  schedule : List Turn
  /-- What the host has read, newest first. -/
  seen : List Seen
  deriving DecidableEq, Repr

/-- Why a step stops with a fault. No instruction raises one: these are faults of the environment's script. -/
inductive Fault where
  /-- Raised by a turn that names an instance the system does not have. Safe: no such agent exists, so no step. -/
  | noSuchInstance
  /-- Raised by a host program's failed assertion (R117). Safe: the host program stops there. -/
  | hostCheckFailed
  deriving DecidableEq, Repr

/-- Why a step is refused. -/
inductive Refusal where
  /-- Raised by exec for an instruction that has no meaning yet. Safe. -/
  | notModelled (mnemonic : String)
  /-- Raised by a host word access that meets no register window: "not an RBC access" (R46), and the byte order with
  which it would reach memory is the host's own. Safe (log 13). -/
  | notAnRbcAccess
  deriving DecidableEq, Repr

/-- The latch after reset: "unspecified and unread" (R58), held as zeros (log 6). -/
def Latch.zero : Latch := ⟨0, 0, 0, 0, 0, 0, 0⟩

/-- An instance after reset (R58, R290). -/
def Block.atReset (c : Cfg) : Block where
  cfg := c
  phase := .idle
  status := 0
  srcAddr := 0
  srcLen := 0
  dstAddr := 0
  dstCap := 0
  arg0 := 0
  arg1 := 0
  resultLen := 0
  result := 0
  latch := Latch.zero
  taint := false

/-- One instance of configuration `c` after reset, with nothing in memory and nothing scheduled. -/
def State.resetWith (c : Cfg) : State where
  blk := Block.atReset c
  peers := []
  mem := []
  draws := 0
  hostOps := []
  schedule := []
  seen := []

/-- The machine right after reset, in the reference configuration (R58). -/
def State.reset : State := State.resetWith Config.reference

end Sys2Proof.Machine
end

