-- ==== Sys2Proof/Machine/Flags.lean ====
section
/-! DEFINITION. The error codes (60_exceptions.md R261) and the fields and values of `STATUS` (10_state.md R37, R52). -/

namespace Sys2Proof.Machine

/-- The errors a command can complete with (R261). -/
inductive ErrCode where
  | invalidSrcDims
  | sizeContract
  | invalidShape
  | truncated
  | illegalCmd
  | dstOverflow
  | addrRange
  | overlap
  deriving DecidableEq, Repr

/-- `STATUS.ERRCODE` of an error (R261). -/
def ErrCode.code : ErrCode → Nat
  | .invalidSrcDims => 1
  | .sizeContract => 2
  | .invalidShape => 3
  | .truncated => 4
  | .illegalCmd => 5
  | .dstOverflow => 6
  | .addrRange => 7
  | .overlap => 8

namespace Status

/-- `STATUS` while a command is in flight: BUSY=1, DONE=0, ERR=0, ERRCODE=0 (R50). -/
def inFlight : Word := 0x00000001

/-- `STATUS` after a success: DONE=1 (R52). -/
def success : Word := 0x00000002

/-- `STATUS` after an error of code `n`: `0x00000006 | (code << 8)` (R52). -/
def ofCode (n : Nat) : Word := 0x00000006 ||| (BitVec.ofNat 32 n <<< 8)

/-- `STATUS` after an error completion (R52, R264). -/
def failed (e : ErrCode) : Word := ofCode e.code

/-- `STATUS` for a drawn outcome (R297): 0 is success, `n` in 1..8 the error of code `n`. -/
def ofOutcome (n : Fin 9) : Word := if n.val = 0 then success else ofCode n.val

/-- `STATUS.BUSY`, bit 0 (R37). -/
def busy (s : Word) : Bool := s.getLsbD 0

/-- `STATUS.DONE`, bit 1 (R37). -/
def done (s : Word) : Bool := s.getLsbD 1

/-- `STATUS.ERR`, bit 2 (R37). -/
def err (s : Word) : Bool := s.getLsbD 2

/-- `STATUS.ERRCODE`, bits 11:8 (R37). -/
def errCode (s : Word) : Nat := s.toNat / 2 ^ 8 % 16

/-- The only values that can be read (R37). -/
def legal (s : Word) : Bool :=
  decide (s = 0 ∨ s = inFlight ∨ s = success ∨ ∃ n ∈ List.range 9, 1 ≤ n ∧ s = ofCode n)

end Status

end Sys2Proof.Machine
end

