-- ==== Sys2Proof/Machine/Memory.lean ====
section
/-! DEFINITION. System memory: one byte at each address 0..2^32−1 (20_memory.md R80), kept as a sorted list of the bytes
that differ from what an unlisted address reads as. -/

namespace Sys2Proof.Machine

namespace Memory

/-- What an address reads as that nothing has written: "Its reset contents are the platform's" (R58). DESIGN CHOICE:
0x00 (log 5). -/
def unlisted : Byte := 0

/-- The canonical form: addresses strictly rising and inside the address space, no entry equal to `unlisted`. -/
def wf (m : Memory) : Bool :=
  decide (m.Pairwise (fun p q => p.1 < q.1)) && m.all (fun p => decide (p.2 ≠ unlisted) && decide (p.1 < 2 ^ 32))

/-- The byte at an address. -/
def get : Memory → Nat → Byte
  | [], _ => unlisted
  | (x, y) :: m, a => if x = a then y else get m a

/-- Put one entry into the sorted list, or take it out where the byte is what an unlisted address reads as. -/
def insert : Memory → Nat → Byte → Memory
  | [], a, b => if b = unlisted then [] else [(a, b)]
  | (x, y) :: m, a, b =>
    if a < x then (if b = unlisted then (x, y) :: m else (a, b) :: (x, y) :: m)
    else if a = x then (if b = unlisted then m else (a, b) :: m)
    else (x, y) :: insert m a b

/-- Write one byte. No address at or past 2^32 exists (R80), so nothing is written there. -/
def set (m : Memory) (a : Nat) (b : Byte) : Memory := if a < 2 ^ 32 then insert m a b else m

/-- `MemRead(addr, n)` (R17). -/
def read (m : Memory) (a n : Nat) : Bytes := (List.range n).map (fun i => get m (a + i))

/-- `MemWrite(addr, s)` (R17). -/
def write : Memory → Nat → Bytes → Memory
  | m, _, [] => m
  | m, a, b :: bs => write (set m a b) (a + 1) bs

end Memory

end Sys2Proof.Machine
end

