-- ==== Sys2Proof/Syntax.lean ====
section
/-! DEFINITION. The seven commands of the opcode map (30_encoding.md R111), one constructor per row of the opcode table.
No command names an operand in its word (R110): operands come from the latch (R112, R115). -/

namespace Sys2Proof

/-- A legal command (R111). -/
inductive Instr where
  /-- Raster to monochrome bitmap (R170). -/
  | encode
  /-- Monochrome bitmap to compressed grayscale container (R200). -/
  | decode
  /-- Threshold and pack one raster row (R165). -/
  | packRow
  /-- One packed row to one filter-prefixed scanline (R195). -/
  | unpackRow
  /-- CRC-32 of the source range (R232). -/
  | crc32
  /-- Adler-32 of the source range (R235). -/
  | adler32
  /-- Source range to zlib stream (R238). -/
  | zlib
  deriving DecidableEq, Repr

end Sys2Proof
end

