-- ==== Sys2Proof/Decode.lean ====
section
/-! DEFINITION. The decoder of command words (30_encoding.md R110–R114), total on every word and rejecting by name, and
the encoder written from the same map. -/

namespace Sys2Proof

/-- Why a command word is illegal (R113, R262). The machine answers both with ILLEGAL_CMD. -/
inductive DecodeError where
  /-- `RSVD ≠ 0`, whatever `OP` is. -/
  | reservedField
  /-- `OP` is 0 or 8..15. -/
  | reservedOpcode
  deriving DecidableEq, Repr

/-- `OP = c[3:0]` (R110). -/
def opField (c : Word) : Nat := c.toNat % 16

/-- `RSVD = c[31:4]` (R110). -/
def rsvdField (c : Word) : Nat := c.toNat / 16

/-- Decode one command word by the opcode map R111; a decoder reads `OP` and `RSVD` and nothing else (R114). -/
def decodeWord (c : Word) : Except DecodeError Instr :=
  if rsvdField c ≠ 0 then .error .reservedField
  else
    match opField c with
    | 1 => .ok .encode
    | 2 => .ok .decode
    | 3 => .ok .packRow
    | 4 => .ok .unpackRow
    | 5 => .ok .crc32
    | 6 => .ok .adler32
    | 7 => .ok .zlib
    | _ => .error .reservedOpcode

/-- The opcode of a command, `CMD[3:0]` (R111). -/
def opcode : Instr → Nat
  | .encode => 1
  | .decode => 2
  | .packRow => 3
  | .unpackRow => 4
  | .crc32 => 5
  | .adler32 => 6
  | .zlib => 7

/-- The command word of a command: its opcode in `OP`, zeros in `RSVD` (R110, R111). -/
def encodeWord (i : Instr) : Word := BitVec.ofNat 32 (opcode i)

/-- The instruction the decoder reads from a table row's bits. A command is one 32-bit word (R114), so bits above bit 31
make it no command. -/
def decodeTableWord (nbits w : Nat) : Option Instr :=
  if w % 2 ^ nbits < 2 ^ 32 then (decodeWord (BitVec.ofNat 32 (w % 2 ^ nbits))).toOption else none

end Sys2Proof
end

