-- ==== Sys2Proof/Machine/Operands.lean ====
section
/-! DEFINITION. Operands: address ranges (20_memory.md R81, R82), the latched operands (30_encoding.md R112, R115), and
the register window (10_state.md R32–R47). -/

namespace Sys2Proof.Machine

/-- The range `[base, base+size)` (R81), over unbounded naturals (R13). -/
structure Range where
  base : Nat
  size : Nat
  deriving DecidableEq, Repr

namespace Range

/-- The range does not wrap past 2^32−1 (R81). An empty range that starts in the address space is well formed. -/
def wellFormed (r : Range) : Bool := decide (r.base + r.size ≤ 2 ^ 32)

/-- The address is in the range. -/
def has (r : Range) (a : Nat) : Bool := decide (r.base ≤ a ∧ a < r.base + r.size)

/-- The two ranges share an address (R82). -/
def overlaps (r q : Range) : Bool :=
  decide (0 < r.size ∧ 0 < q.size ∧ r.base < q.base + q.size ∧ q.base < r.base + r.size)

/-- The addresses of the range, in order. -/
def addrs (r : Range) : List Nat := (List.range r.size).map (fun i => r.base + i)

end Range

/-- `writes(c)` (R263): the command writes memory. -/
def writesMemory : Instr → Bool
  | .encode => true
  | .decode => true
  | .packRow => true
  | .unpackRow => true
  | .crc32 => false
  | .adler32 => false
  | .zlib => true

namespace Latch

/-- The latched source range. -/
def src (l : Latch) : Range := ⟨l.srcAddr.toNat, l.srcLen.toNat⟩

/-- The latched destination range, the whole capacity (R263). -/
def dst (l : Latch) : Range := ⟨l.dstAddr.toNat, l.dstCap.toNat⟩

/-- UNPACKROW's `INV = LATCH.arg1[0]` (R115). -/
def inv (l : Latch) : Bool := l.arg1.getLsbD 0

/-- The latched command writes memory (R111); an illegal word does not. -/
def writes (l : Latch) : Bool :=
  match decodeWord l.cmd with
  | .ok i => writesMemory i
  | .error _ => false

/-- A host store to the address while the command is in flight breaks the hazard rule R296 (a) or (b). -/
def storeHazard (l : Latch) (a : Nat) : Bool := l.src.has a || (l.writes && l.dst.has a)

/-- A host load of the address while the command is in flight breaks the hazard rule R296 (b). -/
def loadHazard (l : Latch) (a : Nat) : Bool := l.writes && l.dst.has a

/-- The destination range of one command overlaps the source or destination range of the other (R98). -/
def conflicts (l k : Latch) : Bool :=
  (l.writes && (l.dst.overlaps k.src || (k.writes && l.dst.overlaps k.dst))) || (k.writes && k.dst.overlaps l.src)

end Latch

/-- The sixteen registers of the window (R32). -/
inductive Reg where
  | cfgWidth
  | cfgHeight
  | cfgFrameLen
  | reserved0C
  | cmd
  | status
  | srcAddr
  | srcLen
  | dstAddr
  | dstCap
  | arg0
  | arg1
  | resultLen
  | result
  | reserved38
  | reserved3C
  deriving DecidableEq, Repr

namespace Reg

/-- The registers in the order of their offsets (R32). -/
def all : List Reg :=
  [.cfgWidth, .cfgHeight, .cfgFrameLen, .reserved0C, .cmd, .status, .srcAddr, .srcLen, .dstAddr, .dstCap, .arg0, .arg1,
    .resultLen, .result, .reserved38, .reserved3C]

/-- The register at a byte offset of the window; none where the offset is misaligned or outside (R46, R88). -/
def ofOffset (o : Nat) : Option Reg := if o % 4 = 0 then all[o / 4]? else none

/-- The byte offset of a register (R32). -/
def offset : Reg → Nat
  | .cfgWidth => 0x00
  | .cfgHeight => 0x04
  | .cfgFrameLen => 0x08
  | .reserved0C => 0x0C
  | .cmd => 0x10
  | .status => 0x14
  | .srcAddr => 0x18
  | .srcLen => 0x1C
  | .dstAddr => 0x20
  | .dstCap => 0x24
  | .arg0 => 0x28
  | .arg1 => 0x2C
  | .resultLen => 0x30
  | .result => 0x34
  | .reserved38 => 0x38
  | .reserved3C => 0x3C

end Reg

namespace Block

/-- Read a register (R32–R46): WO and reserved read 0, `CFG_*` are hardwired. -/
def readReg (b : Block) : Reg → Word
  | .cfgWidth => BitVec.ofNat 32 b.cfg.width
  | .cfgHeight => BitVec.ofNat 32 b.cfg.height
  | .cfgFrameLen => BitVec.ofNat 32 b.cfg.frameLen
  | .reserved0C => 0
  | .cmd => 0
  | .status => b.status
  | .srcAddr => b.srcAddr
  | .srcLen => b.srcLen
  | .dstAddr => b.dstAddr
  | .dstCap => b.dstCap
  | .arg0 => b.arg0
  | .arg1 => b.arg1
  | .resultLen => b.resultLen
  | .result => b.result
  | .reserved38 => 0
  | .reserved3C => 0

/-- Write a register other than `CMD` (R47): an RW register stores all 32 bits, a write to an RO register or a reserved
offset has no effect. A write to `CMD` is acceptance, R50 (`State.acceptCmd`). -/
def storeReg (b : Block) (v : Word) : Reg → Block
  | .srcAddr => { b with srcAddr := v }
  | .srcLen => { b with srcLen := v }
  | .dstAddr => { b with dstAddr := v }
  | .dstCap => { b with dstCap := v }
  | .arg0 => { b with arg0 := v }
  | .arg1 => { b with arg1 := v }
  | .cfgWidth => b
  | .cfgHeight => b
  | .cfgFrameLen => b
  | .reserved0C => b
  | .cmd => b
  | .status => b
  | .resultLen => b
  | .result => b
  | .reserved38 => b
  | .reserved3C => b

/-- The register window `[RBC_BASE, RBC_BASE + 0x40)` (R32). -/
def window (b : Block) : Range := ⟨b.cfg.rbcBase.toNat, 0x40⟩

/-- The operands a command would be latched with, and its word (R50). -/
def latchOf (b : Block) (v : Word) : Latch where
  cmd := v
  srcAddr := b.srcAddr
  srcLen := b.srcLen
  dstAddr := b.dstAddr
  dstCap := b.dstCap
  arg0 := b.arg0
  arg1 := b.arg1

/-- A command is in flight (R31). -/
def busy (b : Block) : Bool := decide (b.phase = .busy)

end Block

end Sys2Proof.Machine
end

