-- ==== Sys2Proof/Machine/Ops.lean ====
section
/-! DEFINITION. The shared operations of every command: the common prologue (60_exceptions.md R263), admission
(10_state.md R53), completion with its error entry (R52, R264) and with taint (R297), acceptance (R50) and reset (R290,
R291). -/

namespace Sys2Proof.Machine

/-- The result of a command's transform (R18). -/
inductive Result where
  | ok (out : Bytes) (val : Word)
  | err (e : ErrCode)
  deriving DecidableEq, Repr

/-- What a command's rule does: the ranges it reads with `MemRead` (R53) and its result (R18). -/
structure Work where
  reads : List Range
  result : Result
  deriving DecidableEq, Repr

namespace Work

/-- `raise Error(code)` after the given reads (R17). -/
def fail (reads : List Range) (e : ErrCode) : Work := ⟨reads, .err e⟩

/-- `complete(out, val)` after the given reads (R17). -/
def done (reads : List Range) (out : Bytes) (val : Word) : Work := ⟨reads, .ok out val⟩

/-- The ranges of the accessed set (R53): those read, and the output of a success of a writing command. -/
def accessed (w : Work) (writes : Bool) (l : Latch) : List Range :=
  match w.result with
  | .ok out _ => if writes then w.reads ++ [⟨l.dstAddr.toNat, out.length⟩] else w.reads
  | .err _ => w.reads

end Work

/-- The address is in `MEM_ADMIT` (R9, R91). An instance's own window is no system memory for it (R80). -/
def admitted (b : Block) (a : Nat) : Bool :=
  b.cfg.memAdmit.any (fun r => decide (r.base ≤ a ∧ a < r.base + r.size)) && !b.window.has a

/-- Every address of the ranges is admitted (R53). -/
def admittedAll (b : Block) (rs : List Range) : Bool := rs.all (fun r => r.addrs.all (admitted b))

/-- The prologue's checks after the legality of the word, in the order of R263. -/
def prologue (writes : Bool) (l : Latch) : Option ErrCode :=
  if !l.src.wellFormed then some .addrRange
  else if writes && !l.dst.wellFormed then some .addrRange
  else if writes && l.src.overlaps l.dst then some .overlap
  else none

namespace State

/-- `raise Error(code)` at completion, R264 ("trap entry"): STATUS and IDLE, RESULT_LEN and RESULT 0, no memory write. -/
def raise (s : State) (e : ErrCode) : State :=
  { s with blk := { s.blk with phase := .idle, status := Status.failed e, resultLen := 0, result := 0 } }

/-- `complete(out, val)` (R17, R52): a writing command writes `out` at `LATCH.dst_addr`. -/
def complete (s : State) (writes : Bool) (out : Bytes) (val : Word) : State :=
  { s with
    blk :=
      { s.blk with
        phase := .idle
        status := Status.success
        resultLen := BitVec.ofNat 32 out.length
        result := val }
    mem := if writes then Memory.write s.mem s.blk.latch.dstAddr.toNat out else s.mem }

/-- Completion of an untainted command (R52). -/
def settle (s : State) (writes : Bool) : Result → State
  | .ok out val => s.complete writes out val
  | .err e => s.raise e

/-- Make every byte of the range a draw. -/
def drawRange (s : State) (r : Range) : State :=
  { s with
    mem := Memory.write s.mem r.base ((List.range r.size).map (fun i => Config.freeByte (s.draws + i)))
    draws := s.draws + r.size }

/-- Completion of a tainted command (R297): the outcome, `RESULT_LEN` and `RESULT` are draws, and every byte of the
latched destination range too if the command writes memory. -/
def settleTainted (s : State) (writes : Bool) : State :=
  let t := if writes then s.drawRange s.blk.latch.dst else s
  { t with
    blk :=
      { t.blk with
        phase := .idle
        status := Status.ofOutcome (Config.freeOutcome t.draws)
        resultLen := Config.freeWord t.draws
        result := Config.freeWord (t.draws + 1) }
    draws := t.draws + 2 }

/-- The completion step (R52): not enabled, and the block stays BUSY for good, where an accessed address is not admitted
(R53, R91); else the outcome, or draws if the command is tainted. -/
def finish (s : State) (writes : Bool) (w : Work) : State :=
  if admittedAll s.blk (w.accessed writes s.blk.latch) then
    if s.blk.taint then s.settleTainted writes else s.settle writes w.result
  else s

/-- A command's whole rule: the prologue (R263), then the command's own body on the instance and a snapshot of memory
(R52, R56, R87). -/
def runCommand (s : State) (writes : Bool) (body : Block → Memory → Work) :
    Host.Outcome State Fault Refusal :=
  .next (s.finish writes
    (match prologue writes s.blk.latch with
      | some e => Work.fail [] e
      | none => body s.blk s.mem))

/-- Completion of an illegal word: ILLEGAL_CMD, no memory touched, no other operand read (R262). -/
def finishIllegal (s : State) : Host.Outcome State Fault Refusal :=
  .next (s.finish false (Work.fail [] .illegalCmd))

/-- Acceptance of a command, a host write of `v` to `CMD` (R50). Dropped while BUSY. A conflict with a command another
instance has in flight taints both (R98, R297). -/
def acceptCmd (s : State) (v : Word) : State :=
  if s.blk.busy then s
  else
    let l := s.blk.latchOf v
    { s with
      blk :=
        { s.blk with
          phase := .busy
          status := Status.inFlight
          resultLen := 0
          result := 0
          latch := l
          taint := s.peers.any (fun p => p.busy && p.latch.conflicts l) }
      peers := s.peers.map (fun p => if p.busy && p.latch.conflicts l then { p with taint := true } else p) }

/-- A write of `v` to a register of the instance in focus (R47, R50, R51). -/
def writeReg (s : State) (v : Word) : Reg → State
  | .cmd => s.acceptCmd v
  | r => { s with blk := s.blk.storeReg v r }

/-- Reset of the instance in focus (R290). A reset while BUSY abandons the command; if it writes memory, its latched
destination range becomes draws (R291). -/
def resetBlock (s : State) : State :=
  let t := if s.blk.busy && s.blk.latch.writes then s.drawRange s.blk.latch.dst else s
  { t with blk := Block.atReset s.blk.cfg }

/-- Exchange the instance in focus with number `k` of the peers. -/
def swapFocus (s : State) (k : Nat) : Option State :=
  match s.peers[k]? with
  | none => none
  | some p => some { s with blk := p, peers := s.peers.set k s.blk }

/-- Run an operation with instance `k` in focus, and put the focus back. -/
def onInstance (s : State) (k : Nat) (f : State → Host.Outcome State Fault Refusal) :
    Host.Outcome State Fault Refusal :=
  match k with
  | 0 => f s
  | j + 1 =>
    match s.swapFocus j with
    | none => .fault .noSuchInstance
    | some t =>
      match f t with
      | .next u =>
        match u.swapFocus j with
        | none => .fault .noSuchInstance
        | some v => .next v
      | .fault e => .fault e
      | .refused e => .refused e

end State

end Sys2Proof.Machine
end

