-- ==== Sys2Proof/Machine/Encoder.lean ====
section
/-! DEFINITION. The encoder family (40_encoder.md): row stride, row packing, the monochrome bitmap, and the meanings of
PACKROW and ENCODE. -/

namespace Sys2Proof.Machine

/-- Row stride of the bitmap (R161). -/
def stride (w : Nat) : Nat := ceilDiv w 32 * 4

/-- Pixel `x` of a row of RGBA bytes is dark (R164); its alpha byte is not read (R163). -/
def pixelDark (c : Cfg) (px : Bytes) (x : Nat) : Bool :=
  dark c (byteAt px (4 * x)) (byteAt px (4 * x + 1)) (byteAt px (4 * x + 2))

/-- Set the bit of pixel `x`, MSB first: `out[x / 8] OR (0x80 >> (x mod 8))` (R164). -/
def setPixel (out : Bytes) (x : Nat) : Bytes := out.modify (x / 8) (fun b => b ||| (0x80#8 >>> (x % 8)))

/-- `PACK(px, n)` (R164). -/
def pack (c : Cfg) (px : Bytes) (n : Nat) : Bytes :=
  (List.range n).foldl (fun out x => if pixelDark c px x then setPixel out x else out) (zeros (stride n))

/-- PACKROW's own checks and result (R165). -/
def packRowBody (b : Block) (m : Memory) : Work :=
  let l := b.latch
  let n := l.arg0.toNat
  if n = 0 ∨ l.srcLen.toNat ≠ 4 * n then Work.fail [] .invalidSrcDims
  else if l.dstCap.toNat < stride n then Work.fail [] .dstOverflow
  else
    let px : Range := ⟨l.srcAddr.toNat, 4 * n⟩
    Work.done [px] (pack b.cfg (Memory.read m px.base px.size) n) 0

/-- PACKROW: threshold and pack one raster row (R165). -/
def execPackRow (s : State) : Host.Outcome State Fault Refusal :=
  s.runCommand (writesMemory .packRow) packRowBody

/-- The header and palette fields ENCODE puts, offset and bytes, in the order of R170 step 2 (R121, R122, R123). -/
def headerFields (c : Cfg) : List (Nat × Bytes) :=
  [(0, [0x42, 0x4D]), (2, LE32 c.frameLen), (6, LE32 0), (10, LE32 62),
    (14, LE32 40), (18, LE32 c.width), (22, LE32 c.height), (26, LE16 1), (28, LE16 1), (30, LE32 0),
    (34, LE32 (stride c.width * c.height)), (38, LE32 0), (42, LE32 0), (46, LE32 2), (50, LE32 2),
    (54, [0xFF, 0xFF, 0xFF, 0x00]), (58, [0x00, 0x00, 0x00, 0x00])]

/-- Raster row `y` of a raster of width `w`: `ras[4·w·y .. 4·w·(y+1))` (R84, R170). -/
def rasterRow (w : Nat) (ras : Bytes) (y : Nat) : Bytes := (ras.drop (4 * w * y)).take (4 * w)

/-- The output of ENCODE on a raster (R170): exact length zero-initialised, headers and palette, rows bottom-up. -/
def bitmap (c : Cfg) (ras : Bytes) : Bytes :=
  let withHeader := (headerFields c).foldl (fun out f => put out f.1 f.2) (zeros c.frameLen)
  (List.range c.height).foldl
    (fun out r => put out (62 + r * stride c.width) (pack c (rasterRow c.width ras (c.height - 1 - r)) c.width))
    withHeader

/-- ENCODE's own checks, in the order of R171, and result (R170). -/
def encodeBody (b : Block) (m : Memory) : Work :=
  let l := b.latch
  let c := b.cfg
  if l.arg0.toNat ≠ c.width ∨ l.arg1.toNat ≠ c.height ∨ l.srcLen.toNat ≠ 4 * c.width * c.height then
    Work.fail [] .invalidSrcDims
  else if c.frameLen < 62 + stride c.width * c.height then Work.fail [] .sizeContract
  else if l.dstCap.toNat < c.frameLen then Work.fail [] .dstOverflow
  else
    let ras : Range := ⟨l.srcAddr.toNat, 4 * c.width * c.height⟩
    Work.done [ras] (bitmap c (Memory.read m ras.base ras.size)) 0

/-- ENCODE: raster to the monochrome bitmap of exactly `L` bytes (R170). -/
def execEncode (s : State) : Host.Outcome State Fault Refusal :=
  s.runCommand (writesMemory .encode) encodeBody

end Sys2Proof.Machine
end

