-- ==== Sys2Proof/Machine/Checksum.lean ====
section
/-! DEFINITION. The checksum family (42_checksum_compress.md): CRC-32, Adler-32, and the meanings of CRC32 and ADLER32. -/

namespace Sys2Proof.Machine

/-- One of the eight bit steps of R230. -/
def crcBit (c : Word) : Word := if c.getLsbD 0 then (c >>> 1) ^^^ 0xEDB88320#32 else c >>> 1

/-- Repeat the bit step. -/
def crcBits : Nat → Word → Word
  | 0, c => c
  | n + 1, c => crcBits n (crcBit c)

/-- One byte of R230. -/
def crcByte (c : Word) (b : Byte) : Word := crcBits 8 (c ^^^ b.setWidth 32)

/-- `CRC32(s)` (R230). -/
def crc32 (s : Bytes) : Word := s.foldl crcByte 0xFFFFFFFF#32 ^^^ 0xFFFFFFFF#32

/-- One byte of R233 on the sums `(a, b)`. -/
def adlerByte (p : Nat × Nat) (x : Byte) : Nat × Nat :=
  let a := (p.1 + x.toNat) % 65521
  (a, (p.2 + a) % 65521)

/-- The sums `(a, b)` after a sequence (R233). -/
def adlerSums (s : Bytes) : Nat × Nat := s.foldl adlerByte (1, 0)

/-- `ADLER32(s) = b·65536 + a` (R233). -/
def adler32 (s : Bytes) : Nat := (adlerSums s).2 * 65536 + (adlerSums s).1

/-- CRC32's result (R232): no check of its own, no output bytes. -/
def crc32Body (b : Block) (m : Memory) : Work :=
  let r := b.latch.src
  Work.done [r] [] (crc32 (Memory.read m r.base r.size))

/-- CRC32: CRC-32 of the source range into `RESULT` (R232). -/
def execCrc32 (s : State) : Host.Outcome State Fault Refusal :=
  s.runCommand (writesMemory .crc32) crc32Body

/-- ADLER32's result (R235): no check of its own, no output bytes. -/
def adler32Body (b : Block) (m : Memory) : Work :=
  let r := b.latch.src
  Work.done [r] [] (BitVec.ofNat 32 (adler32 (Memory.read m r.base r.size)))

/-- ADLER32: Adler-32 of the source range into `RESULT` (R235). -/
def execAdler32 (s : State) : Host.Outcome State Fault Refusal :=
  s.runCommand (writesMemory .adler32) adler32Body

end Sys2Proof.Machine
end

