-- ==== Sys2Proof/Machine/Zlib.lean ====
section
/-! DEFINITION. The compression family (42_checksum_compress.md): the deflate parameter and its reference instance, the
zlib stream (30_encoding.md R136), and the meaning of ZLIB. -/

namespace Sys2Proof.Machine

/-- One stored block: BFINAL in bit 0, BTYPE 00, LEN and NLEN little-endian, the bytes (R237). -/
def storedBlock (final : Bool) (x : Bytes) : Bytes :=
  (if final then 0x01 else 0x00) :: (LE16 x.length ++ LE16 (x.length ^^^ 0xFFFF) ++ x)

/-- The loop of `DEFLATE_STORED` (R237), at most `fuel` blocks of at most 65535 bytes. -/
def storedBlocks : Nat → Bytes → Bytes
  | 0, _ => []
  | fuel + 1, x =>
    if x.length ≤ 65535 then storedBlock true x
    else storedBlock false (x.take 65535) ++ storedBlocks fuel (x.drop 65535)

/-- `DEFLATE_STORED(x)` (R237). Each block but the last takes 65535 bytes, so `len(x)/65535 + 1` blocks suffice. -/
def deflateStored (x : Bytes) : Bytes :=
  if x.length = 0 then [0x01, 0x00, 0x00, 0xFF, 0xFF] else storedBlocks (x.length / 65535 + 1) x

/-- The `DEFLATE_BODY` an instance was built with (R9, R12). -/
def deflateBody : DeflateChoice → Bytes → Bytes
  | .openBody k => Config.deflateBody k
  | .stored => deflateStored

/-- `ZSTREAM(raw)` (R136). -/
def zstream (c : Cfg) (raw : Bytes) : Bytes :=
  [c.zlibCmf, c.zlibFlg] ++ (deflateBody c.deflate raw ++ BE32 (adler32 raw))

/-- ZLIB's own check and result (R238). -/
def zlibBody (b : Block) (m : Memory) : Work :=
  let r := b.latch.src
  let z := zstream b.cfg (Memory.read m r.base r.size)
  if b.latch.dstCap.toNat < z.length then Work.fail [r] .dstOverflow else Work.done [r] z 0

/-- ZLIB: source range to zlib stream (R238). -/
def execZlib (s : State) : Host.Outcome State Fault Refusal :=
  s.runCommand (writesMemory .zlib) zlibBody

end Sys2Proof.Machine
end

