-- ==== Sys2Proof/Machine/Decoder.lean ====
section
/-! DEFINITION. The decoder family (41_decoder.md): validation, row copy, scanlines, container assembly, and the meanings
of UNPACKROW and DECODE. -/

namespace Sys2Proof.Machine

/-- `hsize` (R190). -/
def bmpHeaderSize (buf : Bytes) : Nat := le32 buf 14

/-- `bpp` (R190). -/
def bmpBitsPerPixel (buf : Bytes) : Nat := le16 buf 28

/-- `w` (R190). -/
def bmpWidth (buf : Bytes) : Int := sle32 buf 18

/-- `h`, whose sign gives the row order (R190). -/
def bmpHeight (buf : Bytes) : Int := sle32 buf 22

/-- `off`, read from the header (R190). -/
def bmpOffset (buf : Bytes) : Nat := le32 buf 10

/-- `pal0` (R190). -/
def bmpPalette0 (buf : Bytes) : Nat := le32 buf 54

/-- `RB = ceil(w/8)` (R192). -/
def rowBytes (w : Nat) : Nat := ceilDiv w 8

/-- The six checks of R191; the first that fails decides. -/
def validate (buf : Bytes) : Option ErrCode :=
  if buf.length < 54 then some .truncated
  else if bmpHeaderSize buf ≠ 40 then some .invalidShape
  else if bmpBitsPerPixel buf ≠ 1 then some .invalidShape
  else if bmpWidth buf ≤ 0 ∨ bmpHeight buf = 0 ∨ bmpHeight buf = -2 ^ 31 then some .invalidShape
  else if buf.length < 62 then some .truncated
  else if buf.length < bmpOffset buf + stride (bmpWidth buf).toNat * (bmpHeight buf).natAbs then some .truncated
  else none

/-- The invert flag (R193), comparing all four bytes of palette entry 0. -/
def invertFlag (buf : Bytes) : Bool := decide (bmpPalette0 buf = 0x00FFFFFF)

/-- `ROWCOPY(src, RB, inv)` (R194). -/
def rowCopy (src : Bytes) (rb : Nat) (inv : Bool) : Bytes :=
  0x00 :: (src.take rb).map (fun b => if inv then ~~~b else b)

/-- `sr(y)`: the stored row that is container row `y` (R196). -/
def storedRow (h : Int) (y : Nat) : Nat := if 0 < h then h.natAbs - 1 - y else y

/-- `RAW(buf)` of a validated buffer (R196). -/
def rawScanlines (buf : Bytes) : Bytes :=
  let w := (bmpWidth buf).toNat
  let h := bmpHeight buf
  (List.range h.natAbs).flatMap (fun y =>
    rowCopy (buf.drop (bmpOffset buf + storedRow h y * stride w)) (rowBytes w) (invertFlag buf))

/-- `SIG` (R131). -/
def pngSignature : Bytes := [0x89, 0x50, 0x4E, 0x47, 0x0D, 0x0A, 0x1A, 0x0A]

/-- "IHDR" (R133). -/
def typeIHDR : Bytes := [0x49, 0x48, 0x44, 0x52]

/-- "IDAT" (R133). -/
def typeIDAT : Bytes := [0x49, 0x44, 0x41, 0x54]

/-- "IEND" (R133). -/
def typeIEND : Bytes := [0x49, 0x45, 0x4E, 0x44]

/-- `CHUNK(t, p)` (R132). -/
def chunk (t p : Bytes) : Bytes := BE32 p.length ++ t ++ p ++ BE32 (crc32 (t ++ p)).toNat

/-- `IHDR(w, rows)` (R134, R197). -/
def ihdr (w rows : Nat) : Bytes := BE32 w ++ BE32 rows ++ [0x01, 0x00, 0x00, 0x00, 0x00]

/-- `CONTAINER(w, rows, raw)` (R130, R198): exactly one IDAT chunk. -/
def container (c : Cfg) (w rows : Nat) (raw : Bytes) : Bytes :=
  pngSignature ++ chunk typeIHDR (ihdr w rows) ++ chunk typeIDAT (zstream c raw) ++ chunk typeIEND []

/-- UNPACKROW's own checks and result (R195). -/
def unpackRowBody (b : Block) (m : Memory) : Work :=
  let l := b.latch
  let n := l.arg0.toNat
  if n = 0 then Work.fail [] .invalidShape
  else if l.srcLen.toNat < rowBytes n then Work.fail [] .truncated
  else if l.dstCap.toNat < 1 + rowBytes n then Work.fail [] .dstOverflow
  else
    let row : Range := ⟨l.srcAddr.toNat, rowBytes n⟩
    Work.done [row] (rowCopy (Memory.read m row.base row.size) (rowBytes n) l.inv) 0

/-- UNPACKROW: one packed row, optionally inverted, as one filter-prefixed scanline (R195). -/
def execUnpackRow (s : State) : Host.Outcome State Fault Refusal :=
  s.runCommand (writesMemory .unpackRow) unpackRowBody

/-- The container DECODE makes of a validated bitmap (R200). -/
def decodedContainer (c : Cfg) (buf : Bytes) : Bytes :=
  container c (bmpWidth buf).toNat (bmpHeight buf).natAbs (rawScanlines buf)

/-- DECODE's own checks and result (R200). -/
def decodeBody (b : Block) (m : Memory) : Work :=
  let r := b.latch.src
  let buf := Memory.read m r.base r.size
  match validate buf with
  | some e => Work.fail [r] e
  | none =>
    let out := decodedContainer b.cfg buf
    if b.latch.dstCap.toNat < out.length then Work.fail [r] .dstOverflow else Work.done [r] out 0

/-- DECODE: monochrome bitmap to compressed grayscale container (R200). -/
def execDecode (s : State) : Host.Outcome State Fault Refusal :=
  s.runCommand (writesMemory .decode) decodeBody

end Sys2Proof.Machine
end

