-- ==== Sys2Proof/Machine/Dispatch.lean ====
section
/-! DEFINITION. The dispatch of a decoded command to its meaning (30_encoding.md R111). -/

namespace Sys2Proof.Machine

def exec (i : Instr) (s : State) : Host.Outcome State Fault Refusal :=
  match i with
  | .encode => Sys2Proof.Machine.execEncode s
  | .decode => Sys2Proof.Machine.execDecode s
  | .packRow => Sys2Proof.Machine.execPackRow s
  | .unpackRow => Sys2Proof.Machine.execUnpackRow s
  | .crc32 => Sys2Proof.Machine.execCrc32 s
  | .adler32 => Sys2Proof.Machine.execAdler32 s
  | .zlib => Sys2Proof.Machine.execZlib s

end Sys2Proof.Machine
end

