-- ==== Sys2Proof/Machine/Turns.lean ====
section
/-! DEFINITION. One turn of each agent (00_scope.md R20): the block's completion step, one host access, the platform's
reset. -/

namespace Sys2Proof.Machine

namespace State

/-- The block's only step (R20, R52): the latched word is decoded and run (R111). While IDLE the block does nothing
(R292, log 10). -/
def blockTurn (s : State) : Host.Outcome State Fault Refusal :=
  match s.blk.phase with
  | .idle => .next s
  | .busy =>
    match decodeWord s.blk.latch.cmd with
    | .ok i => exec i s
    | .error _ => s.finishIllegal

/-- Where a host access goes. -/
inductive BusTarget where
  /-- A register of instance `k`. -/
  | register (k : Nat) (r : Reg)
  /-- It meets a window and is not admitted (R88). -/
  | notAdmitted
  /-- It meets no window. -/
  | outside
  deriving DecidableEq, Repr

/-- The bytes an access covers. -/
def widthBytes : AccessWidth → Nat
  | .b8 => 1
  | .b16 => 2
  | .b32 => 4
  | .b64 => 8

/-- The instances, the one in focus first. -/
def blocks (s : State) : List Block := s.blk :: s.peers

/-- The instances with the one in focus first, each with its number, whose window the range meets. -/
def meeting (s : State) (r : Range) : List (Nat × Block) :=
  (s.blocks.zipIdx.map (fun p => (p.2, p.1))).filter (fun p => p.2.window.overlaps r)

/-- Admission of a host access to a register window: 32 bits wide, at one of the sixteen offsets (R88). -/
def busTarget (s : State) (addr : Word) (width : AccessWidth) : BusTarget :=
  match s.meeting ⟨addr.toNat, widthBytes width⟩ with
  | [] => .outside
  | (k, b) :: _ =>
    match width with
    | .b32 =>
      if b.window.has addr.toNat then
        match Reg.ofOffset (addr.toNat - b.window.base) with
        | some r => .register k r
        | none => .notAdmitted
      else .notAdmitted
    | .b8 => .notAdmitted
    | .b16 => .notAdmitted
    | .b64 => .notAdmitted

/-- Set `TAINT` of every instance that is BUSY with a command for which the host access is a hazard (R49, R296). -/
def taintWhere (s : State) (hazard : Latch → Bool) : State :=
  let mark := fun (b : Block) => if b.busy && hazard b.latch then { b with taint := true } else b
  { s with blk := mark s.blk, peers := s.peers.map mark }

/-- A host byte store (R116), with the hazard rule R296 (a) and (b). -/
def storeByte (s : State) (a : Word) (b : Byte) : State :=
  let t := s.taintWhere (fun l => l.storeHazard a.toNat)
  { t with mem := Memory.set t.mem a.toNat b }

/-- A host byte load (R116). In flight, a byte of a destination range reads as a draw and taints (R296 (b)). -/
def loadByte (s : State) (a : Word) : State :=
  if s.blocks.any (fun b => b.busy && b.latch.loadHazard a.toNat) then
    let t := s.taintWhere (fun l => l.loadHazard a.toNat)
    { t with seen := .byte a (Config.freeByte t.draws) :: t.seen, draws := t.draws + 1 }
  else { s with seen := .byte a (Memory.get s.mem a.toNat) :: s.seen }

/-- The value of a register of instance `k`. -/
def regValue (s : State) (k : Nat) (r : Reg) : Option Word := (s.blocks[k]?).map (fun b => b.readReg r)

/-- A host read of a register: what is read is seen, no register changes (R47, R89). -/
def loadReg (s : State) (addr : Word) (k : Nat) (r : Reg) : Host.Outcome State Fault Refusal :=
  match s.regValue k r with
  | some v => .next { s with seen := .reg addr v :: s.seen }
  | none => .fault .noSuchInstance

/-- The register value read last. -/
def lastReg (s : State) : Option Word :=
  match s.seen with
  | .reg _ v :: _ => some v
  | _ => none

/-- The host access at the head of the list, with the accesses after it. A host whose access to a window is not admitted
has no step: it stays at that access (R88, R267). -/
def hostOp (s : State) (rest : List HostOp) : HostOp → Host.Outcome State Fault Refusal
  | .wr addr width v =>
    match s.busTarget addr width with
    | .register k r => ({ s with hostOps := rest } : State).onInstance k (fun t => .next (t.writeReg v r))
    | .notAdmitted => .next s
    | .outside => .refused .notAnRbcAccess
  | .rd addr width =>
    match s.busTarget addr width with
    | .register k r => ({ s with hostOps := rest } : State).loadReg addr k r
    | .notAdmitted => .next s
    | .outside => .refused .notAnRbcAccess
  | .st addr b =>
    match s.busTarget addr .b8 with
    | .outside => .next (({ s with hostOps := rest } : State).storeByte addr b)
    | .notAdmitted => .next s
    | .register _ _ => .next s
  | .ld addr =>
    match s.busTarget addr .b8 with
    | .outside => .next (({ s with hostOps := rest } : State).loadByte addr)
    | .notAdmitted => .next s
    | .register _ _ => .next s
  | .poll addr =>
    match s.busTarget addr .b32 with
    | .register k r =>
      match s.regValue k r with
      | some v =>
        if v.getLsbD 1 then ({ s with hostOps := rest } : State).loadReg addr k r else s.loadReg addr k r
      | none => .fault .noSuchInstance
    | .notAdmitted => .next s
    | .outside => .refused .notAnRbcAccess
  | .check v => if s.lastReg = some v then .next { s with hostOps := rest } else .fault .hostCheckFailed

/-- The host's turn. With no access to come it does nothing. -/
def hostTurn (s : State) : Host.Outcome State Fault Refusal :=
  match s.hostOps with
  | [] => .next s
  | op :: rest => s.hostOp rest op

/-- Instance `k` is BUSY. -/
def busyAt (s : State) (k : Nat) : Bool := (s.blocks[k]?).any Block.busy

/-- The completion of instance `k` is enabled (R52, R53): it is BUSY and its turn ends the command. -/
def completionEnabled (s : State) (k : Nat) : Bool :=
  s.busyAt k &&
    (match s.onInstance k blockTurn with
      | .next t => !t.busyAt k
      | .fault _ => false
      | .refused _ => false)

/-- The turn taken where none is scheduled: the first instance whose completion is enabled completes, else the host moves
(R54: an enabled completion is taken; log 8). A stuck instance (R53) keeps no other agent waiting. -/
def defaultTurn (s : State) : Turn :=
  match (List.range s.blocks.length).find? s.completionEnabled with
  | some k => .block k
  | none => .host

/-- One turn. -/
def runTurn (s : State) : Turn → Host.Outcome State Fault Refusal
  | .host => s.hostTurn
  | .block k => s.onInstance k blockTurn
  | .reset k => s.onInstance k (fun t => .next t.resetBlock)

/-- The state whose very next step runs the command word `c`: `c` is accepted by a `CMD` write while IDLE (R50), and the
block's turn is next (log 11). -/
def withCommand (s : State) (c : Word) : State :=
  ({ s with blk := { s.blk with phase := .idle }, schedule := .block 0 :: s.schedule } : State).acceptCmd c

end State

end Sys2Proof.Machine
end

