-- ==== Sys2Proof/Machine/Step.lean ====
section
/-! DEFINITION. One step of the machine: the next turn is taken (00_scope.md R20). -/

namespace Sys2Proof.Machine

/-- One step: the first scheduled turn, or the default turn where none is scheduled (log 8). -/
def step (s : State) : Host.Outcome State Fault Refusal :=
  match s.schedule with
  | [] => s.runTurn s.defaultTurn
  | t :: ts => ({ s with schedule := ts } : State).runTurn t

/-- The state whose very next step runs the command word whose low `nbits` bits are `w` (log 11). -/
def State.withFetchWord (s : State) (nbits w : Nat) : State := s.withCommand (BitVec.ofNat 32 (w % 2 ^ nbits))

end Sys2Proof.Machine
end

