-- ==== Sys2Proof/WellFormed.lean ====
section
/-! DEFINITION. Well-formedness: of an instruction, and of a configuration (the decidable part of `CFG_OK`, 00_scope.md
R10, with the type bounds of R9). The deflate law, the other part of `CFG_OK`, is in Machine/Deflate.lean. -/

namespace Sys2Proof

/-- No command has an operand in its word (R110, R115), so every `Instr` is well formed. -/
def Instr.wf : Instr → Bool
  | .encode | .decode | .packRow | .unpackRow | .crc32 | .adler32 | .zlib => true

namespace Cfg

/-- `1 ≤ W ≤ 2^31−1` (R10). -/
def widthOk (c : Cfg) : Bool := decide (1 ≤ c.width ∧ c.width ≤ 2 ^ 31 - 1)

/-- `1 ≤ H ≤ 2^31−1` (R10). -/
def heightOk (c : Cfg) : Bool := decide (1 ≤ c.height ∧ c.height ≤ 2 ^ 31 - 1)

/-- `62 ≤ L ≤ 2^32−1` (R10). -/
def frameLenOk (c : Cfg) : Bool := decide (62 ≤ c.frameLen ∧ c.frameLen ≤ 2 ^ 32 - 1)

/-- The four header conditions of R236: CMF[3:0] = 8, CMF[7:4] ≤ 7, FLG[5] = 0, and the check sum. -/
def zlibHdrOk (c : Cfg) : Bool :=
  decide (c.zlibCmf.toNat % 16 = 8 ∧ c.zlibCmf.toNat / 16 ≤ 7 ∧ c.zlibFlg.getLsbD 5 = false ∧
    (c.zlibCmf.toNat * 256 + c.zlibFlg.toNat) % 31 = 0)

/-- `RBC_BASE` is a multiple of 0x40 (R9). -/
def rbcBaseOk (c : Cfg) : Bool := decide (c.rbcBase.toNat % 64 = 0)

/-- The decidable part of `CFG_OK`. -/
def wf (c : Cfg) : Bool := c.widthOk && c.heightOk && c.frameLenOk && c.zlibHdrOk && c.rbcBaseOk

end Cfg

end Sys2Proof
end

