-- ==== Sys2Proof/Machine/Inflate.lean ====
section
/-! DEFINITION. The law of the deflate parameter (42_checksum_compress.md R236) and with it `CFG_OK` (00_scope.md R10).
The law speaks of inflating; no file of the spec gives the raw deflate format but for its stored blocks (R237), so the
reader below is the format of RFC 1951, PRESUMED (log 16). No step of the machine runs it: it stands in `CFG_OK` only. -/

namespace Sys2Proof.Machine

namespace Inflate

/-- The bits of a byte sequence, each byte's least significant bit first. -/
def bits (s : Bytes) : List Bool := s.flatMap (fun b => (List.range 8).map (fun i => b.getLsbD i))

/-- Take an `n`-bit number, least significant bit first. -/
def number : Nat → List Bool → Option (Nat × List Bool)
  | 0, s => some (0, s)
  | _ + 1, [] => none
  | n + 1, b :: s =>
    match number n s with
    | some (v, r) => some (b.toNat + 2 * v, r)
    | none => none

/-- Drop the bits up to the next byte boundary; the bits still to come end on one. -/
def align (s : List Bool) : List Bool := s.drop (s.length % 8)

/-- Take `n` whole bytes. -/
def takeBytes : Nat → List Bool → Option (Bytes × List Bool)
  | 0, s => some ([], s)
  | n + 1, s =>
    match number 8 s with
    | none => none
    | some (v, r) =>
      match takeBytes n r with
      | none => none
      | some (bs, q) => some (BitVec.ofNat 8 v :: bs, q)

/-- The symbols whose code is `len` bits long, in increasing order. -/
def symbolsOf (lens : List Nat) (len : Nat) : List Nat :=
  (List.range lens.length).filter (fun s => decide (lens.getD s 0 = len))

/-- Walk a canonical prefix code one bit at a time: `code` is what has been read, `first` the first code of this length. -/
def symbolFrom (lens : List Nat) : Nat → Nat → Nat → Nat → List Bool → Option (Nat × List Bool)
  | 0, _, _, _, _ => none
  | _ + 1, _, _, _, [] => none
  | fuel + 1, len, code, first, b :: s =>
    let here := symbolsOf lens len
    let c := code + b.toNat
    if c < first + here.length then
      match here[c - first]? with
      | some sym => some (sym, s)
      | none => none
    else symbolFrom lens fuel (len + 1) (2 * c) (2 * (first + here.length)) s

/-- Take one symbol of a code given by its code lengths, at most 15 bits. -/
def symbol (lens : List Nat) (s : List Bool) : Option (Nat × List Bool) := symbolFrom lens 15 1 0 0 s

/-- The share of the code space that a code takes, of 2^15. -/
def kraft (lens : List Nat) : Nat := (lens.map (fun l => if l = 0 then 0 else 2 ^ (15 - l))).sum

/-- The code is complete. -/
def complete (lens : List Nat) : Bool := decide (kraft lens = 2 ^ 15)

/-- The code is complete, or holds at most one code, of one bit. Other incomplete codes are rejected: the model's choice
(log 16). -/
def codeOk (lens : List Nat) : Bool :=
  complete lens || (lens.all (fun l => decide (l ≤ 1)) && decide ((lens.filter (fun l => decide (l = 1))).length ≤ 1))

def lengthBase : List Nat :=
  [3, 4, 5, 6, 7, 8, 9, 10, 11, 13, 15, 17, 19, 23, 27, 31, 35, 43, 51, 59, 67, 83, 99, 115, 131, 163, 195, 227, 258]

def lengthExtra : List Nat :=
  [0, 0, 0, 0, 0, 0, 0, 0, 1, 1, 1, 1, 2, 2, 2, 2, 3, 3, 3, 3, 4, 4, 4, 4, 5, 5, 5, 5, 0]

def distBase : List Nat :=
  [1, 2, 3, 4, 5, 7, 9, 13, 17, 25, 33, 49, 65, 97, 129, 193, 257, 385, 513, 769, 1025, 1537, 2049, 3073, 4097, 6145,
    8193, 12289, 16385, 24577]

def distExtra : List Nat :=
  [0, 0, 0, 0, 1, 1, 2, 2, 3, 3, 4, 4, 5, 5, 6, 6, 7, 7, 8, 8, 9, 9, 10, 10, 11, 11, 12, 12, 13, 13]

/-- Copy `n` bytes from distance `d` back; the output so far stands newest first. -/
def copyBack (d : Nat) : Nat → Bytes → Option Bytes
  | 0, out => some out
  | n + 1, out =>
    match out[d - 1]? with
    | some b => copyBack d n (b :: out)
    | none => none

/-- A base value and its extra bits. Length symbol 284 with all five extra bits 1 gives 258, which RFC 1951's table (227 to
257) leaves out; the reader accepts it, DESIGN CHOICE (log 16). -/
def withExtra (base extra : List Nat) (k : Nat) (s : List Bool) : Option (Nat × List Bool) :=
  match base[k]?, extra[k]? with
  | some b, some e =>
    match number e s with
    | some (v, r) => some (b + v, r)
    | none => none
  | _, _ => none

/-- One length and distance pair: the bytes copied, where the distance is inside the window and the output so far. -/
def copyPair (window : Nat) (dist : List Nat) (sym : Nat) (out : Bytes) (s : List Bool) :
    Option (Bytes × List Bool) :=
  match withExtra lengthBase lengthExtra (sym - 257) s with
  | none => none
  | some (len, s1) =>
    match symbol dist s1 with
    | none => none
    | some (dsym, s2) =>
      match withExtra distBase distExtra dsym s2 with
      | none => none
      | some (d, s3) =>
        if window < d then none
        else
          match copyBack d len out with
          | some o => some (o, s3)
          | none => none

/-- The symbols of one compressed block up to its end, symbol 256. -/
def symbols (window : Nat) (lit dist : List Nat) : Nat → Bytes → List Bool → Option (Bytes × List Bool)
  | 0, _, _ => none
  | fuel + 1, out, s =>
    match symbol lit s with
    | none => none
    | some (sym, r) =>
      if sym < 256 then symbols window lit dist fuel (BitVec.ofNat 8 sym :: out) r
      else if sym = 256 then some (out, r)
      else
        match copyPair window dist sym out r with
        | none => none
        | some (o, q) => symbols window lit dist fuel o q

/-- The fixed code lengths of literals and lengths. -/
def fixedLit : List Nat :=
  List.replicate 144 8 ++ List.replicate 112 9 ++ List.replicate 24 7 ++ List.replicate 8 8

/-- The fixed code lengths of distances. -/
def fixedDist : List Nat := List.replicate 30 5

/-- The order in which the lengths of the code length code are sent. -/
def lengthOrder : List Nat := [16, 17, 18, 0, 8, 7, 9, 6, 10, 5, 11, 4, 12, 3, 13, 2, 14, 1, 15]

/-- Read the lengths of the code length code. -/
def codeLengthCode : List Nat → Nat → List Nat → List Bool → Option (List Nat × List Bool)
  | _, 0, acc, s => some (acc, s)
  | [], _ + 1, _, _ => none
  | i :: is, n + 1, acc, s =>
    match number 3 s with
    | none => none
    | some (v, r) => codeLengthCode is n (acc.set i v) r

/-- Read `want` code lengths, with the repeats 16, 17 and 18; `acc` stands newest first. -/
def codeLengths (clc : List Nat) (want : Nat) : Nat → List Nat → List Bool → Option (List Nat × List Bool)
  | 0, _, _ => none
  | fuel + 1, acc, s =>
    if acc.length = want then some (acc.reverse, s)
    else if want < acc.length then none
    else
      match symbol clc s with
      | none => none
      | some (sym, r) =>
        if sym < 16 then codeLengths clc want fuel (sym :: acc) r
        else if sym = 16 then
          match acc, number 2 r with
          | p :: _, some (n, q) => codeLengths clc want fuel (List.replicate (3 + n) p ++ acc) q
          | _, _ => none
        else if sym = 17 then
          match number 3 r with
          | some (n, q) => codeLengths clc want fuel (List.replicate (3 + n) 0 ++ acc) q
          | none => none
        else
          match number 7 r with
          | some (n, q) => codeLengths clc want fuel (List.replicate (11 + n) 0 ++ acc) q
          | none => none

/-- A block with dynamic codes. Which blocks are legal is the model's choice where RFC 1951 is silent (log 16): the code
length code is complete, each other code as `codeOk`, symbol 256 has a code, there are at most 286 literal and length
codes and at most 32 distance codes, of which 30 and 31 have no meaning. -/
def dynamicBlock (window fuel : Nat) (out : Bytes) (s : List Bool) : Option (Bytes × List Bool) :=
  match number 5 s with
  | none => none
  | some (hlit, s1) =>
    match number 5 s1 with
    | none => none
    | some (hdist, s2) =>
      match number 4 s2 with
      | none => none
      | some (hclen, s3) =>
        match codeLengthCode lengthOrder (hclen + 4) (List.replicate 19 0) s3 with
        | none => none
        | some (clc, s4) =>
          match codeLengths clc (hlit + 257 + (hdist + 1)) (hlit + hdist + 259) [] s4 with
          | none => none
          | some (lens, s5) =>
            let lit := lens.take (hlit + 257)
            let dist := lens.drop (hlit + 257)
            if complete clc && codeOk lit && codeOk dist && decide (lit.getD 256 0 ≠ 0) &&
                decide (hlit + 257 ≤ 286) then
              symbols window lit dist fuel out s5
            else none

/-- A stored block (R237): LEN, NLEN its complement, the bytes. -/
def storedBlockBody (out : Bytes) (s : List Bool) : Option (Bytes × List Bool) :=
  match number 16 (align s) with
  | none => none
  | some (len, s1) =>
    match number 16 s1 with
    | none => none
    | some (nlen, s2) =>
      if nlen = len ^^^ 0xFFFF then
        match takeBytes len s2 with
        | some (bs, r) => some (bs.reverse ++ out, r)
        | none => none
      else none

/-- The blocks of a stream up to the one with BFINAL = 1. -/
def blocks (window : Nat) : Nat → Bytes → List Bool → Option (Bytes × List Bool)
  | 0, _, _ => none
  | fuel + 1, out, s =>
    match number 1 s with
    | none => none
    | some (final, s1) =>
      match number 2 s1 with
      | none => none
      | some (btype, s2) =>
        let body :=
          if btype = 0 then storedBlockBody out s2
          else if btype = 1 then symbols window fixedLit fixedDist (s2.length + 1) out s2
          else if btype = 2 then dynamicBlock window (s2.length + 1) out s2
          else none
        match body with
        | none => none
        | some (o, r) => if final = 1 then some (o, r) else blocks window fuel o r

/-- Inflate a complete raw deflate stream: the last block has BFINAL = 1, the stream ends within its last byte, and the
unused high bits of that byte are 0 (R236 (a)). `window` bounds the back-reference distances. -/
def inflate (window : Nat) (z : Bytes) : Option Bytes :=
  match blocks window ((bits z).length + 1) [] (bits z) with
  | none => none
  | some (out, r) => if r.length < 8 ∧ r.all (fun b => !b) then some out.reverse else none

end Inflate

/-- The window that `ZLIB_HDR` declares: 2^(CINFO + 8) bytes (R236; RFC 1950, log 16). -/
def zlibWindow (c : Cfg) : Nat := 2 ^ (c.zlibCmf.toNat / 16 + 8)

/-- The law of R236 for a compressor: its output is a complete raw deflate stream (a) that inflates to the input (b). -/
def DeflateLaw (window : Nat) (f : Bytes → Bytes) : Prop := ∀ x, Inflate.inflate window (f x) = some x

/-- `CFG_OK` (R10). -/
def CfgOk (c : Cfg) : Prop := c.wf = true ∧ DeflateLaw (zlibWindow c) (deflateBody c.deflate)

end Sys2Proof.Machine
end

