-- ==== Sys2Proof/Safety.lean ====
section
/-! DEFINITION. The terms claims are stated in: the invariant of the machine, the conditions on the latched operands, the
states that a completion leaves, and what counts as a safe run. -/

namespace Sys2Proof.Machine

/-- The invariant of one instance: `STATUS` agrees with the phase and is a value of R37; while BUSY the two results are 0
(R44, R45). -/
abbrev Block.Inv (b : Block) : Prop :=
  (b.phase = .busy → b.status = Status.inFlight ∧ b.resultLen = 0 ∧ b.result = 0) ∧
    (b.phase = .idle → b.status ≠ Status.inFlight ∧ Status.legal b.status = true)

/-- The invariant of the machine: memory in canonical form, and every instance as above. -/
abbrev State.Inv (s : State) : Prop := Memory.wf s.mem = true ∧ ∀ b ∈ s.blocks, b.Inv

/-- What a command's rule does on a state, the prologue included (R263). -/
def commandWork (i : Instr) (s : State) : Work :=
  match prologue (writesMemory i) s.blk.latch with
  | some e => Work.fail [] e
  | none =>
    match i with
    | .encode => encodeBody s.blk s.mem
    | .decode => decodeBody s.blk s.mem
    | .packRow => packRowBody s.blk s.mem
    | .unpackRow => unpackRowBody s.blk s.mem
    | .crc32 => crc32Body s.blk s.mem
    | .adler32 => adler32Body s.blk s.mem
    | .zlib => zlibBody s.blk s.mem

/-- The accessed set of a command (R53), as ranges. -/
def accessedSet (i : Instr) (s : State) : List Range := (commandWork i s).accessed (writesMemory i) s.blk.latch

/-- Some address of the command's accessed set is not in `MEM_ADMIT` (R53, R91). -/
def NotAdmitted (i : Instr) (s : State) : Prop :=
  ∃ r ∈ accessedSet i s, ∃ a, r.base ≤ a ∧ a < r.base + r.size ∧ admitted s.blk a = false

/-- Command `i` is in flight and its completion is not enabled (R53). -/
def Stuck (i : Instr) (s : State) : Prop :=
  s.blk.phase = .busy ∧ decodeWord s.blk.latch.cmd = .ok i ∧ NotAdmitted i s

/-- The completion of the command in flight is admitted (R53): every accessed address is, or the word is illegal. -/
def CompletionAdmitted (s : State) : Prop :=
  ∀ i, decodeWord s.blk.latch.cmd = .ok i → ∀ r ∈ accessedSet i s, ∀ a, r.base ≤ a → a < r.base + r.size →
    admitted s.blk a = true

/-- Every address of `[base, base+n)` is in `MEM_ADMIT`. -/
abbrev Admits (b : Block) (base n : Nat) : Prop := ∀ a, base ≤ a → a < base + n → admitted b a = true

/-- The latched source range does not wrap (R81). -/
abbrev SrcOk (l : Latch) : Prop := l.srcAddr.toNat + l.srcLen.toNat ≤ 2 ^ 32

/-- The latched destination range does not wrap (R81). -/
abbrev DstOk (l : Latch) : Prop := l.dstAddr.toNat + l.dstCap.toNat ≤ 2 ^ 32

/-- The latched source and destination ranges share an address (R82). -/
abbrev SrcDstOverlap (l : Latch) : Prop :=
  0 < l.srcLen.toNat ∧ 0 < l.dstCap.toNat ∧ l.srcAddr.toNat < l.dstAddr.toNat + l.dstCap.toNat ∧
    l.dstAddr.toNat < l.srcAddr.toNat + l.srcLen.toNat

/-- A writing command passes the prologue's range checks (R263). -/
abbrev RangesOk (l : Latch) : Prop := SrcOk l ∧ DstOk l ∧ ¬SrcDstOverlap l

/-- The state an error completion of code `n` leaves (R264): only `STATUS`, the two results and the phase differ. -/
def errorCompletion (s : State) (n : Nat) : State :=
  { s with
    blk :=
      { s.blk with
        phase := .idle
        status := 0x00000006#32 ||| (BitVec.ofNat 32 n <<< 8)
        resultLen := 0
        result := 0 } }

/-- The state the success of a writing command leaves (R52): `out` at `LATCH.dst_addr`, its length in `RESULT_LEN`. -/
def writeCompletion (s : State) (out : Bytes) : State :=
  { s with
    blk :=
      { s.blk with
        phase := .idle
        status := 0x00000002#32
        resultLen := BitVec.ofNat 32 out.length
        result := 0 }
    mem := Memory.write s.mem s.blk.latch.dstAddr.toNat out }

/-- The state the success of a checksum command leaves (R52): the checksum in `RESULT`, no memory write. -/
def checksumCompletion (s : State) (val : Word) : State :=
  { s with
    blk := { s.blk with phase := .idle, status := 0x00000002#32, resultLen := 0, result := val } }

/-- The latched source bytes, the first `n` of them. -/
def srcBytes (s : State) (n : Nat) : Bytes := Memory.read s.mem s.blk.latch.srcAddr.toNat n

/-- The prologue's error codes (R263) on a writing command. -/
def WriterPrologueErrors (i : Instr) (s : State) : Prop :=
  (¬SrcOk s.blk.latch → exec i s = .next (errorCompletion s 7)) ∧
    (SrcOk s.blk.latch → ¬DstOk s.blk.latch → exec i s = .next (errorCompletion s 7)) ∧
      (SrcOk s.blk.latch → DstOk s.blk.latch → SrcDstOverlap s.blk.latch → exec i s = .next (errorCompletion s 8))

/-- Bit `x mod 8` of byte `x / 8`, MSB first (R14): the bit of pixel `x` of a packed row. -/
def pixelBit (row : Bytes) (x : Nat) : Bool := (byteAt row (x / 8)).getLsbD (7 - x % 8)

/-- Pixel `(x, y)` of a raster of the configuration's width is dark, its channels R, G, B at offsets 0, 1 and 2 of the four
bytes at `4·(y·W + x)` (R84). -/
def rasterDark (c : Cfg) (ras : Bytes) (x y : Nat) : Bool :=
  dark c (byteAt ras (4 * (y * c.width + x) + 0)) (byteAt ras (4 * (y * c.width + x) + 1))
    (byteAt ras (4 * (y * c.width + x) + 2))

/-- The machine with `v` stored in a live register of the instance in focus (R47); the latch keeps its value (R48). -/
def setOperand (s : State) (v : Word) (r : Reg) : State := { s with blk := s.blk.storeReg v r }

/-- A run of `k` steps is safe: no step of it ends in a fault or a refusal. -/
def SafeRun (k : Nat) (s : State) : Prop := ∃ t, Host.Core.run Sys2Proof.core k s = .next t

end Sys2Proof.Machine
end

