-- ==== Sys2Proof/Certificates/Slice0/Obligations.lean ====
section
/-! DEFINITION. The statements about the RBC, for the provers. Each docstring names the rule of spec/ it comes from. -/

open Sys2Proof Sys2Proof.Machine

/-! ### Command words and the step -/

/-- R111, R113: a word decodes to a command exactly when it is that command's word; every other word is rejected. -/
def Obligations.CommandWordsAreOneToOne : Prop :=
  (∀ (w : Word) (i : Instr), decodeWord w = .ok i ↔ w = encodeWord i) ∧
    (∀ i, decodeTableWord 32 (encodeWord i).toNat = some i)

/-- R113, R262: which words are illegal, and by which name the decoder rejects them. -/
def Obligations.IllegalWordsAreRejectedByName : Prop :=
  ∀ w : Word,
    (w.toNat / 16 ≠ 0 → decodeWord w = .error .reservedField) ∧
      (w.toNat / 16 = 0 → (w.toNat % 16 = 0 ∨ 8 ≤ w.toNat % 16) → decodeWord w = .error .reservedOpcode) ∧
        (w.toNat / 16 = 0 → 1 ≤ w.toNat % 16 → w.toNat % 16 ≤ 7 → ∃ i, decodeWord w = .ok i ∧ opcode i = w.toNat)

/-- R111: the seven words of the opcode map, and neighbours of them. -/
def Obligations.OpcodeMapWords : Prop :=
  decodeWord 0x00000001 = .ok .encode ∧ decodeWord 0x00000002 = .ok .decode ∧ decodeWord 0x00000003 = .ok .packRow ∧
    decodeWord 0x00000004 = .ok .unpackRow ∧ decodeWord 0x00000005 = .ok .crc32 ∧ decodeWord 0x00000006 = .ok .adler32 ∧
      decodeWord 0x00000007 = .ok .zlib ∧ decodeWord 0x00000000 = .error .reservedOpcode ∧
        decodeWord 0x00000008 = .error .reservedOpcode ∧ decodeWord 0x0000000F = .error .reservedOpcode ∧
          decodeWord 0x00000011 = .error .reservedField ∧ decodeWord 0xFFFFFFF1 = .error .reservedField

/-- R20, R52, R111: the block's turn runs the latched command, with the turn taken off the schedule; with no turn
scheduled the block moves where its completion is enabled (the model's choice of who moves, log 8). -/
def Obligations.StepRunsTheLatchedCommand : Prop :=
  ∀ (s : State) (i : Instr), s.blk.phase = .busy → decodeWord s.blk.latch.cmd = .ok i →
    (∀ ts, s.schedule = .block 0 :: ts → step s = exec i { s with schedule := ts }) ∧
      (s.schedule = [] → CompletionAdmitted s → step s = exec i s)

/-- R50 and log 11: the next step after a command word is placed runs it on the operands the registers held. -/
def Obligations.FetchedWordRunsNext : Prop :=
  ∀ (s : State) (i : Instr), s.peers = [] →
    step (s.withFetchWord 32 (encodeWord i).toNat) =
      exec i
        { s with
          blk :=
            { s.blk with
              phase := .busy
              status := 0x00000001
              resultLen := 0
              result := 0
              latch :=
                ⟨encodeWord i, s.blk.srcAddr, s.blk.srcLen, s.blk.dstAddr, s.blk.dstCap, s.blk.arg0, s.blk.arg1⟩
              taint := false } }

/-- R262, R263: an illegal word completes with ILLEGAL_CMD whatever the other operands, and touches no memory. -/
def Obligations.IllegalWordCompletesWithError : Prop :=
  ∀ (s : State) (ts : List Turn), s.schedule = .block 0 :: ts → s.blk.phase = .busy → s.blk.taint = false →
    (s.blk.latch.cmd.toNat / 16 ≠ 0 ∨ s.blk.latch.cmd.toNat % 16 = 0 ∨ 8 ≤ s.blk.latch.cmd.toNat % 16) →
    step s = .next (errorCompletion { s with schedule := ts } 5)

/-- R292 and log 10: with nothing in flight and no host access to come, nothing ever happens. -/
def Obligations.IdleMachineStaysAsItIs : Prop :=
  ∀ (s : State) (k : Nat), s.schedule = [] → s.hostOps = [] → (∀ b ∈ s.blocks, b.phase = .idle) →
    Host.Core.run Sys2Proof.core k s = .next s

/-- R52, R53: a completion step that is enabled and taken ends the command: IDLE, DONE set, BUSY clear. -/
def Obligations.EnabledCompletionEndsTheCommand : Prop :=
  ∀ (s : State) (ts : List Turn), s.schedule = .block 0 :: ts → s.blk.phase = .busy → CompletionAdmitted s →
    ∃ t, step s = .next t ∧ t.blk.phase = .idle ∧ Status.done t.blk.status = true ∧ Status.busy t.blk.status = false ∧
      t.schedule = ts

/-- R53, R91: where an accessed address is not admitted the block has no step and stays BUSY. That its turn answers the same
state is the model's choice (log 9), and that a tainted command is judged by its untainted accessed set too (log 17). Every
step of any agent but a reset of the instance leaves it BUSY on the same command, and stuck where the step leaves its
source bytes alone; on its own, with no reset and no store to its source to come, it is stuck for good. -/
def Obligations.NotAdmittedStaysBusyForGood : Prop :=
  (∀ (s : State) (i : Instr), NotAdmitted i s → exec i s = .next s) ∧
    ∀ (s : State) (i : Instr), Stuck i s →
      (∀ t, step s = .next t → (∀ ts, s.schedule ≠ .reset 0 :: ts) →
        t.blk.phase = .busy ∧ t.blk.latch = s.blk.latch ∧ t.blk.status = s.blk.status ∧
          (srcBytes t s.blk.latch.srcLen.toNat = srcBytes s s.blk.latch.srcLen.toNat → Stuck i t)) ∧
      (Memory.wf s.mem = true → s.peers = [] → Turn.reset 0 ∉ s.schedule →
        (∀ a b, HostOp.st a b ∈ s.hostOps →
          ¬(s.blk.latch.srcAddr.toNat ≤ a.toNat ∧ a.toNat < s.blk.latch.srcAddr.toNat + s.blk.latch.srcLen.toNat)) →
        ∀ k t, Host.Core.run Sys2Proof.core k s = .next t →
          Stuck i t ∧ t.blk.latch = s.blk.latch ∧ t.blk.status = s.blk.status)

/-- R54: with no turn scheduled, an enabled completion waits at most for those of lower-numbered instances, whatever other
instance is stuck: the step is the completion of one of them, and nothing else moves. (Who moves where nothing is scheduled
is the model's choice, log 8.) -/
def Obligations.EnabledCompletionIsNotPassedOver : Prop :=
  ∀ (s : State) (k : Nat) (b : Block), s.schedule = [] → s.blocks[k]? = some b → b.phase = .busy →
    CompletionAdmitted { s with blk := b } →
    ∃ t j c d, step s = .next t ∧ j ≤ k ∧ s.blocks[j]? = some c ∧ c.phase = .busy ∧ t.blocks[j]? = some d ∧
      d.phase = .idle ∧ Status.done d.status = true ∧ (∀ n, n ≠ j → t.blocks[n]? = s.blocks[n]?) ∧
      t.hostOps = s.hostOps ∧ t.schedule = []

/-! ### Registers -/

/-- R32–R47: the offset of each register, what each reads, and what a write of each register other than CMD changes. -/
def Obligations.RegisterReadsAndWrites : Prop :=
  (∀ (b : Block) (v : Word) (r q : Reg), r ≠ .cmd →
    (b.storeReg v r).readReg q =
      (if q = r ∧ r ∈ [Reg.srcAddr, .srcLen, .dstAddr, .dstCap, .arg0, .arg1] then v else b.readReg q)) ∧
    (∀ b : Block,
      b.readReg .cfgWidth = BitVec.ofNat 32 b.cfg.width ∧ b.readReg .cfgHeight = BitVec.ofNat 32 b.cfg.height ∧
      b.readReg .cfgFrameLen = BitVec.ofNat 32 b.cfg.frameLen ∧ b.readReg .reserved0C = 0 ∧ b.readReg .cmd = 0 ∧
      b.readReg .status = b.status ∧ b.readReg .srcAddr = b.srcAddr ∧ b.readReg .srcLen = b.srcLen ∧
      b.readReg .dstAddr = b.dstAddr ∧ b.readReg .dstCap = b.dstCap ∧ b.readReg .arg0 = b.arg0 ∧
      b.readReg .arg1 = b.arg1 ∧ b.readReg .resultLen = b.resultLen ∧ b.readReg .result = b.result ∧
      b.readReg .reserved38 = 0 ∧ b.readReg .reserved3C = 0) ∧
    (Reg.ofOffset 0x00 = some .cfgWidth ∧ Reg.ofOffset 0x04 = some .cfgHeight ∧ Reg.ofOffset 0x08 = some .cfgFrameLen ∧
      Reg.ofOffset 0x0C = some .reserved0C ∧ Reg.ofOffset 0x10 = some .cmd ∧ Reg.ofOffset 0x14 = some .status ∧
      Reg.ofOffset 0x18 = some .srcAddr ∧ Reg.ofOffset 0x1C = some .srcLen ∧ Reg.ofOffset 0x20 = some .dstAddr ∧
      Reg.ofOffset 0x24 = some .dstCap ∧ Reg.ofOffset 0x28 = some .arg0 ∧ Reg.ofOffset 0x2C = some .arg1 ∧
      Reg.ofOffset 0x30 = some .resultLen ∧ Reg.ofOffset 0x34 = some .result ∧ Reg.ofOffset 0x38 = some .reserved38 ∧
      Reg.ofOffset 0x3C = some .reserved3C) ∧
    (∀ r : Reg, Reg.ofOffset r.offset = some r) ∧ (∀ (o : Nat) (r : Reg), Reg.ofOffset o = some r → o = r.offset)

/-- R88, R47: a 32-bit access at one of the sixteen offsets is admitted and reaches the register there; a read sees its
value and changes no register. Any other access that meets the window has no step: the host stays at it, and its turn is
used up with nothing else changed (the model's choice, log 9). -/
def Obligations.WindowAccessAdmission : Prop :=
  ∀ (s : State) (ts : List Turn) (rest : List HostOp) (a v : Word), s.schedule = .host :: ts → s.peers = [] →
    s.blk.cfg.rbcBase.toNat % 64 = 0 →
    (∀ r : Reg, a.toNat = s.blk.cfg.rbcBase.toNat + r.offset →
      (s.hostOps = .wr a .b32 v :: rest →
        step s = .next (({ s with schedule := ts, hostOps := rest } : State).writeReg v r)) ∧
      (s.hostOps = .rd a .b32 :: rest →
        step s = .next { s with schedule := ts, hostOps := rest, seen := .reg a (s.blk.readReg r) :: s.seen })) ∧
    (∀ width : AccessWidth, a.toNat < s.blk.cfg.rbcBase.toNat + 64 →
      s.blk.cfg.rbcBase.toNat < a.toNat + State.widthBytes width → ¬(width = .b32 ∧ a.toNat % 4 = 0) →
      s.hostOps = .wr a width v :: rest ∨ s.hostOps = .rd a width :: rest → step s = .next { s with schedule := ts }) ∧
    (∀ b : Byte, s.blk.cfg.rbcBase.toNat ≤ a.toNat → a.toNat < s.blk.cfg.rbcBase.toNat + 64 →
      s.hostOps = .st a b :: rest ∨ s.hostOps = .ld a :: rest → step s = .next { s with schedule := ts })

/-- R33, R34, R35: the CFG registers are hardwired; no step, not even a reset, changes what they read. -/
def Obligations.ConfigurationNeverChanges : Prop :=
  (∀ s t : State, step s = .next t → t.blocks.map (fun b => b.cfg) = s.blocks.map (fun b => b.cfg)) ∧
    (∀ b : Block, b.readReg .cfgWidth = BitVec.ofNat 32 b.cfg.width ∧
      b.readReg .cfgHeight = BitVec.ofNat 32 b.cfg.height ∧ b.readReg .cfgFrameLen = BitVec.ofNat 32 b.cfg.frameLen)

/-- R50: acceptance of a command while IDLE; while BUSY the write has no effect. (A conflict with another instance's
command, R98, is stated apart.) -/
def Obligations.CommandAcceptance : Prop :=
  ∀ (s : State) (v : Word),
    (s.blk.phase = .idle → (∀ p ∈ s.peers, p.phase = .idle) →
      s.writeReg v .cmd =
        { s with
          blk :=
            { s.blk with
              phase := .busy
              status := 0x00000001
              resultLen := 0
              result := 0
              latch := ⟨v, s.blk.srcAddr, s.blk.srcLen, s.blk.dstAddr, s.blk.dstCap, s.blk.arg0, s.blk.arg1⟩
              taint := false } }) ∧
    (s.blk.phase = .busy → s.writeReg v .cmd = s)

/-- R298: a CMD write on the bus while BUSY is dropped; only the host moves on. -/
def Obligations.CommandWriteWhileBusyIsDropped : Prop :=
  ∀ (s : State) (ts : List Turn) (rest : List HostOp) (a v : Word), s.schedule = .host :: ts → s.peers = [] →
    s.blk.cfg.rbcBase.toNat % 64 = 0 → a.toNat = s.blk.cfg.rbcBase.toNat + 0x10 → s.hostOps = .wr a .b32 v :: rest →
    s.blk.phase = .busy → step s = .next { s with schedule := ts, hostOps := rest }

/-- R51: an operand register written while a command is in flight has no effect on it: completion and the write commute. -/
def Obligations.OperandWritesLeaveCommandInFlightAlone : Prop :=
  ∀ (s t : State) (i : Instr) (v : Word) (r : Reg), r ≠ .cmd → exec i s = .next t →
    exec i (s.writeReg v r) = .next (t.writeReg v r)

/-- R48: the latch is written only at acceptance: while a command stays in flight its latch does not change. -/
def Obligations.LatchIsStableInFlight : Prop :=
  ∀ s t : State, step s = .next t → s.blk.phase = .busy → t.blk.phase = .busy → t.blk.latch = s.blk.latch

/-- R55: only acceptance, completion and reset write STATUS. -/
def Obligations.OnlyThreeEventsWriteStatus : Prop :=
  ∀ s t : State, step s = .next t → t.blk.status ≠ s.blk.status →
    (s.blk.phase = .idle ∧ t.blk.phase = .busy ∧ t.blk.status = 0x00000001) ∨
      (s.blk.phase = .busy ∧ t.blk.phase = .idle) ∨ (∃ ts, s.schedule = .reset 0 :: ts ∧ t.blk.status = 0)

/-- R117: `poll` reads STATUS until DONE is 1. -/
def Obligations.PollWaitsForDone : Prop :=
  ∀ (s : State) (ts : List Turn) (rest : List HostOp) (a : Word), s.schedule = .host :: ts → s.peers = [] →
    s.blk.cfg.rbcBase.toNat % 64 = 0 → a.toNat = s.blk.cfg.rbcBase.toNat + 0x14 → s.hostOps = .poll a :: rest →
    step s =
      .next
        { s with
          schedule := ts
          hostOps := if Status.done s.blk.status then rest else .poll a :: rest
          seen := .reg a s.blk.status :: s.seen }

/-! ### Reset -/

/-- R58, R290: what a reset leaves. The latch is unspecified and not stated. That the other instances stay as they are is the
model's choice (log 20). -/
def Obligations.ResetValues : Prop :=
  ∀ (s : State) (ts : List Turn), s.schedule = .reset 0 :: ts →
    ∃ t, step s = .next t ∧ t.blk.phase = .idle ∧ t.blk.status = 0 ∧ t.blk.srcAddr = 0 ∧ t.blk.srcLen = 0 ∧
      t.blk.dstAddr = 0 ∧ t.blk.dstCap = 0 ∧ t.blk.arg0 = 0 ∧ t.blk.arg1 = 0 ∧ t.blk.resultLen = 0 ∧ t.blk.result = 0 ∧
      t.blk.taint = false ∧ t.blk.readReg .cfgWidth = BitVec.ofNat 32 s.blk.cfg.width ∧
      t.blk.readReg .cfgHeight = BitVec.ofNat 32 s.blk.cfg.height ∧
      t.blk.readReg .cfgFrameLen = BitVec.ofNat 32 s.blk.cfg.frameLen ∧ t.peers = s.peers ∧
      (s.blk.phase = .idle → t.mem = s.mem)

/-- R291: a reset while BUSY abandons the command; only bytes of the latched destination range of a writing command may
change, and no other memory. (That they become draws is the free value of log 7.) -/
def Obligations.ResetWhileBusyTouchesOnlyTheDestination : Prop :=
  ∀ (s : State) (ts : List Turn), s.schedule = .reset 0 :: ts → s.blk.phase = .busy → Memory.wf s.mem = true →
    ∃ t, step s = .next t ∧ t.blk.status = 0 ∧ t.blk.phase = .idle ∧
      (s.blk.latch.writes = false → t.mem = s.mem) ∧
      (∀ a, a < s.blk.latch.dstAddr.toNat ∨ s.blk.latch.dstAddr.toNat + s.blk.latch.dstCap.toNat ≤ a →
        Memory.get t.mem a = Memory.get s.mem a)

/-! ### Errors, completion, frames -/

/-- R264: an error completion sets STATUS, RESULT_LEN, RESULT and the phase, and nothing else; memory is as before. -/
def Obligations.ErrorCompletionSavesNothingElse : Prop :=
  ∀ (s t : State) (i : Instr), s.blk.taint = false → s.blk.status = 0x00000001 → exec i s = .next t →
    Status.err t.blk.status = true →
    ∃ code, 1 ≤ code ∧ code ≤ 8 ∧ t = errorCompletion s code

/-- R112, R44, R45: the two results after a success: RESULT is 0 but for the checksums, RESULT_LEN is 0 for them, and the
output fits the capacity. -/
def Obligations.ResultsOfASuccess : Prop :=
  ∀ (s t : State) (i : Instr), s.blk.taint = false → s.blk.status = 0x00000001 → exec i s = .next t →
    t.blk.status = 0x00000002 →
    (writesMemory i = true → t.blk.result = 0 ∧ t.blk.resultLen.toNat ≤ s.blk.latch.dstCap.toNat) ∧
      (writesMemory i = false → t.blk.resultLen = 0 ∧ t.mem = s.mem) ∧ t.blk.phase = .idle

/-- The frame of all seven commands (R52, R113): no register but STATUS, RESULT_LEN, RESULT and the phase changes; CRC32 and
ADLER32 store nothing; a writing command stores only at `[DST_ADDR, DST_ADDR + RESULT_LEN)`, a tainted one only inside its
latched destination range. -/
def Obligations.CommandFrame : Prop :=
  ∀ (s t : State) (i : Instr), Memory.wf s.mem = true → exec i s = .next t →
    (t.blk.cfg = s.blk.cfg ∧ t.blk.srcAddr = s.blk.srcAddr ∧ t.blk.srcLen = s.blk.srcLen ∧
      t.blk.dstAddr = s.blk.dstAddr ∧ t.blk.dstCap = s.blk.dstCap ∧ t.blk.arg0 = s.blk.arg0 ∧ t.blk.arg1 = s.blk.arg1 ∧
      t.blk.latch = s.blk.latch ∧ t.blk.taint = s.blk.taint ∧ t.peers = s.peers ∧ t.hostOps = s.hostOps ∧
      t.schedule = s.schedule ∧ t.seen = s.seen) ∧
    ((i = .crc32 ∨ i = .adler32) → ∀ a, Memory.get t.mem a = Memory.get s.mem a) ∧
    (s.blk.taint = false → ∀ a,
      (a < s.blk.latch.dstAddr.toNat ∨ s.blk.latch.dstAddr.toNat + t.blk.resultLen.toNat ≤ a) →
      Memory.get t.mem a = Memory.get s.mem a) ∧
    (∀ a, (a < s.blk.latch.dstAddr.toNat ∨ s.blk.latch.dstAddr.toNat + s.blk.latch.dstCap.toNat ≤ a) →
      Memory.get t.mem a = Memory.get s.mem a)

/-- R93 (b), R52: after the success of a writing command a host load of its `k`-th destination byte sees the `k`-th byte of
the output. -/
def Obligations.OutputIsSeenAfterDone : Prop :=
  ∀ (s t : State) (i : Instr) (out : Bytes) (a : Word) (k : Nat), Memory.wf s.mem = true → s.peers = [] →
    RangesOk s.blk.latch → writesMemory i = true → s.blk.taint = false → exec i s = .next t →
    s.blk.status = 0x00000001 → t.blk.status = 0x00000002 → (commandWork i s).result = .ok out 0 →
    a.toNat = s.blk.latch.dstAddr.toNat + k → (h : k < out.length) →
    (t.loadByte a).seen = .byte a out[k] :: s.seen

/-- R297: the completion of a tainted command: its outcome, both results and, for a writing command, every byte of its
destination range are draws, which the model takes from free values (log 7), whatever the counter stands at. -/
def Obligations.TaintedCompletionIsADraw : Prop :=
  ∀ (s : State) (i : Instr) (n : Nat), Memory.wf s.mem = true → s.blk.taint = true →
    (∀ r ∈ accessedSet i s, Admits s.blk r.base r.size) →
    n = s.draws + (if writesMemory i then s.blk.latch.dstCap.toNat else 0) →
    ∃ t, exec i s = .next t ∧ t.blk.phase = .idle ∧ t.blk.status = Status.ofOutcome (Config.freeOutcome n) ∧
      t.blk.resultLen = Config.freeWord n ∧ t.blk.result = Config.freeWord (n + 1) ∧ t.draws = n + 2 ∧
      (t.blk.status = 0x00000002 ∨
        ∃ code, 1 ≤ code ∧ code ≤ 8 ∧ t.blk.status = 0x00000006#32 ||| (BitVec.ofNat 32 code <<< 8)) ∧
      (writesMemory i = false → t.mem = s.mem) ∧
      (writesMemory i = true → ∀ k, k < s.blk.latch.dstCap.toNat → s.blk.latch.dstAddr.toNat + k < 2 ^ 32 →
        Memory.get t.mem (s.blk.latch.dstAddr.toNat + k) = Config.freeByte (s.draws + k))

/-! ### The encoder family -/

/-- R160: exact mode, its formula and its boundary. -/
def Obligations.ExactLuminanceThreshold : Prop :=
  ∀ c : Cfg, c.lumaMode = .exact →
    (∀ r g b : Byte, dark c r g b = true ↔
      c.weightR * r.toNat + c.weightG * g.toNat + c.weightB * b.toNat < 100 * c.threshold) ∧
    (c.weightR = 30 → c.weightG = 59 → c.weightB = 11 → c.threshold = 128 →
      ∀ v : Byte, dark c v v v = true ↔ v.toNat ≤ 127)

/-- R162: with the reference parameters binary64 mode differs from exact mode only where the sum is exactly 12800, and there
only by calling the pixel dark. -/
def Obligations.Binary64DiffersOnlyOnTheBoundary : Prop :=
  ∀ (c : Cfg), c.weightR = 30 → c.weightG = 59 → c.weightB = 11 → c.threshold = 128 → ∀ r g b : Byte,
    (darkExact c r g b = true → darkBinary64 c r g b = true) ∧
      (darkBinary64 c r g b = true → darkExact c r g b = false →
        30 * r.toNat + 59 * g.toNat + 11 * b.toNat = 12800) ∧
      darkBinary64 c 128 128 128 = true ∧ darkExact c 128 128 128 = false

/-- R161: the stride is `((w + 31) / 32)·4`, and its examples. -/
def Obligations.RowStride : Prop :=
  (∀ w, stride w = ((w + 31) / 32) * 4 ∧ w ≤ 8 * stride w ∧ 8 * stride w < w + 32) ∧
    stride 1 = 4 ∧ stride 32 = 4 ∧ stride 33 = 8 ∧ stride 800 = 100

/-- R164: the packed row: its length, the bit of each pixel from its R, G and B bytes, and zeros past the last pixel. -/
def Obligations.PackedRowBits : Prop :=
  ∀ (c : Cfg) (px : Bytes) (n : Nat),
    (pack c px n).length = stride n ∧
      (∀ x, x < n → pixelBit (pack c px n) x =
          dark c (byteAt px (4 * x + 0)) (byteAt px (4 * x + 1)) (byteAt px (4 * x + 2))) ∧
        (∀ x, n ≤ x → pixelBit (pack c px n) x = false)

/-- R163: a packed row does not depend on the alpha bytes, and transparent black is dark. -/
def Obligations.AlphaIsNotRead : Prop :=
  (∀ (c : Cfg) (px qx : Bytes) (n : Nat), (∀ k, k % 4 ≠ 3 → byteAt px k = byteAt qx k) → pack c px n = pack c qx n) ∧
    (∀ c : Cfg, c.weightR = 30 → c.weightG = 59 → c.weightB = 11 → c.threshold = 128 → dark c 0 0 0 = true)

/-- R165: PACKROW, each check in order and the success. -/
def Obligations.PackRowCommand : Prop :=
  ∀ (s : State) (l : Latch) (n : Nat), s.blk.taint = false → s.blk.latch = l → l.arg0.toNat = n →
    encodeWord .packRow = 0x00000003 ∧ WriterPrologueErrors .packRow s ∧
      (RangesOk l → (n = 0 ∨ l.srcLen.toNat ≠ 4 * n) → exec .packRow s = .next (errorCompletion s 1)) ∧
      (RangesOk l → n ≠ 0 → l.srcLen.toNat = 4 * n → l.dstCap.toNat < stride n →
        exec .packRow s = .next (errorCompletion s 6)) ∧
      (RangesOk l → n ≠ 0 → l.srcLen.toNat = 4 * n → stride n ≤ l.dstCap.toNat → Admits s.blk l.srcAddr.toNat (4 * n) →
        Admits s.blk l.dstAddr.toNat (stride n) →
        exec .packRow s = .next (writeCompletion s (pack s.blk.cfg (srcBytes s (4 * n)) n)) ∧
          (pack s.blk.cfg (srcBytes s (4 * n)) n).length = stride n) ∧
      (∀ c : Cfg, c.weightR = 30 → c.weightG = 59 → c.weightB = 11 → c.threshold = 128 →
        pack c [0x00, 0x00, 0x00, 0xFF] 1 = [0x80, 0x00, 0x00, 0x00])

/-- R170, R171: ENCODE, each check in order and the success, which writes exactly `L` bytes. -/
def Obligations.EncodeCommand : Prop :=
  ∀ (s : State) (l : Latch) (c : Cfg), s.blk.taint = false → s.blk.latch = l → s.blk.cfg = c →
    encodeWord .encode = 0x00000001 ∧ WriterPrologueErrors .encode s ∧
      (RangesOk l →
        (l.arg0.toNat ≠ c.width ∨ l.arg1.toNat ≠ c.height ∨ l.srcLen.toNat ≠ 4 * c.width * c.height) →
        exec .encode s = .next (errorCompletion s 1)) ∧
      (RangesOk l → l.arg0.toNat = c.width → l.arg1.toNat = c.height → l.srcLen.toNat = 4 * c.width * c.height →
        (c.frameLen < 62 + stride c.width * c.height → exec .encode s = .next (errorCompletion s 2)) ∧
        (62 + stride c.width * c.height ≤ c.frameLen → l.dstCap.toNat < c.frameLen →
          exec .encode s = .next (errorCompletion s 6)) ∧
        (62 + stride c.width * c.height ≤ c.frameLen → c.frameLen ≤ l.dstCap.toNat →
          Admits s.blk l.srcAddr.toNat (4 * c.width * c.height) → Admits s.blk l.dstAddr.toNat c.frameLen →
          exec .encode s = .next (writeCompletion s (bitmap c (srcBytes s (4 * c.width * c.height)))) ∧
            (bitmap c (srcBytes s (4 * c.width * c.height))).length = c.frameLen))

/-- R120–R124, R84: the bytes of the bitmap: header and palette fields, rows bottom-up, each pixel's bit from its raster
bytes, zero surplus. -/
def Obligations.BitmapLayout : Prop :=
  ∀ (c : Cfg) (ras : Bytes), c.wf = true → 62 + stride c.width * c.height ≤ c.frameLen →
    (bitmap c ras).length = c.frameLen ∧
      (bitmap c ras).take 2 = [0x42, 0x4D] ∧ le32 (bitmap c ras) 2 = c.frameLen ∧ le32 (bitmap c ras) 6 = 0 ∧
      le32 (bitmap c ras) 10 = 62 ∧ le32 (bitmap c ras) 14 = 40 ∧ sle32 (bitmap c ras) 18 = c.width ∧
      sle32 (bitmap c ras) 22 = c.height ∧ le16 (bitmap c ras) 26 = 1 ∧ le16 (bitmap c ras) 28 = 1 ∧
      le32 (bitmap c ras) 30 = 0 ∧ le32 (bitmap c ras) 34 = stride c.width * c.height ∧ le32 (bitmap c ras) 38 = 0 ∧
      le32 (bitmap c ras) 42 = 0 ∧ le32 (bitmap c ras) 46 = 2 ∧ le32 (bitmap c ras) 50 = 2 ∧
      le32 (bitmap c ras) 54 = 0x00FFFFFF ∧ le32 (bitmap c ras) 58 = 0 ∧
      (∀ r, r < c.height →
        ((bitmap c ras).drop (62 + r * stride c.width)).take (stride c.width) =
          pack c (rasterRow c.width ras (c.height - 1 - r)) c.width) ∧
      (∀ x y, x < c.width → y < c.height →
        pixelBit ((bitmap c ras).drop (62 + (c.height - 1 - y) * stride c.width)) x = rasterDark c ras x y) ∧
      (∀ k, 62 + stride c.width * c.height ≤ k → byteAt (bitmap c ras) k = 0)

/-- R173: the properties the source states of an encoded frame. -/
def Obligations.EncodedFrameProperties : Prop :=
  ∀ (c : Cfg) (ras : Bytes), c.wf = true → 62 + stride c.width * c.height ≤ c.frameLen →
    (bitmap c ras).length = c.frameLen ∧
      le32 (bitmap c ras) 18 = c.width ∧ sle32 (bitmap c ras) 22 = c.height ∧ le16 (bitmap c ras) 28 = 1 ∧
      ((∀ y x, y < c.height → x < c.width → rasterDark c ras x y = false) →
        ∀ k, 62 ≤ k → byteAt (bitmap c ras) k = 0x00) ∧
      ((∀ y x, y < c.height → x < c.width → rasterDark c ras x y = true) →
        ∀ r j, r < c.height → j < stride c.width →
          byteAt (bitmap c ras) (62 + r * stride c.width + j) =
            (if j < c.width / 8 then 0xFF
             else if j = c.width / 8 ∧ c.width % 8 ≠ 0 then 0xFF#8 <<< (8 - c.width % 8)
             else 0x00)) ∧
      (∀ k, 62 + stride c.width * c.height ≤ k → byteAt (bitmap c ras) k = 0x00)

/-- R172: ENCODE's output is a function of the source bytes and the configuration alone. -/
def Obligations.EncodeIsDeterministic : Prop :=
  ∀ s₁ s₂ t₁ t₂ : State, Memory.wf s₁.mem = true → Memory.wf s₂.mem = true → s₁.blk.cfg = s₂.blk.cfg →
    s₁.blk.taint = false → s₂.blk.taint = false → RangesOk s₁.blk.latch → RangesOk s₂.blk.latch →
    s₁.blk.status = 0x00000001 → s₂.blk.status = 0x00000001 →
    srcBytes s₁ (4 * s₁.blk.cfg.width * s₁.blk.cfg.height) = srcBytes s₂ (4 * s₁.blk.cfg.width * s₁.blk.cfg.height) →
    exec .encode s₁ = .next t₁ → exec .encode s₂ = .next t₂ →
    t₁.blk.status = 0x00000002 → t₂.blk.status = 0x00000002 →
    Memory.read t₁.mem s₁.blk.latch.dstAddr.toNat s₁.blk.cfg.frameLen =
      Memory.read t₂.mem s₂.blk.latch.dstAddr.toNat s₁.blk.cfg.frameLen

/-- R11: the derived quantities of the reference configuration. -/
def Obligations.ReferenceFrameSize : Prop :=
  stride Config.reference.width = 100 ∧ stride Config.reference.width * Config.reference.height = 48000 ∧
    62 + stride Config.reference.width * Config.reference.height = Config.reference.frameLen ∧
      Config.reference.frameLen = 48062 ∧ Config.reference.wf = true

/-! ### The decoder family -/

/-- R194: the row copy. -/
def Obligations.RowCopyBytes : Prop :=
  ∀ (src : Bytes) (rb : Nat) (inv : Bool), rb ≤ src.length →
    (rowCopy src rb inv).length = 1 + rb ∧ byteAt (rowCopy src rb inv) 0 = 0x00 ∧
      ∀ k, k < rb → byteAt (rowCopy src rb inv) (k + 1) = (if inv then ~~~(byteAt src k) else byteAt src k)

/-- R195: UNPACKROW, each check in order and the success. -/
def Obligations.UnpackRowCommand : Prop :=
  ∀ (s : State) (l : Latch) (n rb : Nat), s.blk.taint = false → s.blk.latch = l → l.arg0.toNat = n → rb = (n + 7) / 8 →
    encodeWord .unpackRow = 0x00000004 ∧ WriterPrologueErrors .unpackRow s ∧
      (RangesOk l → n = 0 → exec .unpackRow s = .next (errorCompletion s 3)) ∧
      (RangesOk l → n ≠ 0 → l.srcLen.toNat < rb → exec .unpackRow s = .next (errorCompletion s 4)) ∧
      (RangesOk l → n ≠ 0 → rb ≤ l.srcLen.toNat → l.dstCap.toNat < 1 + rb →
        exec .unpackRow s = .next (errorCompletion s 6)) ∧
      (RangesOk l → n ≠ 0 → rb ≤ l.srcLen.toNat → 1 + rb ≤ l.dstCap.toNat → Admits s.blk l.srcAddr.toNat rb →
        Admits s.blk l.dstAddr.toNat (1 + rb) →
        exec .unpackRow s = .next (writeCompletion s (rowCopy (srcBytes s rb) rb (l.arg1.getLsbD 0))) ∧
          (rowCopy (srcBytes s rb) rb (l.arg1.getLsbD 0)).length = 1 + rb) ∧
      rowCopy [0xAC, 0xC0] 2 true = [0x00, 0x53, 0x3F]

/-- R191: the six checks of a bitmap, in order; and what a validated bitmap satisfies. -/
def Obligations.BitmapValidationOrder : Prop :=
  ∀ buf : Bytes,
    (buf.length < 54 → validate buf = some .truncated) ∧
      (54 ≤ buf.length → (le32 buf 14 ≠ 40 ∨ le16 buf 28 ≠ 1) → validate buf = some .invalidShape) ∧
      (54 ≤ buf.length → le32 buf 14 = 40 → le16 buf 28 = 1 →
        (sle32 buf 18 ≤ 0 ∨ sle32 buf 22 = 0 ∨ sle32 buf 22 = -2 ^ 31) → validate buf = some .invalidShape) ∧
      (54 ≤ buf.length → le32 buf 14 = 40 → le16 buf 28 = 1 →
        ¬(sle32 buf 18 ≤ 0 ∨ sle32 buf 22 = 0 ∨ sle32 buf 22 = -2 ^ 31) →
        (buf.length < 62 → validate buf = some .truncated) ∧
        (62 ≤ buf.length → buf.length < le32 buf 10 + stride (sle32 buf 18).toNat * (sle32 buf 22).natAbs →
          validate buf = some .truncated) ∧
        (62 ≤ buf.length → le32 buf 10 + stride (sle32 buf 18).toNat * (sle32 buf 22).natAbs ≤ buf.length →
          validate buf = none))

/-- R192, R193, R194, R196, R137: the raw scanlines of a validated bitmap: top row first whatever the height's sign, a zero
filter byte, `ceil(w/8)` bytes, inverted exactly when palette entry 0 is 0x00FFFFFF. -/
def Obligations.RawScanlineBytes : Prop :=
  ∀ (buf : Bytes) (w rows rb : Nat), validate buf = none → w = (sle32 buf 18).toNat → rows = (sle32 buf 22).natAbs →
    rb = (w + 7) / 8 →
    (rawScanlines buf).length = rows * (1 + rb) ∧
      ∀ y k, y < rows → k < 1 + rb →
        byteAt (rawScanlines buf) (y * (1 + rb) + k) =
          (if k = 0 then 0x00
           else
             let stored := if 0 < sle32 buf 22 then rows - 1 - y else y
             let b := byteAt buf (le32 buf 10 + stored * stride w + (k - 1))
             if le32 buf 54 = 0x00FFFFFF then ~~~b else b)

/-- R130–R136: the container, byte by byte but for the deflate body, the Adler-32 and the two computed CRCs. -/
def Obligations.ContainerLayout : Prop :=
  (∀ t p : Bytes, chunk t p = BE32 p.length ++ t ++ p ++ BE32 (crc32 (t ++ p)).toNat) ∧
    ∀ (c : Cfg) (w rows : Nat) (raw : Bytes),
      container c w rows raw =
        [0x89, 0x50, 0x4E, 0x47, 0x0D, 0x0A, 0x1A, 0x0A] ++
          ([0x00, 0x00, 0x00, 0x0D, 0x49, 0x48, 0x44, 0x52] ++ (BE32 w ++ BE32 rows ++ [1, 0, 0, 0, 0]) ++
            BE32 (crc32 ([0x49, 0x48, 0x44, 0x52] ++ (BE32 w ++ BE32 rows ++ [1, 0, 0, 0, 0]))).toNat) ++
          chunk [0x49, 0x44, 0x41, 0x54]
            ([c.zlibCmf, c.zlibFlg] ++ deflateBody c.deflate raw ++ BE32 (adler32 raw)) ++
          [0x00, 0x00, 0x00, 0x00, 0x49, 0x45, 0x4E, 0x44, 0xAE, 0x42, 0x60, 0x82] ∧
        (container c w rows raw).length = 57 + (2 + (deflateBody c.deflate raw).length + 4)

/-- R200: DECODE, each check in order and the success. -/
def Obligations.DecodeCommand : Prop :=
  ∀ (s : State) (l : Latch) (buf : Bytes), s.blk.taint = false → s.blk.latch = l → buf = srcBytes s l.srcLen.toNat →
    encodeWord .decode = 0x00000002 ∧ WriterPrologueErrors .decode s ∧
      (RangesOk l → Admits s.blk l.srcAddr.toNat l.srcLen.toNat →
        (∀ e, validate buf = some e → exec .decode s = .next (errorCompletion s e.code)) ∧
        (validate buf = none →
          ∀ out, out = container s.blk.cfg (sle32 buf 18).toNat (sle32 buf 22).natAbs (rawScanlines buf) →
            (l.dstCap.toNat < out.length → exec .decode s = .next (errorCompletion s 6)) ∧
            (out.length ≤ l.dstCap.toNat → Admits s.blk l.dstAddr.toNat out.length →
              exec .decode s = .next (writeCompletion s out))))

/-- R201: DECODE after ENCODE shows each pixel black (sample 0) exactly where it was dark, top row first. -/
def Obligations.PolarityRoundTrip : Prop :=
  ∀ (c : Cfg) (ras : Bytes), c.wf = true → 62 + stride c.width * c.height ≤ c.frameLen →
    validate (bitmap c ras) = none ∧ (sle32 (bitmap c ras) 18).toNat = c.width ∧
      (sle32 (bitmap c ras) 22).natAbs = c.height ∧
      ∀ y x, y < c.height → x < c.width →
        pixelBit ((rawScanlines (bitmap c ras)).drop (y * (1 + (c.width + 7) / 8) + 1)) x =
          !(rasterDark c ras x y)

/-- R202: the first 33 bytes, the last 12 and the Adler-32 trailer of a container do not depend on the deflate parameter. -/
def Obligations.ContainerPartsIndependentOfDeflate : Prop :=
  ∀ (c : Cfg) (d : DeflateChoice) (w rows : Nat) (raw : Bytes) (p q : Bytes),
    p = container c w rows raw → q = container { c with deflate := d } w rows raw →
    p.take 33 = q.take 33 ∧ p.drop (p.length - 12) = q.drop (q.length - 12) ∧
      (p.drop (p.length - 20)).take 4 = (q.drop (q.length - 20)).take 4 ∧
      (p.drop (p.length - 20)).take 4 = BE32 (adler32 raw) ∧
      p.length + (deflateBody d raw).length = q.length + (deflateBody c.deflate raw).length

/-! ### Checksums and compression -/

/-- R231: the check values of CRC-32. -/
def Obligations.CrcCheckValues : Prop :=
  crc32 [] = 0x00000000 ∧ crc32 [0x31, 0x32, 0x33, 0x34, 0x35, 0x36, 0x37, 0x38, 0x39] = 0xCBF43926 ∧
    crc32 [0x49, 0x45, 0x4E, 0x44] = 0xAE426082 ∧ crc32 (typeIHDR ++ ihdr 800 480) = 0x757C3458 ∧
      ∀ t p : Bytes, (chunk t p).drop (4 + t.length + p.length) = BE32 (crc32 (t ++ p)).toNat

/-- R232: CRC32. The destination registers are not looked at, and no memory is written. -/
def Obligations.Crc32Command : Prop :=
  ∀ (s : State) (l : Latch), s.blk.taint = false → s.blk.latch = l →
    encodeWord .crc32 = 0x00000005 ∧
      (¬SrcOk l → exec .crc32 s = .next (errorCompletion s 7)) ∧
      (SrcOk l → Admits s.blk l.srcAddr.toNat l.srcLen.toNat →
        exec .crc32 s = .next (checksumCompletion s (crc32 (srcBytes s l.srcLen.toNat)))) ∧
      (l.srcLen = 0 → exec .crc32 s = .next (checksumCompletion s 0x00000000)) ∧
      (l.srcLen = 4 → SrcOk l → Admits s.blk l.srcAddr.toNat 4 → srcBytes s 4 = [0x49, 0x45, 0x4E, 0x44] →
        exec .crc32 s = .next (checksumCompletion s 0xAE426082))

/-- R234: the check values of Adler-32. -/
def Obligations.AdlerCheckValues : Prop :=
  adler32 [] = 0x00000001 ∧ adler32 [0x61] = 0x00620062 ∧
    adler32 [0x57, 0x69, 0x6B, 0x69, 0x70, 0x65, 0x64, 0x69, 0x61] = 0x11E60398 ∧
      adler32 [0x31, 0x32, 0x33, 0x34, 0x35, 0x36, 0x37, 0x38, 0x39] = 0x091E01DE ∧
        adler32 (List.replicate 5552 0xFF) = 0xF18F9B8C ∧ adler32 (List.replicate 65536 0xFF) = 0x77970EF2

/-- R235: ADLER32; the sums never exceed 65520, so the checksum fits `RESULT`. -/
def Obligations.Adler32Command : Prop :=
  ∀ (s : State) (l : Latch), s.blk.taint = false → s.blk.latch = l →
    encodeWord .adler32 = 0x00000006 ∧
      (¬SrcOk l → exec .adler32 s = .next (errorCompletion s 7)) ∧
      (SrcOk l → Admits s.blk l.srcAddr.toNat l.srcLen.toNat →
        exec .adler32 s = .next (checksumCompletion s (BitVec.ofNat 32 (adler32 (srcBytes s l.srcLen.toNat))))) ∧
      (l.srcLen = 0 → exec .adler32 s = .next (checksumCompletion s 0x00000001)) ∧
      (l.srcLen = 9 → SrcOk l → Admits s.blk l.srcAddr.toNat 9 →
        srcBytes s 9 = [0x57, 0x69, 0x6B, 0x69, 0x70, 0x65, 0x64, 0x69, 0x61] →
        exec .adler32 s = .next (checksumCompletion s 0x11E60398)) ∧
      (∀ d : Bytes, (adlerSums d).1 ≤ 65520 ∧ (adlerSums d).2 ≤ 65520 ∧ adler32 d < 2 ^ 32)

/-- R238, R136: ZLIB, its check and its success. -/
def Obligations.ZlibCommand : Prop :=
  ∀ (s : State) (l : Latch) (d z : Bytes), s.blk.taint = false → s.blk.latch = l → d = srcBytes s l.srcLen.toNat →
    z = [s.blk.cfg.zlibCmf, s.blk.cfg.zlibFlg] ++ deflateBody s.blk.cfg.deflate d ++ BE32 (adler32 d) →
    encodeWord .zlib = 0x00000007 ∧ WriterPrologueErrors .zlib s ∧
      (RangesOk l → Admits s.blk l.srcAddr.toNat l.srcLen.toNat →
        (l.dstCap.toNat < z.length → exec .zlib s = .next (errorCompletion s 6)) ∧
        (z.length ≤ l.dstCap.toNat → Admits s.blk l.dstAddr.toNat z.length →
          exec .zlib s = .next (writeCompletion s z))) ∧
      (l.srcLen = 0 →
        z = [s.blk.cfg.zlibCmf, s.blk.cfg.zlibFlg] ++ deflateBody s.blk.cfg.deflate [] ++ [0x00, 0x00, 0x00, 0x01]) ∧
      (s.blk.cfg.deflate = .stored → s.blk.cfg.zlibCmf = 0x78 → s.blk.cfg.zlibFlg = 0xDA →
        (l.srcLen = 0 → z = [0x78, 0xDA, 0x01, 0x00, 0x00, 0xFF, 0xFF, 0x00, 0x00, 0x00, 0x01]) ∧
        (d = [0x00, 0x53, 0x3F, 0x00, 0x00, 0x3F] →
          z = [0x78, 0xDA, 0x01, 0x06, 0x00, 0xF9, 0xFF, 0x00, 0x53, 0x3F, 0x00, 0x00, 0x3F, 0x02, 0xE0, 0x00, 0xD2]))

/-- R237: the length of `DEFLATE_STORED`, and its block on an input of at most 65535 bytes. -/
def Obligations.StoredStreamLength : Prop :=
  (∀ x : Bytes, (deflateStored x).length = x.length + 5 * max 1 ((x.length + 65534) / 65535)) ∧
    deflateStored [] = [0x01, 0x00, 0x00, 0xFF, 0xFF] ∧
      (∀ x : Bytes, 0 < x.length → x.length ≤ 65535 →
        deflateStored x = [0x01] ++ LE16 x.length ++ LE16 (65535 - x.length) ++ x)

/-- R236, R237: the reference instance obeys the law of the deflate parameter, so a well-formed configuration that chooses it
meets `CFG_OK` (R10). (The raw deflate reader is PRESUMED, log 16; only its stored blocks are the spec's.) -/
def Obligations.StoredInstanceObeysTheLaw : Prop :=
  (∀ window : Nat, DeflateLaw window deflateStored) ∧ (∀ c : Cfg, c.wf = true → c.deflate = .stored → CfgOk c)

/-- R236, R238, R10: in every configuration that meets `CFG_OK`, and in every well-formed one with the reference instance, what
ZLIB writes is a valid header, a stream that inflates to the source, and the source's Adler-32 (the raw deflate reader as
in log 16). -/
def Obligations.ZlibOutputInflatesToSource : Prop :=
  ∀ (s t : State), CfgOk s.blk.cfg ∨ (s.blk.cfg.wf = true ∧ s.blk.cfg.deflate = .stored) → Memory.wf s.mem = true →
    RangesOk s.blk.latch → s.blk.taint = false → s.blk.status = 0x00000001 → exec .zlib s = .next t → t.blk.status = 0x00000002 →
    ∃ body : Bytes,
      Memory.read t.mem s.blk.latch.dstAddr.toNat t.blk.resultLen.toNat =
        [s.blk.cfg.zlibCmf, s.blk.cfg.zlibFlg] ++ body ++
          BE32 (adler32 (srcBytes s s.blk.latch.srcLen.toNat)) ∧
        Inflate.inflate (zlibWindow s.blk.cfg) body = some (srcBytes s s.blk.latch.srcLen.toNat) ∧
        (s.blk.cfg.zlibCmf.toNat * 256 + s.blk.cfg.zlibFlg.toNat) % 31 = 0

/-! ### Hazards and several agents -/

/-- R296: which host byte accesses taint the command in flight, and what a load sees: in the destination range a draw, which
the model takes from a free value (log 7). -/
def Obligations.InFlightHazards : Prop :=
  ∀ (s : State) (l : Latch) (ts : List Turn) (rest : List HostOp) (a : Word) (b : Byte), s.schedule = .host :: ts →
    s.peers = [] → s.blk.phase = .busy → s.blk.latch = l → s.blk.window.has a.toNat = false →
    (s.hostOps = .st a b :: rest →
      ∃ t, step s = .next t ∧ t.mem = Memory.set s.mem a.toNat b ∧
        t.blk.taint =
          (s.blk.taint ||
            decide ((l.srcAddr.toNat ≤ a.toNat ∧ a.toNat < l.srcAddr.toNat + l.srcLen.toNat) ∨
              (l.writes = true ∧ l.dstAddr.toNat ≤ a.toNat ∧ a.toNat < l.dstAddr.toNat + l.dstCap.toNat)))) ∧
    (s.hostOps = .ld a :: rest →
      ∃ t, step s = .next t ∧ t.mem = s.mem ∧
        t.blk.taint =
          (s.blk.taint ||
            decide (l.writes = true ∧ l.dstAddr.toNat ≤ a.toNat ∧ a.toNat < l.dstAddr.toNat + l.dstCap.toNat)) ∧
        (¬(l.writes = true ∧ l.dstAddr.toNat ≤ a.toNat ∧ a.toNat < l.dstAddr.toNat + l.dstCap.toNat) →
          t.seen = .byte a (Memory.get s.mem a.toNat) :: s.seen) ∧
        (l.writes = true ∧ l.dstAddr.toNat ≤ a.toNat ∧ a.toNat < l.dstAddr.toNat + l.dstCap.toNat →
          t.seen = .byte a (Config.freeByte s.draws) :: s.seen))

/-- R93, R296, R299: a host store outside the latched ranges does not interfere with the command in flight: its registers
end the same, and every byte but the stored one too. -/
def Obligations.UnrelatedStoresDoNotInterfere : Prop :=
  ∀ (s t : State) (i : Instr) (a : Word) (b : Byte), Memory.wf s.mem = true →
    decodeWord s.blk.latch.cmd = .ok i → s.blk.latch.storeHazard a.toNat = false →
    exec i s = .next t →
    ∃ u, exec i (s.storeByte a b) = .next u ∧ u.blk = t.blk ∧
      ∀ x, Memory.get u.mem x = (if x = a.toNat then b else Memory.get t.mem x)

/-- R98, R297: two instances in flight of which one's destination range overlaps the other's source or destination range have
draws for results. That this is taint of both, set when the second command is accepted, and that a destination range counts
only for a command that writes memory, is the model's choice (log 12); without such an overlap acceptance taints none. -/
def Obligations.OverlappingInstancesTaintEachOther : Prop :=
  ∀ (s : State) (p : Block) (l : Latch) (v : Word), s.blk.phase = .idle → s.peers = [p] → p.phase = .busy →
    l = ⟨v, s.blk.srcAddr, s.blk.srcLen, s.blk.dstAddr, s.blk.dstCap, s.blk.arg0, s.blk.arg1⟩ →
    (p.latch.writes = true ∧ (p.latch.dst.overlaps l.src = true ∨ (l.writes = true ∧ p.latch.dst.overlaps l.dst = true)) ∨
      l.writes = true ∧ l.dst.overlaps p.latch.src = true →
      (s.writeReg v .cmd).blk.taint = true ∧ (s.writeReg v .cmd).peers = [{ p with taint := true }]) ∧
    (¬(p.latch.writes = true ∧
        (p.latch.dst.overlaps l.src = true ∨ (l.writes = true ∧ p.latch.dst.overlaps l.dst = true)) ∨
      l.writes = true ∧ l.dst.overlaps p.latch.src = true) →
      (s.writeReg v .cmd).blk.taint = false ∧ (s.writeReg v .cmd).peers = [p])

/-- R20: instances are independent: the completion of one leaves the registers of every other as they were, and is that
instance's own command run with it in focus. -/
def Obligations.InstancesStepIndependently : Prop :=
  ∀ (s : State) (k : Nat) (ts : List Turn) (p : Block) (i : Instr), s.schedule = .block (k + 1) :: ts →
    s.peers[k]? = some p → p.phase = .busy → decodeWord p.latch.cmd = .ok i →
    ∃ t u, step s = .next t ∧ exec i { s with schedule := ts, blk := p, peers := s.peers.set k s.blk } = .next u ∧
      t.blk = s.blk ∧ t.peers = s.peers.set k u.blk ∧ t.mem = u.mem

/-! ### The invariant -/

/-- The invariant at reset, in every configuration (R37, R58). -/
def Obligations.ResetMeetsTheInvariant : Prop := (∀ c : Cfg, (State.resetWith c).Inv) ∧ State.reset.Inv

/-- R37: only the listed values of STATUS can be read, BUSY is 1 exactly while the phase is BUSY, the results read 0 while
BUSY, and memory keeps its canonical form: every step of every agent keeps this, from every state. -/
def Obligations.EveryStepKeepsTheInvariant : Prop := ∀ s t : State, s.Inv → step s = .next t → t.Inv

/-- No step ends in a fault or a refusal where the host program has ended and the schedule names only instances there are:
no instruction stops the machine (R260, R267). That a command the spec leaves without a step (R53, R91) answers the same
state is the model's choice (log 9). -/
def Obligations.NoCommandStopsTheMachine : Prop :=
  (∀ (i : Instr) (s : State), ∃ t, exec i s = .next t) ∧
    ∀ (k : Nat) (s : State), s.hostOps = [] →
      (∀ u ∈ s.schedule, u = .host ∨ ∃ j, (u = .block j ∨ u = .reset j) ∧ j < s.blocks.length) → SafeRun k s
end

