-- ==== Sys2Proof/Laws/Memory.lean ====
section
/-! SUPPORT. Laws of system memory: every operation keeps the canonical form, and a read after a write. -/

namespace Sys2Proof.Machine.Memory

theorem wf_iff (m : Memory) :
    wf m = true ↔ m.Pairwise (fun p q => p.1 < q.1) ∧ ∀ p ∈ m, p.2 ≠ unlisted ∧ p.1 < 2 ^ 32 := by
  simp [wf]

theorem wf_nil : wf [] = true := by decide

theorem mem_insert {m : Memory} {a : Nat} {b : Byte} {p : Host.Cell} (h : p ∈ insert m a b) :
    p ∈ m ∨ (p = (a, b) ∧ b ≠ unlisted) := by
  induction m with
  | nil =>
    unfold insert at h
    split at h
    · simp at h
    · simp at h; exact .inr ⟨h, by assumption⟩
  | cons q m ih =>
    unfold insert at h
    split at h
    · split at h
      · exact .inl h
      · rcases List.mem_cons.mp h with h | h
        · exact .inr ⟨h, by assumption⟩
        · exact .inl h
    · split at h
      · split at h
        · exact .inl (List.mem_cons_of_mem _ h)
        · rcases List.mem_cons.mp h with h | h
          · exact .inr ⟨h, by assumption⟩
          · exact .inl (List.mem_cons_of_mem _ h)
      · rcases List.mem_cons.mp h with h | h
        · exact .inl (by simp [h])
        · rcases ih h with h | h
          · exact .inl (List.mem_cons_of_mem _ h)
          · exact .inr h

theorem insert_sorted {m : Memory} (hm : m.Pairwise (fun p q => p.1 < q.1)) (a : Nat) (b : Byte) :
    (insert m a b).Pairwise (fun p q => p.1 < q.1) := by
  induction m with
  | nil => unfold insert; split <;> simp
  | cons q m ih =>
    have hq := List.pairwise_cons.mp hm
    unfold insert
    split
    · split
      · exact hm
      · refine List.pairwise_cons.mpr ⟨fun p hp => ?_, hm⟩
        rcases List.mem_cons.mp hp with rfl | hp
        · assumption
        · exact Nat.lt_trans (by assumption) (hq.1 p hp)
    · split
      · split
        · exact hq.2
        · subst a
          exact List.pairwise_cons.mpr ⟨hq.1, hq.2⟩
      · refine List.pairwise_cons.mpr ⟨fun p hp => ?_, ih hq.2⟩
        rcases mem_insert hp with hp | ⟨rfl, _⟩
        · exact hq.1 p hp
        · simp only; omega

theorem wf_set {m : Memory} (h : wf m = true) (a : Nat) (b : Byte) : wf (set m a b) = true := by
  unfold set
  split
  · rw [wf_iff] at h ⊢
    refine ⟨insert_sorted h.1 a b, fun p hp => ?_⟩
    rcases mem_insert hp with hp | ⟨rfl, hb⟩
    · exact h.2 p hp
    · exact ⟨hb, by assumption⟩
  · exact h

theorem wf_write {m : Memory} (h : wf m = true) (a : Nat) (bs : Bytes) : wf (write m a bs) = true := by
  induction bs generalizing m a with
  | nil => exact h
  | cons b bs ih => exact ih (wf_set h a b) (a + 1)

theorem get_of_lt {m : Memory} {a : Nat} (h : ∀ p ∈ m, a < p.1) : get m a = unlisted := by
  induction m with
  | nil => rfl
  | cons q m ih =>
    have hq := h q (by simp)
    unfold get
    rw [if_neg (by omega)]
    exact ih (fun p hp => h p (List.mem_cons_of_mem _ hp))

theorem get_insert {m : Memory} (hm : m.Pairwise (fun p q => p.1 < q.1)) (a : Nat) (b : Byte) (x : Nat) :
    get (insert m a b) x = if x = a then b else get m x := by
  induction m with
  | nil =>
    unfold insert
    by_cases hb : b = unlisted <;> by_cases hx : x = a <;> simp [hb, hx, get]
    intro h; exact absurd h.symm hx
  | cons q m ih =>
    have hq := List.pairwise_cons.mp hm
    unfold insert
    by_cases h1 : a < q.1
    · rw [if_pos h1]
      by_cases hb : b = unlisted
      · rw [if_pos hb]
        by_cases hx : x = a
        · rw [if_pos hx, hx, hb]
          refine get_of_lt (fun p hp => ?_)
          rcases List.mem_cons.mp hp with rfl | hp
          · exact h1
          · exact Nat.lt_trans h1 (hq.1 p hp)
        · rw [if_neg hx]
      · rw [if_neg hb]
        by_cases hx : x = a
        · subst hx; simp [get]
        · have : ¬a = x := fun h => hx h.symm
          simp [get, hx, this]
    · rw [if_neg h1]
      by_cases h2 : a = q.1
      · rw [if_pos h2]
        by_cases hb : b = unlisted
        · rw [if_pos hb]
          by_cases hx : x = a
          · rw [if_pos hx, hb]
            exact get_of_lt (fun p hp => by rw [hx, h2]; exact hq.1 p hp)
          · rw [if_neg hx]; conv_rhs => unfold get
            rw [if_neg (by omega)]
        · rw [if_neg hb]
          by_cases hx : x = a
          · subst hx; simp [get]
          · have hne : ¬a = x := fun h => hx h.symm
            have : ¬q.1 = x := by omega
            simp [get, hx, hne, this]
      · rw [if_neg h2]
        unfold get
        by_cases hx : q.1 = x
        · have : ¬x = a := by omega
          simp [hx, this]
        · rw [if_neg hx, if_neg hx]; exact ih hq.2

/-- A read after a write of one byte. -/
theorem get_set {m : Memory} (h : wf m = true) {a : Nat} (ha : a < 2 ^ 32) (b : Byte) (x : Nat) :
    get (set m a b) x = if x = a then b else get m x := by
  unfold set
  rw [if_pos ha]
  exact get_insert ((wf_iff m).mp h).1 a b x

/-- A write of one byte leaves every other address alone. -/
theorem get_set_ne {m : Memory} (h : wf m = true) {a x : Nat} (hx : x ≠ a) (b : Byte) :
    get (set m a b) x = get m x := by
  by_cases ha : a < 2 ^ 32
  · rw [get_set h ha, if_neg hx]
  · unfold set; rw [if_neg ha]

/-- A write of a byte sequence leaves every address outside its range alone. -/
theorem get_write_outside {m : Memory} (h : wf m = true) (a : Nat) (bs : Bytes) {x : Nat}
    (hx : x < a ∨ a + bs.length ≤ x) : get (write m a bs) x = get m x := by
  induction bs generalizing m a with
  | nil => rfl
  | cons b bs ih =>
    simp only [List.length_cons] at hx
    unfold write
    rw [ih (wf_set h a b) (a + 1) (by omega)]
    exact get_set_ne h (by omega) b

/-- A read after a write of a byte sequence inside the address space. -/
theorem get_write_inside {m : Memory} (h : wf m = true) (a : Nat) (bs : Bytes) (ha : a + bs.length ≤ 2 ^ 32) {i : Nat}
    (hi : i < bs.length) : get (write m a bs) (a + i) = bs[i] := by
  induction bs generalizing m a i with
  | nil => simp at hi
  | cons b bs ih =>
    simp only [List.length_cons] at hi ha
    unfold write
    cases i with
    | zero =>
      rw [Nat.add_zero, get_write_outside (wf_set h a b) (a + 1) bs (by omega), get_set h (by omega)]
      simp
    | succ i =>
      have := ih (wf_set h a b) (a + 1) (by omega) (i := i) (by omega)
      rw [show a + (i + 1) = a + 1 + i by omega, this]
      simp

theorem read_length (m : Memory) (a n : Nat) : (read m a n).length = n := by simp [read]

theorem read_getElem (m : Memory) (a n i : Nat) (h : i < (read m a n).length) : (read m a n)[i] = get m (a + i) := by
  simp [read]

/-- Reading back what a write stored inside the address space. -/
theorem read_write {m : Memory} (h : wf m = true) (a : Nat) (bs : Bytes) (ha : a + bs.length ≤ 2 ^ 32) :
    read (write m a bs) a bs.length = bs := by
  apply List.ext_getElem (read_length _ _ _)
  intro i h1 h2
  rw [read_getElem, get_write_inside h a bs ha h2]

/-- A read depends on the bytes of its range only. -/
theorem read_congr {m k : Memory} {a n : Nat} (h : ∀ i, i < n → get m (a + i) = get k (a + i)) :
    read m a n = read k a n := by
  apply List.ext_getElem (by simp [read_length])
  intro i h1 h2
  rw [read_getElem, read_getElem]
  exact h i (by rw [read_length] at h1; exact h1)

end Sys2Proof.Machine.Memory
end

