-- ==== Sys2Proof/Laws/State.lean ====
section
/-! SUPPORT. One lemma per field per update of the state, true by rfl, so that no proof unfolds a record update. -/

namespace Sys2Proof.Machine

section Raise

variable (s : State) (e : ErrCode)

@[simp] theorem State.raise_peers : (s.raise e).peers = s.peers := rfl

@[simp] theorem State.raise_mem : (s.raise e).mem = s.mem := rfl

@[simp] theorem State.raise_draws : (s.raise e).draws = s.draws := rfl

@[simp] theorem State.raise_hostOps : (s.raise e).hostOps = s.hostOps := rfl

@[simp] theorem State.raise_schedule : (s.raise e).schedule = s.schedule := rfl

@[simp] theorem State.raise_seen : (s.raise e).seen = s.seen := rfl

@[simp] theorem State.raise_blk_cfg : (s.raise e).blk.cfg = s.blk.cfg := rfl

@[simp] theorem State.raise_blk_phase : (s.raise e).blk.phase = .idle := rfl

@[simp] theorem State.raise_blk_status : (s.raise e).blk.status = Status.failed e := rfl

@[simp] theorem State.raise_blk_srcAddr : (s.raise e).blk.srcAddr = s.blk.srcAddr := rfl

@[simp] theorem State.raise_blk_srcLen : (s.raise e).blk.srcLen = s.blk.srcLen := rfl

@[simp] theorem State.raise_blk_dstAddr : (s.raise e).blk.dstAddr = s.blk.dstAddr := rfl

@[simp] theorem State.raise_blk_dstCap : (s.raise e).blk.dstCap = s.blk.dstCap := rfl

@[simp] theorem State.raise_blk_arg0 : (s.raise e).blk.arg0 = s.blk.arg0 := rfl

@[simp] theorem State.raise_blk_arg1 : (s.raise e).blk.arg1 = s.blk.arg1 := rfl

@[simp] theorem State.raise_blk_resultLen : (s.raise e).blk.resultLen = 0 := rfl

@[simp] theorem State.raise_blk_result : (s.raise e).blk.result = 0 := rfl

@[simp] theorem State.raise_blk_latch : (s.raise e).blk.latch = s.blk.latch := rfl

@[simp] theorem State.raise_blk_taint : (s.raise e).blk.taint = s.blk.taint := rfl

end Raise

section Complete

variable (s : State) (w : Bool) (out : Bytes) (val : Word)

@[simp] theorem State.complete_peers : (s.complete w out val).peers = s.peers := rfl

@[simp] theorem State.complete_mem : (s.complete w out val).mem = if w then Memory.write s.mem s.blk.latch.dstAddr.toNat out else s.mem := rfl

@[simp] theorem State.complete_draws : (s.complete w out val).draws = s.draws := rfl

@[simp] theorem State.complete_hostOps : (s.complete w out val).hostOps = s.hostOps := rfl

@[simp] theorem State.complete_schedule : (s.complete w out val).schedule = s.schedule := rfl

@[simp] theorem State.complete_seen : (s.complete w out val).seen = s.seen := rfl

@[simp] theorem State.complete_blk_cfg : (s.complete w out val).blk.cfg = s.blk.cfg := rfl

@[simp] theorem State.complete_blk_phase : (s.complete w out val).blk.phase = .idle := rfl

@[simp] theorem State.complete_blk_status : (s.complete w out val).blk.status = Status.success := rfl

@[simp] theorem State.complete_blk_srcAddr : (s.complete w out val).blk.srcAddr = s.blk.srcAddr := rfl

@[simp] theorem State.complete_blk_srcLen : (s.complete w out val).blk.srcLen = s.blk.srcLen := rfl

@[simp] theorem State.complete_blk_dstAddr : (s.complete w out val).blk.dstAddr = s.blk.dstAddr := rfl

@[simp] theorem State.complete_blk_dstCap : (s.complete w out val).blk.dstCap = s.blk.dstCap := rfl

@[simp] theorem State.complete_blk_arg0 : (s.complete w out val).blk.arg0 = s.blk.arg0 := rfl

@[simp] theorem State.complete_blk_arg1 : (s.complete w out val).blk.arg1 = s.blk.arg1 := rfl

@[simp] theorem State.complete_blk_resultLen : (s.complete w out val).blk.resultLen = BitVec.ofNat 32 out.length := rfl

@[simp] theorem State.complete_blk_result : (s.complete w out val).blk.result = val := rfl

@[simp] theorem State.complete_blk_latch : (s.complete w out val).blk.latch = s.blk.latch := rfl

@[simp] theorem State.complete_blk_taint : (s.complete w out val).blk.taint = s.blk.taint := rfl

end Complete

section Draw

variable (s : State) (r : Range)

@[simp] theorem State.drawRange_blk : (s.drawRange r).blk = s.blk := rfl

@[simp] theorem State.drawRange_peers : (s.drawRange r).peers = s.peers := rfl

@[simp] theorem State.drawRange_draws : (s.drawRange r).draws = s.draws + r.size := rfl

@[simp] theorem State.drawRange_hostOps : (s.drawRange r).hostOps = s.hostOps := rfl

@[simp] theorem State.drawRange_schedule : (s.drawRange r).schedule = s.schedule := rfl

@[simp] theorem State.drawRange_seen : (s.drawRange r).seen = s.seen := rfl

@[simp] theorem State.drawRange_mem : (s.drawRange r).mem = 
    Memory.write s.mem r.base ((List.range r.size).map (fun i => Config.freeByte (s.draws + i))) := rfl

end Draw

section Tainted

variable (s : State) (w : Bool)

@[simp] theorem State.settleTainted_peers : (s.settleTainted w).peers = s.peers := by
  cases w <;> rfl

@[simp] theorem State.settleTainted_mem : (s.settleTainted w).mem = if w then (s.drawRange s.blk.latch.dst).mem else s.mem := by
  cases w <;> rfl

@[simp] theorem State.settleTainted_draws : (s.settleTainted w).draws = (if w then s.draws + s.blk.latch.dst.size else s.draws) + 2 := by
  cases w <;> rfl

@[simp] theorem State.settleTainted_hostOps : (s.settleTainted w).hostOps = s.hostOps := by
  cases w <;> rfl

@[simp] theorem State.settleTainted_schedule : (s.settleTainted w).schedule = s.schedule := by
  cases w <;> rfl

@[simp] theorem State.settleTainted_seen : (s.settleTainted w).seen = s.seen := by
  cases w <;> rfl

@[simp] theorem State.settleTainted_blk_cfg : (s.settleTainted w).blk.cfg = s.blk.cfg := by
  cases w <;> rfl

@[simp] theorem State.settleTainted_blk_phase : (s.settleTainted w).blk.phase = .idle := by
  cases w <;> rfl

@[simp] theorem State.settleTainted_blk_srcAddr : (s.settleTainted w).blk.srcAddr = s.blk.srcAddr := by
  cases w <;> rfl

@[simp] theorem State.settleTainted_blk_srcLen : (s.settleTainted w).blk.srcLen = s.blk.srcLen := by
  cases w <;> rfl

@[simp] theorem State.settleTainted_blk_dstAddr : (s.settleTainted w).blk.dstAddr = s.blk.dstAddr := by
  cases w <;> rfl

@[simp] theorem State.settleTainted_blk_dstCap : (s.settleTainted w).blk.dstCap = s.blk.dstCap := by
  cases w <;> rfl

@[simp] theorem State.settleTainted_blk_arg0 : (s.settleTainted w).blk.arg0 = s.blk.arg0 := by
  cases w <;> rfl

@[simp] theorem State.settleTainted_blk_arg1 : (s.settleTainted w).blk.arg1 = s.blk.arg1 := by
  cases w <;> rfl

@[simp] theorem State.settleTainted_blk_latch : (s.settleTainted w).blk.latch = s.blk.latch := by
  cases w <;> rfl

@[simp] theorem State.settleTainted_blk_taint : (s.settleTainted w).blk.taint = s.blk.taint := by
  cases w <;> rfl

@[simp] theorem State.settleTainted_blk_status : (s.settleTainted w).blk.status = 
    Status.ofOutcome (Config.freeOutcome ((s.settleTainted w).draws - 2)) := by
  cases w <;> rfl

end Tainted

section Store

variable (b : Block) (v : Word) (r : Reg)

@[simp] theorem Block.storeReg_cfg : (b.storeReg v r).cfg = b.cfg := by
  cases r <;> rfl

@[simp] theorem Block.storeReg_phase : (b.storeReg v r).phase = b.phase := by
  cases r <;> rfl

@[simp] theorem Block.storeReg_status : (b.storeReg v r).status = b.status := by
  cases r <;> rfl

@[simp] theorem Block.storeReg_resultLen : (b.storeReg v r).resultLen = b.resultLen := by
  cases r <;> rfl

@[simp] theorem Block.storeReg_result : (b.storeReg v r).result = b.result := by
  cases r <;> rfl

@[simp] theorem Block.storeReg_latch : (b.storeReg v r).latch = b.latch := by
  cases r <;> rfl

@[simp] theorem Block.storeReg_taint : (b.storeReg v r).taint = b.taint := by
  cases r <;> rfl

end Store

section Reset

variable (c : Cfg)

@[simp] theorem Block.atReset_cfg : (Block.atReset c).cfg = c := rfl

@[simp] theorem Block.atReset_phase : (Block.atReset c).phase = .idle := rfl

@[simp] theorem Block.atReset_status : (Block.atReset c).status = 0 := rfl

@[simp] theorem Block.atReset_srcAddr : (Block.atReset c).srcAddr = 0 := rfl

@[simp] theorem Block.atReset_srcLen : (Block.atReset c).srcLen = 0 := rfl

@[simp] theorem Block.atReset_dstAddr : (Block.atReset c).dstAddr = 0 := rfl

@[simp] theorem Block.atReset_dstCap : (Block.atReset c).dstCap = 0 := rfl

@[simp] theorem Block.atReset_arg0 : (Block.atReset c).arg0 = 0 := rfl

@[simp] theorem Block.atReset_arg1 : (Block.atReset c).arg1 = 0 := rfl

@[simp] theorem Block.atReset_resultLen : (Block.atReset c).resultLen = 0 := rfl

@[simp] theorem Block.atReset_result : (Block.atReset c).result = 0 := rfl

@[simp] theorem Block.atReset_latch : (Block.atReset c).latch = Latch.zero := rfl

@[simp] theorem Block.atReset_taint : (Block.atReset c).taint = false := rfl

end Reset

end Sys2Proof.Machine
end

