-- ==== Sys2Proof/Laws/Ops.lean ====
section
/-! SUPPORT. What each shared operation can do, said once. -/

namespace Sys2Proof.Machine

theorem Range.wellFormed_iff (r : Range) : r.wellFormed = true ↔ r.base + r.size ≤ 2 ^ 32 := decide_eq_true_iff

theorem Range.has_iff (r : Range) (a : Nat) : r.has a = true ↔ r.base ≤ a ∧ a < r.base + r.size := decide_eq_true_iff

theorem Range.overlaps_iff (r q : Range) :
    r.overlaps q = true ↔ 0 < r.size ∧ 0 < q.size ∧ r.base < q.base + q.size ∧ q.base < r.base + r.size :=
  decide_eq_true_iff

theorem Latch.src_wellFormed (l : Latch) : l.src.wellFormed = true ↔ SrcOk l := Range.wellFormed_iff _

theorem Latch.dst_wellFormed (l : Latch) : l.dst.wellFormed = true ↔ DstOk l := Range.wellFormed_iff _

theorem Latch.src_overlaps_dst (l : Latch) : l.src.overlaps l.dst = true ↔ SrcDstOverlap l := Range.overlaps_iff _ _

/-- Every command always answers a next state: the completion of its work. -/
theorem exec_eq_finish (i : Instr) (s : State) :
    exec i s = .next (s.finish (writesMemory i) (commandWork i s)) := by
  cases i <;> rfl

/-- Admission of ranges, address by address (R53). -/
theorem admittedAll_iff (b : Block) (rs : List Range) :
    admittedAll b rs = true ↔ ∀ r ∈ rs, Admits b r.base r.size := by
  simp only [admittedAll, Range.addrs, List.all_eq_true, List.mem_map, List.mem_range, Admits]
  constructor
  · intro h r hr a h1 h2
    exact h r hr a ⟨a - r.base, by omega, by omega⟩
  · rintro h r hr a ⟨i, hi, rfl⟩
    exact h r hr _ (by omega) (by omega)

theorem admittedAll_nil (b : Block) : admittedAll b [] = true := rfl

/-- Everything the completion step can do (R52, R53, R297). -/
theorem finish_cases (s : State) (w : Bool) (k : Work) :
    (admittedAll s.blk (k.accessed w s.blk.latch) = false ∧ s.finish w k = s) ∨
    (admittedAll s.blk (k.accessed w s.blk.latch) = true ∧
      ((s.blk.taint = true ∧ s.finish w k = s.settleTainted w) ∨
       (s.blk.taint = false ∧
        ((∃ out val, k.result = .ok out val ∧ s.finish w k = s.complete w out val) ∨
         (∃ e, k.result = .err e ∧ s.finish w k = s.raise e))))) := by
  unfold State.finish
  cases h : admittedAll s.blk (k.accessed w s.blk.latch) with
  | false => simp
  | true =>
    cases ht : s.blk.taint with
    | true => simp
    | false =>
      cases hr : k.result with
      | ok out val => simp [State.settle]
      | err e => simp [State.settle]

/-- An error completion with nothing accessed and no taint. -/
theorem finish_fail_nil {s : State} (ht : s.blk.taint = false) (w : Bool) (e : ErrCode) :
    s.finish w (Work.fail [] e) = s.raise e := by
  simp [State.finish, Work.fail, Work.accessed, admittedAll, State.settle, ht]

/-- An untainted error completion whose reads are admitted. -/
theorem finish_fail {s : State} (ht : s.blk.taint = false) (w : Bool) {rs : List Range} (e : ErrCode)
    (ha : admittedAll s.blk rs = true) : s.finish w (Work.fail rs e) = s.raise e := by
  simp [State.finish, Work.fail, Work.accessed, State.settle, ht, ha]

/-- An untainted success whose accessed set is admitted. -/
theorem finish_done {s : State} (ht : s.blk.taint = false) (w : Bool) {rs : List Range} (out : Bytes) (val : Word)
    (ha : admittedAll s.blk ((Work.done rs out val).accessed w s.blk.latch) = true) :
    s.finish w (Work.done rs out val) = s.complete w out val := by
  unfold State.finish
  rw [if_pos ha]
  simp [ht, State.settle, Work.done]

/-- The prologue passes a checksum command whose source range does not wrap. -/
theorem prologue_false_none {l : Latch} (h : SrcOk l) : prologue false l = none := by
  simp [prologue, l.src_wellFormed.mpr h]

/-- The prologue passes a writing command whose ranges are well formed and apart. -/
theorem prologue_true_none {l : Latch} (h : RangesOk l) : prologue true l = none := by
  have h3 : l.src.overlaps l.dst = false := by
    simpa using fun h' => h.2.2 (l.src_overlaps_dst.mp h')
  simp [prologue, l.src_wellFormed.mpr h.1, l.dst_wellFormed.mpr h.2.1, h3]

theorem prologue_src {w : Bool} {l : Latch} (h : ¬SrcOk l) : prologue w l = some .addrRange := by
  have h1 : l.src.wellFormed = false := by simpa using fun h' => h (l.src_wellFormed.mp h')
  simp [prologue, h1]

theorem prologue_dst {l : Latch} (hs : SrcOk l) (h : ¬DstOk l) : prologue true l = some .addrRange := by
  have h1 : l.dst.wellFormed = false := by simpa using fun h' => h (l.dst_wellFormed.mp h')
  simp [prologue, l.src_wellFormed.mpr hs, h1]

theorem prologue_overlap {l : Latch} (hs : SrcOk l) (hd : DstOk l) (h : SrcDstOverlap l) :
    prologue true l = some .overlap := by
  simp [prologue, l.src_wellFormed.mpr hs, l.dst_wellFormed.mpr hd, l.src_overlaps_dst.mpr h]

/-- The state of an error completion is `raise`. -/
theorem raise_eq_errorCompletion (s : State) (e : ErrCode) : s.raise e = errorCompletion s e.code := rfl

theorem complete_eq_writeCompletion (s : State) (out : Bytes) :
    s.complete true out 0 = writeCompletion s out := rfl

theorem complete_eq_checksumCompletion (s : State) (val : Word) :
    s.complete false [] val = checksumCompletion s val := rfl

/-- Draws keep the canonical form of memory. -/
theorem wf_drawRange {s : State} (h : Memory.wf s.mem = true) (r : Range) : Memory.wf (s.drawRange r).mem = true := by
  rw [State.drawRange_mem]
  exact Memory.wf_write h _ _

/-- Completion keeps the canonical form of memory. -/
theorem wf_finish {s : State} (h : Memory.wf s.mem = true) (w : Bool) (k : Work) :
    Memory.wf (s.finish w k).mem = true := by
  rcases finish_cases s w k with ⟨_, hf⟩ | ⟨_, ⟨_, hf⟩ | ⟨_, ⟨out, val, _, hf⟩ | ⟨e, _, hf⟩⟩⟩ <;> rw [hf]
  · exact h
  · rw [State.settleTainted_mem]
    split
    · exact wf_drawRange h _
    · exact h
  · rw [State.complete_mem]
    split
    · exact Memory.wf_write h _ _
    · exact h
  · exact h

end Sys2Proof.Machine
end

