-- ==== Sys2Proof/Laws/PerInstr.lean ====
section
/-! SUPPORT. Statements made instruction by instruction, about the instruction as syntax. -/

namespace Sys2Proof.Laws.CommandWord

/-- The command word of an instruction has its opcode 1..7 in `OP` and zeros in `RSVD` (30_encoding.md R110, R111). -/
def Statement (i : Instr) : Prop :=
  opField (encodeWord i) = opcode i ∧ rsvdField (encodeWord i) = 0 ∧ 1 ≤ opcode i ∧ opcode i ≤ 7

theorem encode : Statement .encode := by unfold Statement; decide

theorem decode : Statement .decode := by unfold Statement; decide

theorem packRow : Statement .packRow := by unfold Statement; decide

theorem unpackRow : Statement .unpackRow := by unfold Statement; decide

theorem crc32 : Statement .crc32 := by unfold Statement; decide

theorem adler32 : Statement .adler32 := by unfold Statement; decide

theorem zlib : Statement .zlib := by unfold Statement; decide

end Sys2Proof.Laws.CommandWord
end

