-- ==== Sys2Proof/Laws/Turns.lean ====
section
/-! SUPPORT. What a block's turn and the default turn can do, said once. -/

namespace Sys2Proof.Machine

namespace State

/-- A completion ends the command exactly where its accessed set is admitted (R52, R53). -/
theorem finish_phase (s : State) (w : Bool) (k : Work) :
    (s.finish w k).blk.phase =
      if admittedAll s.blk (k.accessed w s.blk.latch) = true then Phase.idle else s.blk.phase := by
  rcases finish_cases s w k with ⟨ha, hf⟩ | ⟨ha, ⟨_, hf⟩ | ⟨_, ⟨_, _, _, hf⟩ | ⟨_, _, hf⟩⟩⟩ <;> simp [ha, hf]

/-- A completion leaves the other instances alone. -/
theorem finish_peers (s : State) (w : Bool) (k : Work) : (s.finish w k).peers = s.peers := by
  rcases finish_cases s w k with ⟨_, hf⟩ | ⟨_, ⟨_, hf⟩ | ⟨_, ⟨_, _, _, hf⟩ | ⟨_, _, hf⟩⟩⟩ <;> simp [hf]

/-- The turn of a BUSY block is the completion step of some work, enabled exactly where `CompletionAdmitted` says. -/
theorem blockTurn_of_busy {s : State} (h : s.blk.phase = .busy) :
    ∃ w k, s.blockTurn = .next (s.finish w k) ∧
      (admittedAll s.blk (k.accessed w s.blk.latch) = true ↔ CompletionAdmitted s) := by
  unfold blockTurn
  rw [h]
  cases hd : decodeWord s.blk.latch.cmd with
  | error e =>
    refine ⟨false, Work.fail [] .illegalCmd, rfl, iff_of_true rfl ?_⟩
    intro i hi
    rw [hd] at hi
    cases hi
  | ok i =>
    refine ⟨_, _, exec_eq_finish i s, (admittedAll_iff _ _).trans ⟨fun ha j hj => ?_, fun ha => ha i hd⟩⟩
    rw [hd] at hj
    cases hj
    exact ha

/-- The completion of the instance in focus is enabled exactly where it is BUSY and admitted (R52, R53). -/
theorem completionEnabled_zero (s : State) :
    s.completionEnabled 0 = true ↔ s.blk.phase = .busy ∧ CompletionAdmitted s := by
  cases h : s.blk.phase with
  | idle => simp [completionEnabled, busyAt, blocks, Block.busy, h]
  | busy =>
    obtain ⟨w, k, hn, ha⟩ := blockTurn_of_busy h
    rw [← ha]
    have hp := finish_phase s w k
    cases hb : admittedAll s.blk (k.accessed w s.blk.latch) <;>
      simp [completionEnabled, onInstance, hn, busyAt, blocks, Block.busy, h, hp, hb]

/-- Bring instance `j + 1` into focus: it is `p` that is in focus, and the old focus stands in its place. -/
theorem swapFocus_eq {s : State} {j : Nat} {p : Block} (hj : s.peers[j]? = some p) :
    s.swapFocus j = some { s with blk := p, peers := s.peers.set j s.blk } := by
  unfold swapFocus
  rw [hj]

/-- An operation on another instance that leaves its own peers alone: that instance takes what the operation made of it, and
the focus is as it was. -/
theorem onInstance_succ {s u : State} {j : Nat} {p : Block} {f : State → Host.Outcome State Fault Refusal}
    (hj : s.peers[j]? = some p) (hf : f { s with blk := p, peers := s.peers.set j s.blk } = .next u)
    (hu : u.peers = s.peers.set j s.blk) :
    s.onInstance (j + 1) f = .next { u with blk := s.blk, peers := s.peers.set j u.blk } := by
  have hlt : j < s.peers.length := (List.getElem?_eq_some_iff.mp hj).1
  have hback : u.peers[j]? = some s.blk := by rw [hu]; exact List.getElem?_set_self hlt
  unfold onInstance
  simp only [swapFocus_eq hj, hf, swapFocus_eq hback]
  rw [hu, List.set_set]

/-- The completion of another instance is enabled exactly where it is BUSY and admitted. -/
theorem completionEnabled_succ {s : State} {j : Nat} {p : Block} (hj : s.peers[j]? = some p) :
    s.completionEnabled (j + 1) = true ↔ p.phase = .busy ∧ CompletionAdmitted { s with blk := p } := by
  have hlt : j < s.peers.length := (List.getElem?_eq_some_iff.mp hj).1
  cases h : p.phase with
  | idle => simp only [completionEnabled, busyAt, blocks, Block.busy, List.getElem?_cons_succ, hj, Option.any_some, h]; simp
  | busy =>
    obtain ⟨w, k, hn, ha⟩ := blockTurn_of_busy (s := { s with blk := p, peers := s.peers.set j s.blk }) h
    have hp := finish_phase { s with blk := p, peers := s.peers.set j s.blk } w k
    have ho := onInstance_succ hj hn (finish_peers _ w k)
    have hc : CompletionAdmitted { s with blk := p, peers := s.peers.set j s.blk } ↔
        CompletionAdmitted { s with blk := p } := Iff.rfl
    rw [← hc, ← ha, completionEnabled, ho]
    simp only [busyAt, blocks, Block.busy, List.getElem?_cons_succ, hj, List.getElem?_set_self hlt, Option.any_some, hp, h]
    cases admittedAll p (k.accessed w p.latch) <;> simp

/-- What the default turn can be: the completion of the first instance that has one enabled, or the host's turn where none
has. -/
theorem defaultTurn_cases (s : State) :
    (∃ k, s.defaultTurn = .block k ∧ s.completionEnabled k = true ∧ k < s.blocks.length ∧
      ∀ j, j < k → s.completionEnabled j = false) ∨
    (s.defaultTurn = .host ∧ ∀ j, j < s.blocks.length → s.completionEnabled j = false) := by
  unfold defaultTurn
  cases hf : (List.range s.blocks.length).find? s.completionEnabled with
  | none =>
    refine .inr ⟨rfl, fun j hj => ?_⟩
    simpa using List.find?_eq_none.mp hf j (List.mem_range.mpr hj)
  | some k =>
    rw [List.find?_range_eq_some] at hf
    exact .inl ⟨k, rfl, hf.1, List.mem_range.mp hf.2.1, fun j hj => by simpa using hf.2.2 j hj⟩

/-- With nothing in flight the default turn is the host's. -/
theorem defaultTurn_of_idle {s : State} (h : ∀ b ∈ s.blocks, b.phase = .idle) : s.defaultTurn = .host := by
  rcases defaultTurn_cases s with ⟨k, _, he, hk, _⟩ | ⟨hh, _⟩
  · have hb : s.blocks[k].phase = .idle := h _ (List.getElem_mem hk)
    simp [completionEnabled, busyAt, Block.busy, hk, hb] at he
  · exact hh

end State

end Sys2Proof.Machine
end

