-- ==== Sys2Proof/Machine/Notation.lean ====
section
/-! DEFINITION. The host program notation of 30_encoding.md R116 and R117, as lists of host accesses. -/

namespace Sys2Proof.Machine

/-- The bus address of a register of an instance of configuration `c` (R32). -/
def regAddr (c : Cfg) (r : Reg) : Word := c.rbcBase + BitVec.ofNat 32 r.offset

/-- `wr REG, v` (R116). -/
def wr (c : Cfg) (r : Reg) (v : Word) : HostOp := .wr (regAddr c r) .b32 v

/-- `rd REG -> x` (R116). -/
def rd (c : Cfg) (r : Reg) : HostOp := .rd (regAddr c r) .b32

/-- `mw a, b0 b1 ...`: byte stores at `a, a+1, ...` (R116). Past 0xFFFFFFFF no address exists (R80); there the list goes on at
address 0, DESIGN CHOICE (log 24). -/
def mw : Word → Bytes → List HostOp
  | _, [] => []
  | a, b :: bs => .st a b :: mw (a + 1) bs

/-- `mr a, n -> s`: byte loads of `n` bytes at `a` (R116), past 0xFFFFFFFF as `mw` (log 24). -/
def mr (a : Word) (n : Nat) : List HostOp := (List.range n).map (fun i => .ld (a + BitVec.ofNat 32 i))

/-- `fill a, n, pattern`: `mw` of the pattern repeated to `n` bytes (R116). An empty pattern gives no bytes to repeat; the model
stores 0x00, DESIGN CHOICE (log 25). -/
def fill (a : Word) (n : Nat) (pattern : Bytes) : List HostOp :=
  mw a ((List.range n).map (fun i => pattern.getD (i % pattern.length) 0))

/-- `poll -> x` (R117). -/
def poll (c : Cfg) : HostOp := .poll (regAddr c .status)

/-- `run MNEMONIC, sa, sl, da, dc, a0, a1` (R117). -/
def run (c : Cfg) (i : Instr) (sa sl da dc a0 a1 : Word) : List HostOp :=
  [wr c .srcAddr sa, wr c .srcLen sl, wr c .dstAddr da, wr c .dstCap dc, wr c .arg0 a0, wr c .arg1 a1,
    wr c .cmd (encodeWord i), poll c]

/-- `run_ok`: `run` followed by `assert status = 0x00000002` (R117). -/
def runOk (c : Cfg) (i : Instr) (sa sl da dc a0 a1 : Word) : List HostOp :=
  run c i sa sl da dc a0 a1 ++ [.check 0x00000002]

end Sys2Proof.Machine
end

