-- ==== Sys2Proof/Tests/Slice0.lean ====
section
/-! SUPPORT. Tests from the worked vectors of spec/95_test_vectors.md and the encodings of 30_encoding.md, the smoke test of
WellFormed, and the witnesses of the statements' hypotheses. -/

set_option Elab.async false

namespace Sys2Proof.Tests

open Sys2Proof.Machine

/-! ### Helpers -/

/-- The configuration of 95 section 2.3: 10×2, L = 70, stored deflate body. -/
def cfg10 : Cfg := { Config.reference with width := 10, height := 2, frameLen := 70, deflate := .stored }

/-- A machine with a command in flight on the given operands and memory. -/
def inFlight (c : Cfg) (l : Latch) (m : Memory) : State :=
  let r := State.resetWith c
  { r with mem := m, blk := { r.blk with phase := .busy, status := 0x00000001, latch := l } }

/-- Bytes placed in an empty memory. -/
def place (a : Nat) (bs : Bytes) : Memory := Memory.write [] a bs

/-- The next state, or the reset state where there is none. -/
def after (o : Host.Outcome State Fault Refusal) : State :=
  match o with
  | .next t => t
  | _ => State.reset

/-- STATUS, RESULT_LEN, RESULT, and `n` bytes at the destination. -/
def outcome (i : Instr) (s : State) (n : Nat) : Word × Word × Word × Bytes :=
  let t := after (exec i s)
  (t.blk.status, t.blk.resultLen, t.blk.result, Memory.read t.mem s.blk.latch.dstAddr.toNat n)

/-- Black, white, gray 127 and gray 128 pixels of 95 sections 2.3 and 2.4. -/
def px (v : Byte) : Bytes := [v, v, v, 0xFF]

/-- The top row of the raster of 95 section 2.3. -/
def topRow : Bytes :=
  px 0 ++ px 0xFF ++ px 0x7F ++ px 0x80 ++ px 0 ++ px 0 ++ px 0xFF ++ px 0xFF ++ px 0 ++ px 0x7F

/-- The raster of 95 section 2.3, top row first. -/
def raster : Bytes := topRow ++ (List.replicate 10 (px 0)).flatten

/-- The bitmap of 95 section 2.3, written out there. -/
def bitmap70 : Bytes :=
  [0x42, 0x4D, 0x46, 0x00, 0x00, 0x00, 0x00, 0x00, 0x00, 0x00, 0x3E, 0x00, 0x00, 0x00, 0x28, 0x00,
    0x00, 0x00, 0x0A, 0x00, 0x00, 0x00, 0x02, 0x00, 0x00, 0x00, 0x01, 0x00, 0x01, 0x00, 0x00, 0x00] ++
  [0x00, 0x00, 0x08, 0x00, 0x00, 0x00, 0x00, 0x00, 0x00, 0x00, 0x00, 0x00, 0x00, 0x00, 0x02, 0x00,
    0x00, 0x00, 0x02, 0x00, 0x00, 0x00, 0xFF, 0xFF, 0xFF, 0x00, 0x00, 0x00, 0x00, 0x00, 0xFF, 0xC0,
    0x00, 0x00, 0xAC, 0xC0, 0x00, 0x00]

/-- The container of 95 section 2.5 (a), written out there. -/
def container74 : Bytes :=
  [0x89, 0x50, 0x4E, 0x47, 0x0D, 0x0A, 0x1A, 0x0A, 0x00, 0x00, 0x00, 0x0D, 0x49, 0x48, 0x44, 0x52,
    0x00, 0x00, 0x00, 0x0A, 0x00, 0x00, 0x00, 0x02, 0x01, 0x00, 0x00, 0x00, 0x00, 0x49, 0x1A, 0x70] ++
  [0x7D, 0x00, 0x00, 0x00, 0x11, 0x49, 0x44, 0x41, 0x54, 0x78, 0xDA, 0x01, 0x06, 0x00, 0xF9, 0xFF,
    0x00, 0x53, 0x3F, 0x00, 0x00, 0x3F, 0x02, 0xE0, 0x00, 0xD2, 0x4E, 0x54, 0xAF, 0x15, 0x00, 0x00,
    0x00, 0x00, 0x49, 0x45, 0x4E, 0x44, 0xAE, 0x42, 0x60, 0x82]

/-- The zlib stream of 95 section 2.5 (a). -/
def zstream17 : Bytes :=
  [0x78, 0xDA, 0x01, 0x06, 0x00, 0xF9, 0xFF, 0x00, 0x53, 0x3F, 0x00, 0x00, 0x3F, 0x02, 0xE0, 0x00, 0xD2]

def iend : Bytes := [0x49, 0x45, 0x4E, 0x44]

def wikipedia : Bytes := [0x57, 0x69, 0x6B, 0x69, 0x70, 0x65, 0x64, 0x69, 0x61]

/-! ### Decoding: words written out bit by bit from R110 and R111 -/

theorem test_decode_encode_word : decodeWord 0b00000000000000000000000000000001#32 = .ok .encode := by decide

theorem test_decode_decode_word : decodeWord 0b00000000000000000000000000000010#32 = .ok .decode := by decide

theorem test_decode_packRow_word : decodeWord 0b00000000000000000000000000000011#32 = .ok .packRow := by decide

theorem test_decode_unpackRow_word : decodeWord 0b00000000000000000000000000000100#32 = .ok .unpackRow := by decide

theorem test_decode_crc32_word : decodeWord 0b00000000000000000000000000000101#32 = .ok .crc32 := by decide

theorem test_decode_adler32_word : decodeWord 0b00000000000000000000000000000110#32 = .ok .adler32 := by decide

theorem test_decode_zlib_word : decodeWord 0b00000000000000000000000000000111#32 = .ok .zlib := by decide

/-- 95 section 2.8: 0, 8, 0xF, 0x11 and 0xFFFFFFF1 are illegal; R113 names why. -/
theorem test_decode_illegal_words :
    decodeWord 0x00000000 = .error .reservedOpcode ∧ decodeWord 0x00000008 = .error .reservedOpcode ∧
      decodeWord 0x0000000F = .error .reservedOpcode ∧ decodeWord 0x00000011 = .error .reservedField ∧
        decodeWord 0xFFFFFFF1 = .error .reservedField := by decide

/-! ### WellFormed: an ill-formed term for each check of R10 and R9 -/

theorem test_wf_reference : Config.reference.wf = true := by decide

theorem test_wf_width : ({ cfg10 with width := 0 } : Cfg).wf = false := by decide

theorem test_wf_height : ({ cfg10 with height := 2 ^ 31 } : Cfg).wf = false := by decide

theorem test_wf_frameLen : ({ cfg10 with frameLen := 61 } : Cfg).wf = false := by decide

theorem test_wf_zlibHdr_sum : ({ cfg10 with zlibFlg := 0xDB } : Cfg).wf = false := by decide

theorem test_wf_zlibHdr_method : ({ cfg10 with zlibCmf := 0x79, zlibFlg := 0x18 } : Cfg).wf = false := by decide

theorem test_wf_zlibHdr_window : ({ cfg10 with zlibCmf := 0x88, zlibFlg := 0x1C } : Cfg).wf = false := by decide

theorem test_wf_zlibHdr_dictionary : ({ cfg10 with zlibFlg := 0xBB } : Cfg).wf = false := by decide

theorem test_wf_rbcBase : ({ cfg10 with rbcBase := 0x40000020 } : Cfg).wf = false := by decide

theorem test_wf_instr : Instr.zlib.wf = true := by decide

/-! ### Memory -/

theorem test_reset_memory_wf : Memory.wf State.reset.mem = true := by decide

theorem test_memory_write_zero_removes : Memory.set (Memory.set [] 5 7) 5 0 = [] := by decide

/-! ### Instructions: the vectors of 95 sections 2.1 to 2.8 -/

def encodeLatch : Latch := ⟨1, 0x1000, 80, 0x2000, 0x100, 10, 2⟩

def encodeState (c : Cfg) : State := inFlight c encodeLatch (place 0x1000 raster)

theorem test_encode_10x2 : outcome .encode (encodeState cfg10) 72 = (0x2, 70, 0, bitmap70 ++ [0, 0]) := by
  decide +kernel

theorem test_encode_size_contract :
    outcome .encode (encodeState { cfg10 with frameLen := 69 }) 4 = (0x206, 0, 0, [0, 0, 0, 0]) := by decide +kernel

def decodeState (cap : Word) (buf : Bytes) : State :=
  inFlight cfg10 ⟨2, 0x2000, BitVec.ofNat 32 buf.length, 0x3000, cap, 0, 0⟩ (place 0x2000 buf)

theorem test_decode_container : outcome .decode (decodeState 74 bitmap70) 75 = (0x2, 74, 0, container74 ++ [0]) := by
  decide +kernel

theorem test_decode_header_size_before_palette :
    (outcome .decode (decodeState 256 (put (bitmap70.take 60) 14 [0x7C])) 0).1 = 0x306 ∧
      (outcome .decode (decodeState 256 (bitmap70.take 69)) 0).1 = 0x406 := by decide +kernel

def packState (n : Word) (cap : Word) (row : Bytes) : State :=
  inFlight cfg10 ⟨3, 0x1000, BitVec.ofNat 32 row.length, 0x2800, cap, n, 0⟩ (place 0x1000 row)

theorem test_packRow_top_row : outcome .packRow (packState 10 4 topRow) 4 = (0x2, 4, 0, [0xAC, 0xC0, 0, 0]) := by
  decide +kernel

/-- By hand from R84, R160: (255,90,0) sums to 12960, not dark; (0,90,255) to 8115, dark. With R and B exchanged the bits
would be exchanged. -/
theorem test_packRow_channel_order :
    outcome .packRow (packState 2 4 [0xFF, 0x5A, 0x00, 0xFF, 0x00, 0x5A, 0xFF, 0xFF]) 4 = (0x2, 4, 0, [0x40, 0, 0, 0]) := by
  decide +kernel

theorem test_packRow_errors :
    (outcome .packRow (packState 0 4 []) 0).1 = 0x106 ∧ (outcome .packRow (packState 1 3 (px 0)) 0).1 = 0x606 := by
  decide +kernel

def unpackState (n cap a1 : Word) (row : Bytes) : State :=
  inFlight cfg10 ⟨4, 0x1000, BitVec.ofNat 32 row.length, 0x2800, cap, n, a1⟩ (place 0x1000 row)

theorem test_unpackRow_inverts :
    outcome .unpackRow (unpackState 10 3 3 [0xAC, 0xC0]) 3 = (0x2, 3, 0, [0x00, 0x53, 0x3F]) := by decide +kernel

theorem test_unpackRow_errors :
    (outcome .unpackRow (unpackState 0 4 0 []) 0).1 = 0x306 ∧
      (outcome .unpackRow (unpackState 10 3 1 [0xAC]) 0).1 = 0x406 ∧
        (outcome .unpackRow (unpackState 10 2 1 [0xAC, 0xC0]) 0).1 = 0x606 := by decide +kernel

def sumState (w : Word) (d : Bytes) : State :=
  inFlight cfg10 ⟨w, 0x1100, BitVec.ofNat 32 d.length, 0x1100, 0x100, 0, 0⟩ (place 0x1100 d)

theorem test_crc32_iend : outcome .crc32 (sumState 5 iend) 4 = (0x2, 0, 0xAE426082, iend) := by decide +kernel

theorem test_crc32_wrapping_source :
    outcome .crc32 (inFlight cfg10 ⟨5, 0xFFFFFFF0, 0x20, 0, 0, 0, 0⟩ []) 0 = (0x706, 0, 0, []) := by decide +kernel

theorem test_adler32_wikipedia : outcome .adler32 (sumState 6 wikipedia) 0 = (0x2, 0, 0x11E60398, []) := by
  decide +kernel

theorem test_adler32_empty : outcome .adler32 (sumState 6 []) 0 = (0x2, 0, 1, []) := by decide +kernel

def zlibState (cap : Word) (d : Bytes) : State :=
  inFlight cfg10 ⟨7, 0x1000, BitVec.ofNat 32 d.length, 0x2000, cap, 0, 0⟩ (place 0x1000 d)

theorem test_zlib_six_bytes :
    outcome .zlib (zlibState 17 [0x00, 0x53, 0x3F, 0x00, 0x00, 0x3F]) 17 = (0x2, 17, 0, zstream17) := by decide +kernel

theorem test_zlib_overflow :
    outcome .zlib (zlibState 16 [0x00, 0x53, 0x3F, 0x00, 0x00, 0x3F]) 1 = (0x606, 0, 0, [0]) := by decide +kernel

/-- 95 section 2.1: the boundary pixel in both modes, and a pixel on which they agree. -/
theorem test_luma_boundary :
    darkExact cfg10 128 128 128 = false ∧ darkBinary64 cfg10 128 128 128 = true ∧ darkExact cfg10 127 127 127 = true ∧
      darkBinary64 cfg10 0 217 0 = false ∧ darkBinary64 cfg10 1 173 233 = true := by decide +kernel

/-- 95 section 2.5 (a), informative: the level-9 stream of the same scanlines. -/
theorem test_inflate_level9_stream :
    Inflate.inflate 32768 [0x63, 0x08, 0xB6, 0x67, 0x60, 0xB0, 0x07, 0x00] =
      some [0x00, 0x53, 0x3F, 0x00, 0x00, 0x3F] := by decide +kernel

/-- 95 section 2.8: OVERLAP, and adjacent ranges, which do not overlap. -/
theorem test_overlap_and_adjacent :
    (outcome .encode (inFlight cfg10 ⟨1, 0x1000, 80, 0x1040, 0x100, 11, 2⟩ []) 0).1 = 0x806 ∧
      (outcome .encode (inFlight cfg10 ⟨1, 0x1000, 80, 0x0F00, 0x100, 10, 2⟩ []) 0).1 = 0x2 := by decide +kernel

/-- 95 program P4: an illegal word completes with 0x506. -/
theorem test_illegal_word_completes :
    (after (step (State.reset.withFetchWord 32 0x11))).blk.status = 0x506 := by decide +kernel

/-- The first command after reset, all operands 0 (R165, R171, R191, R195, R232, R235, R238). -/
theorem test_first_command_after_reset :
    (after (step (State.reset.withFetchWord 32 1))).blk.status = 0x106 ∧
      (after (step (State.reset.withFetchWord 32 2))).blk.status = 0x406 ∧
      (after (step (State.reset.withFetchWord 32 3))).blk.status = 0x106 ∧
      (after (step (State.reset.withFetchWord 32 4))).blk.status = 0x306 ∧
      (after (step (State.reset.withFetchWord 32 5))).blk.status = 0x2 ∧
      (after (step (State.reset.withFetchWord 32 6))).blk.result = 1 ∧
      (after (step (State.reset.withFetchWord 32 7))).blk.status = 0x606 := by decide +kernel

/-! ### Witnesses: for each statement with hypotheses, concrete values that meet them together

The name after `witness_` is the statement's; a last part names the clause. -/

/-- A turn of `t` next, with nothing after it. -/
def scheduled (t : Turn) (s : State) : State := { s with schedule := [t] }

/-- A host access next, on the host's turn. -/
def hostDoes (op : HostOp) (s : State) : State := { s with schedule := [.host], hostOps := [op] }

def idleState : State := State.resetWith cfg10

/-- CRC32 of four bytes, one of which is not admitted. -/
def stuckState : State := inFlight { cfg10 with memAdmit := [⟨0x1100, 3⟩] } ⟨5, 0x1100, 4, 0, 0, 0, 0⟩ []

/-- A second instance, BUSY with a ZLIB from 0x100 to 0x200. -/
def peerBlock : Block :=
  { Block.atReset { cfg10 with rbcBase := 0x40000040 } with
    phase := .busy, status := 1, latch := ⟨7, 0x100, 4, 0x200, 0x20, 0, 0⟩ }

/-- R53, R54: with nothing scheduled a stuck instance keeps neither another instance nor the host waiting. -/
theorem test_stuck_instance_keeps_nobody_waiting :
    ({ stuckState with peers := [peerBlock] } : State).defaultTurn = .block 1 ∧ stuckState.defaultTurn = .host := by
  decide +kernel

theorem encodeState_admitted : CompletionAdmitted (encodeState cfg10) := by
  intro i hi
  have : i = .encode := Except.ok.inj (hi.symm.trans (by decide))
  subst this
  decide +kernel

theorem witness_IllegalWordsAreRejectedByName :
    (0x10#32).toNat / 16 ≠ 0 ∧ ((0#32).toNat / 16 = 0 ∧ (0#32).toNat % 16 = 0) ∧
      ((8#32).toNat / 16 = 0 ∧ 8 ≤ (8#32).toNat % 16) ∧ ((15#32).toNat / 16 = 0 ∧ 8 ≤ (15#32).toNat % 16) ∧
      ((1#32).toNat / 16 = 0 ∧ 1 ≤ (1#32).toNat % 16) ∧ ((7#32).toNat / 16 = 0 ∧ (7#32).toNat % 16 ≤ 7) := by decide

theorem witness_StepRunsTheLatchedCommand :
    (encodeState cfg10).blk.phase = .busy ∧ decodeWord (encodeState cfg10).blk.latch.cmd = .ok .encode ∧
      (encodeState cfg10).schedule = [] ∧ CompletionAdmitted (encodeState cfg10) ∧
      (scheduled (.block 0) (encodeState cfg10)).schedule = [.block 0] :=
  ⟨by decide, by decide, rfl, encodeState_admitted, rfl⟩

theorem witness_FetchedWordRunsNext : State.reset.peers = [] := by decide

theorem witness_IllegalWordCompletesWithError :
    let s := fun w => scheduled (.block 0) (inFlight cfg10 ⟨w, 0xFFFFFFF0, 0x20, 0, 0, 0, 0⟩ [])
    (s 0x11).schedule = [.block 0] ∧ (s 0x11).blk.phase = .busy ∧ (s 0x11).blk.taint = false ∧
      (s 0x11).blk.latch.cmd.toNat / 16 ≠ 0 ∧ (s 0).blk.latch.cmd.toNat % 16 = 0 ∧
      8 ≤ (s 8).blk.latch.cmd.toNat % 16 := by decide

theorem witness_IdleMachineStaysAsItIs :
    idleState.schedule = [] ∧ idleState.hostOps = [] ∧ ∀ b ∈ idleState.blocks, b.phase = .idle := by decide

theorem witness_EnabledCompletionEndsTheCommand :
    let s := scheduled (.block 0) (encodeState cfg10)
    s.schedule = [.block 0] ∧ s.blk.phase = .busy ∧ CompletionAdmitted s := ⟨rfl, rfl, encodeState_admitted⟩

theorem witness_EnabledCompletionIsNotPassedOver :
    let s : State := { stuckState with peers := [peerBlock] }
    s.schedule = [] ∧ s.blocks[1]? = some peerBlock ∧ peerBlock.phase = .busy ∧
      CompletionAdmitted { s with blk := peerBlock } := ⟨rfl, rfl, rfl, by
  intro i hi
  have : i = .zlib := Except.ok.inj (hi.symm.trans (by decide))
  subst this
  decide +kernel⟩

theorem stuckState_stuck : Stuck .crc32 stuckState :=
  ⟨rfl, by decide, ⟨0x1100, 4⟩, by decide, 0x1103, by decide, by decide, by decide⟩

theorem witness_NotAdmittedStaysBusyForGood :
    NotAdmitted .crc32 stuckState ∧ Stuck .crc32 stuckState ∧
      step (hostDoes (.st 0x10FF 1) stuckState) = .next (after (step (hostDoes (.st 0x10FF 1) stuckState))) ∧
      (hostDoes (.st 0x10FF 1) stuckState).schedule ≠ [.reset 0] ∧ Memory.wf stuckState.mem = true ∧
      stuckState.peers = [] ∧ Turn.reset 0 ∉ (hostDoes (.st 0x10FF 1) stuckState).schedule ∧
      (∀ a b, HostOp.st a b ∈ (hostDoes (.st 0x10FF 1) stuckState).hostOps →
        ¬((0x1100#32).toNat ≤ a.toNat ∧ a.toNat < (0x1100#32).toNat + (4#32).toNat)) ∧
      Host.Core.run Sys2Proof.core 1 (hostDoes (.st 0x10FF 1) stuckState) =
        .next (after (step (hostDoes (.st 0x10FF 1) stuckState))) :=
  ⟨stuckState_stuck.2.2, stuckState_stuck, rfl, by decide, rfl, rfl, by decide, by
    intro a b h
    simp only [hostDoes, List.mem_singleton, HostOp.st.injEq] at h
    obtain ⟨rfl, rfl⟩ := h
    decide, rfl⟩

theorem witness_RegisterReadsAndWrites :
    Reg.arg1 ≠ .cmd ∧ Reg.arg1 ∈ [Reg.srcAddr, .srcLen, .dstAddr, .dstCap, .arg0, .arg1] ∧ Reg.result ≠ .cmd ∧
      Reg.ofOffset 0x3C = some .reserved3C := by decide

theorem witness_WindowAccessAdmission_write :
    let s := hostDoes (.wr 0x4000003C .b32 5) idleState
    s.schedule = [.host] ∧ s.peers = [] ∧ s.blk.cfg.rbcBase.toNat % 64 = 0 ∧
      (0x4000003C#32).toNat = s.blk.cfg.rbcBase.toNat + Reg.reserved3C.offset ∧
      s.hostOps = [.wr 0x4000003C .b32 5] := by decide

theorem witness_WindowAccessAdmission_read :
    let s := hostDoes (.rd 0x40000000 .b32) idleState
    s.schedule = [.host] ∧ s.peers = [] ∧ s.blk.cfg.rbcBase.toNat % 64 = 0 ∧
      (0x40000000#32).toNat = s.blk.cfg.rbcBase.toNat + Reg.cfgWidth.offset ∧ s.hostOps = [.rd 0x40000000 .b32] := by
  decide

theorem witness_WindowAccessAdmission_malformed :
    let s := hostDoes (.wr 0x3FFFFFFD .b32 5) idleState
    let q := hostDoes (.rd 0x4000003F .b8) idleState
    s.schedule = [.host] ∧ s.peers = [] ∧ (0x3FFFFFFD#32).toNat < s.blk.cfg.rbcBase.toNat + 64 ∧
      s.blk.cfg.rbcBase.toNat < (0x3FFFFFFD#32).toNat + State.widthBytes .b32 ∧ (0x3FFFFFFD#32).toNat % 4 ≠ 0 ∧
      q.schedule = [.host] ∧ (0x4000003F#32).toNat < q.blk.cfg.rbcBase.toNat + 64 ∧
      q.blk.cfg.rbcBase.toNat < (0x4000003F#32).toNat + State.widthBytes .b8 := by decide

theorem witness_WindowAccessAdmission_byte :
    let s := hostDoes (.st 0x40000000 5) idleState
    let q := hostDoes (.ld 0x4000003F) idleState
    s.schedule = [.host] ∧ s.peers = [] ∧ s.blk.cfg.rbcBase.toNat ≤ (0x40000000#32).toNat ∧
      s.hostOps = [.st 0x40000000 5] ∧ (0x4000003F#32).toNat < q.blk.cfg.rbcBase.toNat + 64 ∧
      q.hostOps = [.ld 0x4000003F] := by decide

theorem witness_ConfigurationNeverChanges : ∃ t, step (scheduled (.reset 0) (encodeState cfg10)) = .next t := ⟨_, rfl⟩

theorem witness_CommandAcceptance :
    idleState.blk.phase = .idle ∧ (∀ p ∈ idleState.peers, p.phase = .idle) ∧ (encodeState cfg10).blk.phase = .busy := by
  decide

theorem witness_CommandWriteWhileBusyIsDropped :
    let s := hostDoes (.wr 0x40000010 .b32 6) (encodeState cfg10)
    s.schedule = [.host] ∧ s.peers = [] ∧ s.blk.cfg.rbcBase.toNat % 64 = 0 ∧
      (0x40000010#32).toNat = s.blk.cfg.rbcBase.toNat + 0x10 ∧ s.hostOps = [.wr 0x40000010 .b32 6] ∧
      s.blk.phase = .busy := by decide

theorem witness_OperandWritesLeaveCommandInFlightAlone :
    Reg.srcAddr ≠ .cmd ∧ ∃ t, exec .encode (encodeState cfg10) = .next t := ⟨by decide, _, rfl⟩

theorem witness_LatchIsStableInFlight :
    ∃ t, step (hostDoes (.wr 0x40000018 .b32 6) (encodeState cfg10)) = .next t ∧ (encodeState cfg10).blk.phase = .busy ∧
      t.blk.phase = .busy := ⟨after (step (hostDoes (.wr 0x40000018 .b32 6) (encodeState cfg10))), rfl, by decide, by decide⟩

theorem witness_OnlyThreeEventsWriteStatus_acceptance :
    ∃ t, step (hostDoes (.wr 0x40000010 .b32 6) idleState) = .next t ∧ t.blk.status ≠ idleState.blk.status :=
  ⟨after (step (hostDoes (.wr 0x40000010 .b32 6) idleState)), rfl, by decide⟩

theorem witness_OnlyThreeEventsWriteStatus_completion :
    let s := scheduled (.block 0) (encodeState cfg10)
    ∃ t, step s = .next t ∧ t.blk.status ≠ s.blk.status :=
  ⟨after (step (scheduled (.block 0) (encodeState cfg10))), rfl, by decide +kernel⟩

theorem witness_OnlyThreeEventsWriteStatus_reset :
    ∃ t, step (scheduled (.reset 0) (encodeState cfg10)) = .next t ∧ t.blk.status ≠ (encodeState cfg10).blk.status :=
  ⟨after (step (scheduled (.reset 0) (encodeState cfg10))), rfl, by decide +kernel⟩

theorem witness_PollWaitsForDone :
    let s := hostDoes (.poll 0x40000014) idleState
    s.schedule = [.host] ∧ s.peers = [] ∧ s.blk.cfg.rbcBase.toNat % 64 = 0 ∧
      (0x40000014#32).toNat = s.blk.cfg.rbcBase.toNat + 0x14 ∧ s.hostOps = [.poll 0x40000014] := by decide

theorem witness_ResetValues :
    (scheduled (.reset 0) idleState).schedule = [.reset 0] ∧ (scheduled (.reset 0) idleState).blk.phase = .idle := by
  decide

theorem witness_ResetWhileBusyTouchesOnlyTheDestination :
    let s := scheduled (.reset 0) (encodeState cfg10)
    let q := scheduled (.reset 0) (sumState 5 iend)
    s.schedule = [.reset 0] ∧ s.blk.phase = .busy ∧ Memory.wf s.mem = true ∧ s.blk.latch.writes = true ∧
      q.schedule = [.reset 0] ∧ q.blk.phase = .busy ∧ Memory.wf q.mem = true ∧ q.blk.latch.writes = false := by
  decide +kernel

theorem witness_ErrorCompletionSavesNothingElse :
    let s := encodeState { cfg10 with frameLen := 69 }
    s.blk.taint = false ∧ s.blk.status = 0x00000001 ∧
      ∃ t, exec .encode s = .next t ∧ Status.err t.blk.status = true :=
  ⟨rfl, rfl, after (exec .encode (encodeState { cfg10 with frameLen := 69 })), rfl, by decide +kernel⟩

theorem witness_ResultsOfASuccess :
    let s := encodeState cfg10
    let q := sumState 6 wikipedia
    s.blk.taint = false ∧ s.blk.status = 0x00000001 ∧ q.blk.taint = false ∧ q.blk.status = 0x00000001 ∧
      (∃ t, exec .encode s = .next t ∧ t.blk.status = 0x00000002 ∧ writesMemory .encode = true) ∧
      (∃ t, exec .adler32 q = .next t ∧ t.blk.status = 0x00000002 ∧ writesMemory .adler32 = false) :=
  ⟨rfl, rfl, rfl, rfl, ⟨after (exec .encode (encodeState cfg10)), rfl, by decide +kernel, rfl⟩,
    ⟨after (exec .adler32 (sumState 6 wikipedia)), rfl, by decide +kernel, rfl⟩⟩

theorem witness_CommandFrame :
    Memory.wf (encodeState cfg10).mem = true ∧ (encodeState cfg10).blk.taint = false ∧
      (∃ t, exec .encode (encodeState cfg10) = .next t ∧ (0x2046 : Nat) ≥ 0x2000 + t.blk.resultLen.toNat) ∧
      ∃ t, exec .crc32 (sumState 5 iend) = .next t :=
  ⟨by decide +kernel, rfl, ⟨after (exec .encode (encodeState cfg10)), rfl, by decide +kernel⟩, _, rfl⟩

theorem witness_OutputIsSeenAfterDone :
    let s := packState 10 4 topRow
    Memory.wf s.mem = true ∧ s.peers = [] ∧ RangesOk s.blk.latch ∧ writesMemory .packRow = true ∧ s.blk.taint = false ∧
      s.blk.status = 0x00000001 ∧ (∃ t, exec .packRow s = .next t ∧ t.blk.status = 0x00000002) ∧
      (commandWork .packRow s).result = .ok [0xAC, 0xC0, 0, 0] 0 ∧
      (0x2803#32).toNat = s.blk.latch.dstAddr.toNat + 3 ∧ 3 < [0xAC#8, 0xC0, 0, 0].length :=
  ⟨by decide +kernel, rfl, by decide, rfl, rfl, rfl,
    ⟨after (exec .packRow (packState 10 4 topRow)), rfl, by decide +kernel⟩, by decide +kernel, by decide, by decide⟩

theorem witness_TaintedCompletionIsADraw :
    let s := { packState 10 4 topRow with blk := { (packState 10 4 topRow).blk with taint := true } }
    let q := { sumState 5 iend with blk := { (sumState 5 iend).blk with taint := true } }
    Memory.wf s.mem = true ∧ s.blk.taint = true ∧ (∀ r ∈ accessedSet .packRow s, Admits s.blk r.base r.size) ∧
      4 = s.draws + (if writesMemory .packRow then s.blk.latch.dstCap.toNat else 0) ∧ 3 < s.blk.latch.dstCap.toNat ∧
      s.blk.latch.dstAddr.toNat + 3 < 2 ^ 32 ∧ writesMemory .crc32 = false ∧ Memory.wf q.mem = true ∧ q.blk.taint = true ∧
      ∀ r ∈ accessedSet .crc32 q, Admits q.blk r.base r.size := by decide +kernel

theorem witness_ExactLuminanceThreshold :
    cfg10.lumaMode = .exact ∧ cfg10.weightR = 30 ∧ cfg10.weightG = 59 ∧ cfg10.weightB = 11 ∧ cfg10.threshold = 128 := by
  decide

theorem witness_Binary64DiffersOnlyOnTheBoundary :
    cfg10.weightR = 30 ∧ cfg10.weightG = 59 ∧ cfg10.weightB = 11 ∧ cfg10.threshold = 128 ∧
      darkExact cfg10 127 127 127 = true ∧ darkBinary64 cfg10 0 197 107 = true ∧ darkExact cfg10 0 197 107 = false := by
  decide +kernel

theorem witness_PackedRowBits : 9 < 10 ∧ 10 ≤ 10 := by decide

theorem witness_AlphaIsNotRead : ∀ k, k % 4 ≠ 3 → byteAt [1, 2, 3, 4] k = byteAt [1, 2, 3, 9] k := by
  intro k hk
  match k, hk with
  | 0, _ => rfl
  | 1, _ => rfl
  | 2, _ => rfl
  | k + 4, _ => rfl

/-- The prologue's clauses, for every writing command. -/
theorem witness_WriterPrologueErrors :
    (¬SrcOk ⟨1, 0xFFFFFFF0, 0x20, 0, 0, 0, 0⟩) ∧
      (SrcOk ⟨1, 0xFFFFFFF0, 0x10, 0xFFFFFFF0, 0x100, 0, 0⟩ ∧ ¬DstOk ⟨1, 0xFFFFFFF0, 0x10, 0xFFFFFFF0, 0x100, 0, 0⟩) ∧
      (SrcOk ⟨1, 0x1000, 80, 0x0F00, 0x101, 0, 0⟩ ∧ DstOk ⟨1, 0x1000, 80, 0x0F00, 0x101, 0, 0⟩ ∧
        SrcDstOverlap ⟨1, 0x1000, 80, 0x0F00, 0x101, 0, 0⟩) ∧
      RangesOk ⟨1, 0x1000, 80, 0x0F00, 0x100, 0, 0⟩ := by decide

theorem witness_PackRowCommand :
    let s := packState 10 4 topRow
    let l := s.blk.latch
    s.blk.taint = false ∧ l.arg0.toNat = 10 ∧ RangesOk l ∧ l.srcLen.toNat = 4 * 10 ∧ stride 10 ≤ l.dstCap.toNat ∧
      Admits s.blk l.srcAddr.toNat (4 * 10) ∧ Admits s.blk l.dstAddr.toNat (stride 10) := by decide +kernel

theorem witness_PackRowCommand_errors :
    (RangesOk (packState 0 4 []).blk.latch ∧ (packState 0 4 []).blk.latch.arg0.toNat = 0) ∧
      (RangesOk (packState 10 4 (px 0)).blk.latch ∧ (packState 10 4 (px 0)).blk.latch.srcLen.toNat ≠ 4 * 10) ∧
      (RangesOk (packState 1 3 (px 0)).blk.latch ∧ (packState 1 3 (px 0)).blk.latch.srcLen.toNat = 4 * 1 ∧
        (packState 1 3 (px 0)).blk.latch.dstCap.toNat < stride 1) := by decide

theorem witness_EncodeCommand :
    let s := encodeState cfg10
    let l := encodeLatch
    let c := cfg10
    s.blk.taint = false ∧ s.blk.latch = l ∧ s.blk.cfg = c ∧ RangesOk l ∧ l.arg0.toNat = c.width ∧
      l.arg1.toNat = c.height ∧ l.srcLen.toNat = 4 * c.width * c.height ∧
      62 + stride c.width * c.height ≤ c.frameLen ∧ c.frameLen ≤ l.dstCap.toNat ∧
      Admits s.blk l.srcAddr.toNat (4 * c.width * c.height) ∧ Admits s.blk l.dstAddr.toNat c.frameLen := by
  decide +kernel

theorem witness_EncodeCommand_errors :
    (RangesOk ⟨1, 0x1000, 80, 0x2000, 0x100, 11, 2⟩ ∧ (11#32).toNat ≠ cfg10.width) ∧
      ({ cfg10 with frameLen := 69 } : Cfg).frameLen < 62 + stride 10 * 2 ∧
      (RangesOk ⟨1, 0x1000, 80, 0x2000, 69, 10, 2⟩ ∧ (69#32).toNat < cfg10.frameLen) := by decide

theorem witness_BitmapLayout :
    cfg10.wf = true ∧ 62 + stride cfg10.width * cfg10.height ≤ cfg10.frameLen ∧ 1 < cfg10.height ∧ 9 < cfg10.width := by
  decide

theorem witness_EncodedFrameProperties :
    let white := (List.replicate 20 (px 0xFF)).flatten
    let black := (List.replicate 20 (px 0)).flatten
    cfg10.wf = true ∧ 62 + stride cfg10.width * cfg10.height ≤ cfg10.frameLen ∧
      (∀ y, y < 2 → ∀ x, x < 10 → rasterDark cfg10 white x y = false) ∧
      (∀ y, y < 2 → ∀ x, x < 10 → rasterDark cfg10 black x y = true) := by decide +kernel

theorem witness_EncodeIsDeterministic :
    let s := encodeState cfg10
    Memory.wf s.mem = true ∧ s.blk.taint = false ∧ RangesOk s.blk.latch ∧ s.blk.status = 0x00000001 ∧
      ∃ t, exec .encode s = .next t ∧ t.blk.status = 0x00000002 :=
  ⟨by decide +kernel, rfl, by decide, rfl, after (exec .encode (encodeState cfg10)), rfl, by decide +kernel⟩

theorem witness_RowCopyBytes : 2 ≤ [0xAC#8, 0xC0].length ∧ 1 < 2 := by decide

theorem witness_UnpackRowCommand :
    let s := unpackState 10 3 3 [0xAC, 0xC0]
    let l := s.blk.latch
    s.blk.taint = false ∧ l.arg0.toNat = 10 ∧ RangesOk l ∧ (10 + 7) / 8 ≤ l.srcLen.toNat ∧
      1 + (10 + 7) / 8 ≤ l.dstCap.toNat ∧ Admits s.blk l.srcAddr.toNat 2 ∧ Admits s.blk l.dstAddr.toNat 3 := by
  decide +kernel

theorem witness_UnpackRowCommand_errors :
    (RangesOk (unpackState 0 4 0 []).blk.latch ∧ (unpackState 0 4 0 []).blk.latch.arg0.toNat = 0) ∧
      (RangesOk (unpackState 10 3 1 [0xAC]).blk.latch ∧ (unpackState 10 3 1 [0xAC]).blk.latch.srcLen.toNat < 2) ∧
      (RangesOk (unpackState 10 2 1 [0xAC, 0xC0]).blk.latch ∧
        (unpackState 10 2 1 [0xAC, 0xC0]).blk.latch.dstCap.toNat < 1 + 2) := by decide

theorem witness_BitmapValidationOrder :
    (bitmap70.take 53).length < 54 ∧ (54 ≤ bitmap70.length ∧ le32 (put bitmap70 14 [0x7C]) 14 ≠ 40) ∧
      le16 (put bitmap70 28 [0x18]) 28 ≠ 1 ∧ sle32 (put bitmap70 18 (LE32 0)) 18 ≤ 0 ∧
      sle32 (put bitmap70 22 (LE32 0)) 22 = 0 ∧ sle32 (put bitmap70 22 [0, 0, 0, 0x80]) 22 = -2 ^ 31 ∧
      (le32 bitmap70 14 = 40 ∧ le16 bitmap70 28 = 1 ∧
        ¬(sle32 bitmap70 18 ≤ 0 ∨ sle32 bitmap70 22 = 0 ∨ sle32 bitmap70 22 = -2 ^ 31)) ∧
      (bitmap70.take 61).length < 62 ∧ (bitmap70.take 69).length < le32 bitmap70 10 + stride 10 * 2 ∧
      le32 bitmap70 10 + stride 10 * 2 ≤ bitmap70.length := by decide +kernel

theorem witness_RawScanlineBytes :
    let topDown := put bitmap70 22 [0xFE, 0xFF, 0xFF, 0xFF]
    validate bitmap70 = none ∧ (sle32 bitmap70 18).toNat = 10 ∧ (sle32 bitmap70 22).natAbs = 2 ∧
      validate topDown = none ∧ (sle32 topDown 22).natAbs = 2 ∧ sle32 topDown 22 < 0 := by decide +kernel

theorem witness_DecodeCommand :
    let s := decodeState 74 bitmap70
    let l := s.blk.latch
    s.blk.taint = false ∧ RangesOk l ∧ Admits s.blk l.srcAddr.toNat l.srcLen.toNat ∧
      validate (srcBytes s l.srcLen.toNat) = none ∧
      (container s.blk.cfg 10 2 (rawScanlines (srcBytes s l.srcLen.toNat))).length ≤ l.dstCap.toNat ∧
      Admits s.blk l.dstAddr.toNat 74 := by decide +kernel

theorem witness_DecodeCommand_errors :
    validate (bitmap70.take 69) = some .truncated ∧ (73#32).toNat < container74.length ∧
      RangesOk (decodeState 73 bitmap70).blk.latch := by decide +kernel

theorem witness_PolarityRoundTrip :
    cfg10.wf = true ∧ 62 + stride cfg10.width * cfg10.height ≤ cfg10.frameLen ∧ 9 < cfg10.width := by decide

theorem witness_Crc32Command :
    let s := sumState 5 iend
    let l := s.blk.latch
    s.blk.taint = false ∧ SrcOk l ∧ l.srcLen = 4 ∧ Admits s.blk l.srcAddr.toNat 4 ∧ srcBytes s 4 = iend ∧
      ¬SrcOk ⟨5, 0xFFFFFFF0, 0x20, 0, 0, 0, 0⟩ ∧ SrcOk ⟨5, 0xFFFFFFFC, 4, 0, 0, 0, 0⟩ ∧ (sumState 5 []).blk.latch.srcLen = 0 := by
  decide +kernel

theorem witness_Adler32Command :
    let s := sumState 6 wikipedia
    let l := s.blk.latch
    s.blk.taint = false ∧ SrcOk l ∧ l.srcLen = 9 ∧ Admits s.blk l.srcAddr.toNat 9 ∧ srcBytes s 9 = wikipedia ∧
      ¬SrcOk ⟨6, 0xFFFFFFFF, 2, 0, 0, 0, 0⟩ ∧ (sumState 6 []).blk.latch.srcLen = 0 := by decide +kernel

theorem witness_ZlibCommand :
    let s := zlibState 17 [0x00, 0x53, 0x3F, 0x00, 0x00, 0x3F]
    let l := s.blk.latch
    s.blk.taint = false ∧ RangesOk l ∧ Admits s.blk l.srcAddr.toNat l.srcLen.toNat ∧
      zstream s.blk.cfg (srcBytes s l.srcLen.toNat) = zstream17 ∧ zstream17.length ≤ l.dstCap.toNat ∧
      Admits s.blk l.dstAddr.toNat zstream17.length ∧ (16#32).toNat < zstream17.length := by decide +kernel

theorem witness_StoredStreamLength :
    0 < [0x00#8].length ∧ ∀ n, n ≤ 65535 → (List.replicate n (0#8)).length ≤ 65535 :=
  ⟨by decide, fun n h => by rw [List.length_replicate]; exact h⟩

theorem witness_StoredInstanceObeysTheLaw : cfg10.wf = true ∧ cfg10.deflate = .stored := by decide

theorem witness_ZlibOutputInflatesToSource :
    let s := zlibState 17 [0x00, 0x53, 0x3F, 0x00, 0x00, 0x3F]
    (CfgOk s.blk.cfg ∨ (s.blk.cfg.wf = true ∧ s.blk.cfg.deflate = .stored)) ∧ Memory.wf s.mem = true ∧
      RangesOk s.blk.latch ∧ s.blk.taint = false ∧ s.blk.status = 0x00000001 ∧
      ∃ t, exec .zlib s = .next t ∧ t.blk.status = 0x00000002 :=
  ⟨.inr ⟨by decide, rfl⟩, by decide +kernel, by decide, rfl, rfl,
    after (exec .zlib (zlibState 17 [0x00, 0x53, 0x3F, 0x00, 0x00, 0x3F])), rfl, by decide +kernel⟩

theorem witness_InFlightHazards :
    let s := hostDoes (.st 0x1000 7) (encodeState cfg10)
    let q := hostDoes (.ld 0x20FF) (encodeState cfg10)
    s.schedule = [.host] ∧ s.peers = [] ∧ s.blk.phase = .busy ∧ s.blk.window.has (0x1000#32).toNat = false ∧
      s.hostOps = [.st 0x1000 7] ∧ s.blk.latch.storeHazard 0x1000 = true ∧ s.blk.latch.storeHazard 0x1050 = false ∧
      q.hostOps = [.ld 0x20FF] ∧ q.blk.window.has (0x20FF#32).toNat = false ∧ q.blk.latch.writes = true ∧
      q.blk.latch.loadHazard 0x20FF = true ∧ q.blk.latch.loadHazard 0x2100 = false := by decide

theorem witness_UnrelatedStoresDoNotInterfere :
    let q := inFlight cfg10 ⟨5, 0x1100, 4, 0x1100, 0xFFFFFFFF, 0, 0⟩ []
    Memory.wf (encodeState cfg10).mem = true ∧ decodeWord (encodeState cfg10).blk.latch.cmd = .ok .encode ∧
      (encodeState cfg10).blk.latch.storeHazard (0x2100#32).toNat = false ∧
      (∃ t, exec .encode (encodeState cfg10) = .next t) ∧ Memory.wf q.mem = true ∧
      decodeWord q.blk.latch.cmd = .ok .crc32 ∧ q.blk.latch.storeHazard (0x1104#32).toNat = false ∧
      ∃ t, exec .crc32 q = .next t :=
  ⟨by decide +kernel, by decide, by decide, ⟨_, rfl⟩, rfl, by decide, by decide, _, rfl⟩

theorem witness_OverlappingInstancesTaintEachOther :
    let s := fun (dst : Word) =>
      { idleState with peers := [peerBlock], blk := { idleState.blk with dstAddr := dst, dstCap := 0x10 } }
    let l := fun (dst : Word) => (s dst).blk.latchOf 7
    (s 0x21F).blk.phase = .idle ∧ (s 0x21F).peers = [peerBlock] ∧ peerBlock.phase = .busy ∧
      peerBlock.latch.writes = true ∧ peerBlock.latch.dst.overlaps (l 0x21F).dst = true ∧
      peerBlock.latch.dst.overlaps (l 0x220).dst = false ∧ peerBlock.latch.dst.overlaps (l 0x220).src = false ∧
      (l 0x220).dst.overlaps peerBlock.latch.src = false ∧ (l 0xF4).dst.overlaps peerBlock.latch.src = true := by decide

theorem witness_InstancesStepIndependently :
    let s := scheduled (.block 1) { idleState with peers := [peerBlock] }
    s.schedule = [.block (0 + 1)] ∧ s.peers[0]? = some peerBlock ∧ peerBlock.phase = .busy ∧
      decodeWord peerBlock.latch.cmd = .ok .zlib := by decide

theorem witness_EveryStepKeepsTheInvariant :
    (encodeState cfg10).Inv ∧ (scheduled (.block 0) (encodeState cfg10)).Inv ∧
      ∃ t, step (scheduled (.block 0) (encodeState cfg10)) = .next t :=
  ⟨by decide +kernel, by decide +kernel, _, rfl⟩

theorem witness_NoCommandStopsTheMachine :
    let s := { encodeState cfg10 with schedule := [.host, .block 0, .reset 0] }
    s.hostOps = [] ∧ 0 < s.blocks.length ∧
      s.schedule = [.host, .block 0, .reset 0] := by decide

end Sys2Proof.Tests
end

section
/-! Proofs about the configuration of 00_scope.md (R9 to R11). -/

namespace Sys2Proof

/-- The bounds of R10, the header conditions of R236 and the alignment of R9, read out of the check. -/
theorem Cfg.wf_iff (c : Cfg) :
    c.wf = true ↔
      (1 ≤ c.width ∧ c.width ≤ 2 ^ 31 - 1) ∧ (1 ≤ c.height ∧ c.height ≤ 2 ^ 31 - 1) ∧
        (62 ≤ c.frameLen ∧ c.frameLen ≤ 2 ^ 32 - 1) ∧
        (c.zlibCmf.toNat % 16 = 8 ∧ c.zlibCmf.toNat / 16 ≤ 7 ∧ c.zlibFlg.getLsbD 5 = false ∧
          (c.zlibCmf.toNat * 256 + c.zlibFlg.toNat) % 31 = 0) ∧
        c.rbcBase.toNat % 64 = 0 := by
  simp only [Cfg.wf, Cfg.widthOk, Cfg.heightOk, Cfg.frameLenOk, Cfg.zlibHdrOk, Cfg.rbcBaseOk, Bool.and_eq_true,
    decide_eq_true_eq, and_assoc]

namespace Machine

theorem stride_reference : stride Config.reference.width = 100 := rfl

theorem pixelData_reference : stride Config.reference.width * Config.reference.height = 48000 := by
  rw [stride_reference, show Config.reference.height = 480 from rfl]

/-- The reference configuration meets each condition of R9, R10 and R236. -/
theorem reference_wf : Config.reference.wf = true := by
  refine (Cfg.wf_iff _).mpr ⟨?width, ?height, ?frameLen, ?zlibHeader, ?base⟩ <;> decide

/-- Settles O36: 480 rows of 100 bytes and the 62 bytes of headers fill the frame of 48062 bytes with no surplus. -/
theorem referenceFrameSize : Obligations.ReferenceFrameSize := by
  have hsum : 62 + stride Config.reference.width * Config.reference.height = Config.reference.frameLen := by
    rw [pixelData_reference, show Config.reference.frameLen = 48062 from rfl]
  exact ⟨stride_reference, pixelData_reference, hsum, rfl, reference_wf⟩

end Machine

end Sys2Proof
end

section
/-! Proofs about acceptance and about operand writes while a command is in flight (10_state.md R47 to R51). -/

namespace Sys2Proof.Machine

theorem Block.busy_iff (b : Block) : b.busy = true ↔ b.phase = .busy := decide_eq_true_iff

theorem Block.busy_of_idle {b : Block} (h : b.phase = .idle) : b.busy = false := by
  rw [Block.busy, h]
  rfl

namespace State

/-- A write to `CMD` is acceptance. -/
theorem writeReg_cmd (s : State) (v : Word) : s.writeReg v .cmd = s.acceptCmd v := rfl

/-- A write to any other register stores an operand or has no effect (R47). -/
theorem writeReg_of_ne_cmd (s : State) (v : Word) {r : Reg} (hr : r ≠ .cmd) : s.writeReg v r = setOperand s v r := by
  cases r with
  | cmd => exact absurd rfl hr
  | _ => rfl

/-- While BUSY a command word is dropped (R50). -/
theorem acceptCmd_of_busy {s : State} (h : s.blk.phase = .busy) (v : Word) : s.acceptCmd v = s :=
  if_pos (s.blk.busy_iff.mpr h)

/-- With no command of a peer to conflict with (R98), acceptance changes the block in focus only and leaves it untainted. -/
theorem acceptCmd_of_no_conflict {s : State} (h : s.blk.phase = .idle) (v : Word)
    (hp : ∀ p ∈ s.peers, (p.busy && p.latch.conflicts (s.blk.latchOf v)) = false) :
    s.acceptCmd v =
      { s with
        blk :=
          { s.blk with
            phase := .busy
            status := Status.inFlight
            resultLen := 0
            result := 0
            latch := s.blk.latchOf v
            taint := false } } := by
  have hany : s.peers.any (fun p => p.busy && p.latch.conflicts (s.blk.latchOf v)) = false :=
    List.any_eq_false.mpr fun p hm => by simp [hp p hm]
  have hmap : s.peers.map
      (fun p => if p.busy && p.latch.conflicts (s.blk.latchOf v) then { p with taint := true } else p) = s.peers :=
    (List.map_congr_left fun p hm => if_neg (by simp [hp p hm])).trans (List.map_id' _)
  simp only [acceptCmd, Block.busy_of_idle h, hany, hmap]
  rfl

end State

/-- Settles O13: with the peers idle no command conflicts with the accepted one, so neither it nor a peer is tainted. -/
theorem commandAcceptance : Obligations.CommandAcceptance := by
  intro s v
  refine ⟨fun hidle hpeers => ?_, fun hbusy => State.acceptCmd_of_busy hbusy v⟩
  have hnone : ∀ p ∈ s.peers, (p.busy && p.latch.conflicts (s.blk.latchOf v)) = false := fun p hp => by
    rw [Block.busy_of_idle (hpeers p hp), Bool.false_and]
  exact State.acceptCmd_of_no_conflict hidle v hnone

/-- Admission asks for the configuration only (R9, R53). -/
theorem admitted_congr {b c : Block} (h : b.cfg = c.cfg) : admitted b = admitted c := by
  funext a
  simp only [admitted, Block.window, h]

theorem admittedAll_congr {b c : Block} (h : b.cfg = c.cfg) (rs : List Range) : admittedAll b rs = admittedAll c rs := by
  rw [admittedAll, admitted_congr h, admittedAll]

/-- A command's rule reads the latch, the configuration and memory, and no live register (R48, R56). -/
theorem commandWork_congr (i : Instr) {s t : State} (hlatch : t.blk.latch = s.blk.latch) (hcfg : t.blk.cfg = s.blk.cfg)
    (hmem : t.mem = s.mem) : commandWork i t = commandWork i s := by
  cases i <;>
    simp only [commandWork, encodeBody, decodeBody, packRowBody, unpackRowBody, crc32Body, adler32Body, zlibBody, hlatch,
      hcfg, hmem]

section Operand

variable (s : State) (v : Word) (r : Reg)

@[simp] theorem setOperand_blk : (setOperand s v r).blk = s.blk.storeReg v r := rfl

theorem raise_setOperand (e : ErrCode) : (setOperand s v r).raise e = setOperand (s.raise e) v r := by
  cases r <;> rfl

theorem complete_setOperand (w : Bool) (out : Bytes) (val : Word) :
    (setOperand s v r).complete w out val = setOperand (s.complete w out val) v r := by
  cases r <;> rfl

theorem settleTainted_setOperand (w : Bool) :
    (setOperand s v r).settleTainted w = setOperand (s.settleTainted w) v r := by
  cases w <;> cases r <;> rfl

/-- Completion and an operand write commute: each outcome of the completion step does. -/
theorem finish_setOperand (w : Bool) (k : Work) : (setOperand s v r).finish w k = setOperand (s.finish w k) v r := by
  have hlatch : (setOperand s v r).blk.latch = s.blk.latch := s.blk.storeReg_latch v r
  have htaint : (setOperand s v r).blk.taint = s.blk.taint := s.blk.storeReg_taint v r
  have hadm := admittedAll_congr (s.blk.storeReg_cfg v r) (k.accessed w s.blk.latch)
  unfold State.finish
  rw [hlatch, htaint, setOperand_blk, hadm]
  split
  · split
    · exact settleTainted_setOperand s v r w
    · cases k.result with
      | ok out val => exact complete_setOperand s v r w out val
      | err e => exact raise_setOperand s v r e
  · rfl

theorem commandWork_setOperand (i : Instr) : commandWork i (setOperand s v r) = commandWork i s :=
  commandWork_congr i (s.blk.storeReg_latch v r) (s.blk.storeReg_cfg v r) rfl

end Operand

/-- Settles O15: the command's work does not see the operand write, and completing that work commutes with it. -/
theorem operandWritesLeaveCommandInFlightAlone : Obligations.OperandWritesLeaveCommandInFlightAlone := by
  intro s t i v r hr h
  rw [exec_eq_finish] at h
  cases h
  rw [State.writeReg_of_ne_cmd s v hr, State.writeReg_of_ne_cmd _ v hr, exec_eq_finish, commandWork_setOperand,
    finish_setOperand]

end Sys2Proof.Machine
end

section
/-! What a turn of the host, a turn with another block in focus and a step can be, said once. -/

namespace Sys2Proof.Machine

namespace State

/-- An operation that goes through on peer `j` ran with that peer in focus, and the focus was put back. -/
theorem onInstance_succ_inv {s t : State} {j : Nat} {f : State → Host.Outcome State Fault Refusal}
    (h : s.onInstance (j + 1) f = .next t) :
    ∃ p u q, s.peers[j]? = some p ∧ f { s with blk := p, peers := s.peers.set j s.blk } = .next u ∧
      u.peers[j]? = some q ∧ t = { u with blk := q, peers := u.peers.set j u.blk } := by
  unfold onInstance at h
  cases hp : s.peers[j]? with
  | none => simp [swapFocus, hp] at h
  | some p =>
    simp only [swapFocus_eq hp] at h
    cases hf : f { s with blk := p, peers := s.peers.set j s.blk } with
    | fault e => simp [hf] at h
    | refused e => simp [hf] at h
    | next u =>
      simp only [hf] at h
      cases hq : u.peers[j]? with
      | none => simp [swapFocus, hq] at h
      | some q =>
        simp only [swapFocus_eq hq, Host.Outcome.next.injEq] at h
        exact ⟨p, u, q, rfl, hf, hq, h.symm⟩

/-- A register read changes only what the host has seen. -/
theorem loadReg_next {s t : State} {a : Word} {k : Nat} {r : Reg} (h : s.loadReg a k r = .next t) :
    ∃ v, s.regValue k r = some v ∧ t = { s with seen := .reg a v :: s.seen } := by
  unfold loadReg at h
  cases hv : s.regValue k r with
  | none => simp [hv] at h
  | some v =>
    simp only [hv, Host.Outcome.next.injEq] at h
    exact ⟨v, rfl, h.symm⟩

/-- What a host access can do (R46, R47, R88, R116, R117): write a register, store a byte, load a byte, or change nothing but
the host's own lists. -/
inductive HostEffect (s : State) (rest : List HostOp) : HostOp → State → Prop where
  | write {a : Word} {width : AccessWidth} {v : Word} {k : Nat} {r : Reg} {t : State}
      (target : s.busTarget a width = .register k r)
      (run : ({ s with hostOps := rest } : State).onInstance k (fun u => .next (u.writeReg v r)) = .next t) :
      HostEffect s rest (.wr a width v) t
  | store {a : Word} {b : Byte} (target : s.busTarget a .b8 = .outside) :
      HostEffect s rest (.st a b) (({ s with hostOps := rest } : State).storeByte a b)
  | load {a : Word} (target : s.busTarget a .b8 = .outside) :
      HostEffect s rest (.ld a) (({ s with hostOps := rest } : State).loadByte a)
  | other {op : HostOp} (ops : List HostOp) (seen : List Seen) :
      HostEffect s rest op { s with hostOps := ops, seen := seen }

theorem hostEffect_self (s : State) (rest : List HostOp) (op : HostOp) : HostEffect s rest op s :=
  .other s.hostOps s.seen

/-- Every host access that goes through does what `HostEffect` says. -/
theorem hostOp_effect {s t : State} {rest : List HostOp} {op : HostOp} (h : s.hostOp rest op = .next t) :
    HostEffect s rest op t := by
  cases op with
  | wr a width v =>
    simp only [hostOp] at h
    split at h
    next k r hb => exact .write hb h
    next => cases h; exact hostEffect_self _ _ _
    next => cases h
  | rd a width =>
    simp only [hostOp] at h
    split at h
    next k r hb =>
      obtain ⟨v, -, rfl⟩ := loadReg_next h
      exact .other rest _
    next => cases h; exact hostEffect_self _ _ _
    next => cases h
  | st a b =>
    simp only [hostOp] at h
    split at h
    next hb => cases h; exact .store hb
    next => cases h; exact hostEffect_self _ _ _
    next => cases h; exact hostEffect_self _ _ _
  | ld a =>
    simp only [hostOp] at h
    split at h
    next hb => cases h; exact .load hb
    next => cases h; exact hostEffect_self _ _ _
    next => cases h; exact hostEffect_self _ _ _
  | poll a =>
    simp only [hostOp] at h
    split at h
    next k r hb =>
      split at h
      next =>
        split at h
        · obtain ⟨_, -, rfl⟩ := loadReg_next h
          exact .other rest _
        · obtain ⟨_, -, rfl⟩ := loadReg_next h
          exact .other s.hostOps _
      next => cases h
    next => cases h; exact hostEffect_self _ _ _
    next => cases h
  | check v =>
    simp only [hostOp] at h
    split at h
    · cases h; exact .other rest s.seen
    · cases h

/-- The host's turn is its first access, and nothing where none is left (log 10). -/
theorem hostTurn_next {s t : State} (h : s.hostTurn = .next t) :
    (s.hostOps = [] ∧ t = s) ∨ ∃ op rest, s.hostOps = op :: rest ∧ HostEffect s rest op t := by
  unfold hostTurn at h
  split at h
  next hops => cases h; exact .inl ⟨hops, rfl⟩
  next op rest hops => exact .inr ⟨op, rest, hops, hostOp_effect h⟩

/-- A block's turn is nothing while IDLE (R292) and the completion step of some work while BUSY (R52). -/
theorem blockTurn_next {s t : State} (h : s.blockTurn = .next t) :
    (s.blk.phase = .idle ∧ t = s) ∨ ∃ w k, s.blk.phase = .busy ∧ t = s.finish w k := by
  cases hp : s.blk.phase with
  | idle =>
    simp only [blockTurn, hp, Host.Outcome.next.injEq] at h
    exact .inl ⟨rfl, h.symm⟩
  | busy =>
    obtain ⟨w, k, hb, -⟩ := blockTurn_of_busy hp
    rw [hb] at h
    cases h
    exact .inr ⟨w, k, rfl, rfl⟩

end State

/-- A step is the turn at the head of the schedule, or the default turn where none is scheduled. -/
theorem step_eq_runTurn (s : State) :
    step s = ({ s with schedule := s.schedule.tail } : State).runTurn (s.schedule.headD s.defaultTurn) := by
  obtain ⟨blk, peers, mem, draws, hostOps, schedule, seen⟩ := s
  cases schedule <;> rfl

end Sys2Proof.Machine
end

section
/-! Proofs about the configuration of every block, which no step changes (10_state.md R33 to R35). -/

namespace Sys2Proof.Machine

namespace State

/-- The configurations of all blocks, the one in focus first. -/
def cfgs (s : State) : List Cfg := s.blocks.map (fun b => b.cfg)

theorem cfgs_eq (s : State) : s.cfgs = s.blk.cfg :: s.peers.map (fun b => b.cfg) := rfl

/-- The same configuration in focus and the same peers: the same configurations. -/
theorem cfgs_congr {s t : State} (hblk : t.blk.cfg = s.blk.cfg) (hpeers : t.peers = s.peers) : t.cfgs = s.cfgs := by
  rw [cfgs_eq, cfgs_eq, hblk, hpeers]

/-- Tainting those peers that meet a condition changes no configuration. -/
theorem map_cfg_taint (c : Block → Bool) (l : List Block) :
    (l.map (fun b => if c b then { b with taint := true } else b)).map (fun b => b.cfg) = l.map (fun b => b.cfg) := by
  rw [List.map_map]
  refine List.map_congr_left fun b _ => ?_
  simp only [Function.comp_apply]
  split <;> rfl

theorem taintWhere_cfgs (s : State) (hazard : Latch → Bool) : (s.taintWhere hazard).cfgs = s.cfgs :=
  map_cfg_taint (fun b => b.busy && hazard b.latch) s.blocks

theorem storeByte_cfgs (s : State) (a : Word) (b : Byte) : (s.storeByte a b).cfgs = s.cfgs :=
  taintWhere_cfgs s (fun l => l.storeHazard a.toNat)

theorem loadByte_cfgs (s : State) (a : Word) : (s.loadByte a).cfgs = s.cfgs := by
  unfold loadByte
  split
  · exact taintWhere_cfgs s (fun l => l.loadHazard a.toNat)
  · rfl

theorem acceptCmd_cfgs (s : State) (v : Word) : (s.acceptCmd v).cfgs = s.cfgs := by
  unfold acceptCmd
  split
  · rfl
  · exact congrArg (s.blk.cfg :: ·) (map_cfg_taint (fun p => p.busy && p.latch.conflicts (s.blk.latchOf v)) s.peers)

theorem writeReg_cfgs (s : State) (v : Word) (r : Reg) : (s.writeReg v r).cfgs = s.cfgs := by
  by_cases hr : r = .cmd
  · rw [hr, writeReg_cmd, acceptCmd_cfgs]
  · rw [writeReg_of_ne_cmd s v hr]
    exact cfgs_congr (s.blk.storeReg_cfg v r) rfl

theorem resetBlock_cfgs (s : State) : s.resetBlock.cfgs = s.cfgs := by
  unfold resetBlock
  split <;> rfl

theorem finish_cfg (s : State) (w : Bool) (k : Work) : (s.finish w k).blk.cfg = s.blk.cfg := by
  rcases finish_cases s w k with ⟨_, hf⟩ | ⟨_, ⟨_, hf⟩ | ⟨_, ⟨_, _, _, hf⟩ | ⟨_, _, hf⟩⟩⟩ <;> simp [hf]

theorem blockTurn_cfgs {s t : State} (h : s.blockTurn = .next t) : t.cfgs = s.cfgs := by
  rcases blockTurn_next h with ⟨_, rfl⟩ | ⟨w, k, _, rfl⟩
  · rfl
  · exact cfgs_congr (finish_cfg s w k) (finish_peers s w k)

/-- An operation that keeps the configurations keeps them run on any block: the exchange of focus is undone. -/
theorem onInstance_cfgs {f : State → Host.Outcome State Fault Refusal}
    (hf : ∀ {s t : State}, f s = .next t → t.cfgs = s.cfgs) {s t : State} {k : Nat} (h : s.onInstance k f = .next t) :
    t.cfgs = s.cfgs := by
  cases k with
  | zero => exact hf h
  | succ j =>
    obtain ⟨p, u, q, hp, hu, hq, rfl⟩ := onInstance_succ_inv h
    have hcfgs := hf hu
    rw [cfgs_eq, cfgs_eq, List.cons.injEq, List.map_set] at hcfgs
    obtain ⟨hfocus, hpeers⟩ := hcfgs
    obtain ⟨hlt, rfl⟩ := List.getElem?_eq_some_iff.mp hp
    have hback : q.cfg = s.blk.cfg := by
      have hget := congrArg (·[j]?) hpeers
      simpa [hq, hlt] using hget
    have hrest : (u.peers.set j u.blk).map (fun b => b.cfg) = s.peers.map (fun b => b.cfg) := by
      rw [List.map_set, hfocus, hpeers, List.set_set, ← List.map_set, List.set_getElem_self]
    rw [cfgs_eq, cfgs_eq, hback, hrest]

theorem onInstance_next_cfgs {g : State → State} (hg : ∀ s, (g s).cfgs = s.cfgs) {s t : State} {k : Nat}
    (h : s.onInstance k (fun u => .next (g u)) = .next t) : t.cfgs = s.cfgs := by
  refine onInstance_cfgs (fun {s t} hst => ?_) h
  cases hst
  exact hg s

theorem hostEffect_cfgs {s t : State} {rest : List HostOp} {op : HostOp} (h : HostEffect s rest op t) : t.cfgs = s.cfgs := by
  cases h with
  | @write _ _ v _ r _ _ run =>
    rw [onInstance_next_cfgs (fun u => writeReg_cfgs u v r) run]
    rfl
  | store target => exact storeByte_cfgs _ _ _
  | load target => exact loadByte_cfgs _ _
  | other ops seen => rfl

theorem runTurn_cfgs {s t : State} {turn : Turn} (h : s.runTurn turn = .next t) : t.cfgs = s.cfgs := by
  cases turn with
  | host =>
    rcases hostTurn_next h with ⟨_, rfl⟩ | ⟨op, rest, _, heff⟩
    · rfl
    · exact hostEffect_cfgs heff
  | block k => exact onInstance_cfgs blockTurn_cfgs h
  | reset k => exact onInstance_next_cfgs resetBlock_cfgs h

end State

theorem step_cfgs {s t : State} (h : step s = .next t) : t.cfgs = s.cfgs := by
  rw [step_eq_runTurn] at h
  rw [State.runTurn_cfgs h]
  rfl

/-- Settles O12: every turn, a reset among them, keeps the list of configurations. -/
theorem configurationNeverChanges : Obligations.ConfigurationNeverChanges :=
  ⟨fun _ _ h => step_cfgs h, fun _ => ⟨rfl, rfl, rfl⟩⟩

end Sys2Proof.Machine
end

section
/-! Proofs about the container's bytes (30_encoding.md R130 to R136). -/

namespace Sys2Proof.Machine

@[simp] theorem BE32_length (v : Nat) : (BE32 v).length = 4 := rfl

@[simp] theorem ihdr_length (w rows : Nat) : (ihdr w rows).length = 13 := rfl

@[simp] theorem pngSignature_length : pngSignature.length = 8 := rfl

/-- A chunk adds a length field and a CRC of four bytes each (R132). -/
@[simp] theorem chunk_length (t p : Bytes) : (chunk t p).length = 4 + t.length + p.length + 4 := by
  simp only [chunk, List.length_append, BE32_length]

/-- The stream adds a header of two bytes and the Adler-32 (R136). -/
@[simp] theorem zstream_length (c : Cfg) (raw : Bytes) :
    (zstream c raw).length = 2 + (deflateBody c.deflate raw).length + 4 := by
  simp only [zstream, List.length_append, List.length_cons, List.length_nil, BE32_length]
  omega

/-- The payload of IHDR is 13 bytes long (R134). -/
theorem chunk_ihdr (w rows : Nat) :
    chunk typeIHDR (ihdr w rows) =
      [0x00, 0x00, 0x00, 0x0D, 0x49, 0x48, 0x44, 0x52] ++ ihdr w rows ++
        BE32 (crc32 ([0x49, 0x48, 0x44, 0x52] ++ ihdr w rows)).toNat := by
  have hhead : BE32 13 ++ typeIHDR = [0x00, 0x00, 0x00, 0x0D, 0x49, 0x48, 0x44, 0x52] := by decide
  rw [chunk, ihdr_length, hhead, typeIHDR]

/-- The IEND chunk has no payload, so its CRC is a constant (R135). -/
theorem chunk_iend :
    chunk typeIEND [] = [0x00, 0x00, 0x00, 0x00, 0x49, 0x45, 0x4E, 0x44, 0xAE, 0x42, 0x60, 0x82] := by
  have hcrc : crc32 typeIEND = 0xAE426082 := by decide +kernel
  rw [chunk, List.append_nil, List.append_nil, hcrc]
  decide

/-- The signature, IHDR (25 bytes), the head and CRC of IDAT (12) and IEND (12) are 57 bytes around the stream (R130). -/
theorem container_length (c : Cfg) (w rows : Nat) (raw : Bytes) :
    (container c w rows raw).length = 57 + (zstream c raw).length := by
  have hIHDR : (chunk typeIHDR (ihdr w rows)).length = 25 := rfl
  have hIDAT : (chunk typeIDAT (zstream c raw)).length = 12 + (zstream c raw).length := by
    rw [chunk_length, show typeIDAT.length = 4 from rfl]
    omega
  have hIEND : (chunk typeIEND []).length = 12 := by rw [chunk_iend]; rfl
  simp only [container, List.length_append, hIHDR, hIDAT, hIEND, pngSignature_length]
  omega

/-- Settles O41: IEND is its fixed bytes, the stream's parts regroup, and every other part is as its definition gives it. -/
theorem containerLayout : Obligations.ContainerLayout := by
  refine ⟨fun t p => rfl, fun c w rows raw => ⟨?bytes, ?size⟩⟩
  case bytes =>
    rw [container, chunk_ihdr, chunk_iend, zstream, ← List.append_assoc [_, _], pngSignature, typeIDAT, ihdr]
  case size => rw [container_length, zstream_length]

end Sys2Proof.Machine
end

section
/-! Proofs about the luminance threshold (40_encoder.md R160, R162, R163). -/

namespace Sys2Proof.Machine

theorem dark_of_exact {c : Cfg} (h : c.lumaMode = .exact) (r g b : Byte) : dark c r g b = darkExact c r g b := by
  rw [dark, h]

/-- R160's comparison, read out of the test. -/
theorem darkExact_iff (c : Cfg) (r g b : Byte) :
    darkExact c r g b = true ↔
      c.weightR * r.toNat + c.weightG * g.toNat + c.weightB * b.toNat < 100 * c.threshold :=
  decide_eq_true_iff

/-- Settles O26: the reference weights add up to 100, so for a gray pixel the comparison is `100·v < 12800`. -/
theorem exactLuminanceThreshold : Obligations.ExactLuminanceThreshold := by
  intro c hmode
  have hdark : ∀ r g b : Byte, dark c r g b = true ↔
      c.weightR * r.toNat + c.weightG * g.toNat + c.weightB * b.toNat < 100 * c.threshold := fun r g b => by
    rw [dark_of_exact hmode, darkExact_iff]
  refine ⟨hdark, fun hR hG hB hT v => ?_⟩
  rw [hdark, hR, hG, hB, hT]
  omega

theorem fl64_zero : fl64 0 1 = 0 := by decide

/-- A channel of 0 contributes nothing, whatever its coefficient. -/
theorem term64_zero (w : Nat) : term64 w 0 = 0 := fl64_zero

/-- Transparent black has the luminance 0 in binary64 too: every rounding is of 0. -/
theorem gray64_black (c : Cfg) : gray64 c 0 0 0 = 0 := by
  simp only [gray64, term64_zero, Nat.add_zero, fl64_zero]

/-- The three reference coefficients lie within binary64's range. -/
theorem coef64_reference_not_beyond :
    beyond64 (coef64 30) = false ∧ beyond64 (coef64 59) = false ∧ beyond64 (coef64 11) = false := by decide +kernel

/-- R163: with the reference weights and threshold black is dark in both luminance modes. -/
theorem dark_black {c : Cfg} (hR : c.weightR = 30) (hG : c.weightG = 59) (hB : c.weightB = 11)
    (hT : c.threshold = 128) : dark c 0 0 0 = true := by
  cases hmode : c.lumaMode with
  | exact =>
    rw [dark_of_exact hmode, darkExact_iff, hT]
    simp
  | binary64 =>
    obtain ⟨h30, h59, h11⟩ := coef64_reference_not_beyond
    have hzero : beyond64 0 = false := by decide +kernel
    have hin : lumaBeyond64 c 0 0 0 = false := by
      rw [lumaBeyond64, hR, hG, hB, gray64_black, h30, h59, h11, hzero]
      rfl
    have hunit : 0 < unit64 := by decide +kernel
    simp only [dark, hmode, darkBinary64, hin, gray64_black, hT, Bool.false_eq_true, if_false, decide_eq_true_eq]
    omega

end Sys2Proof.Machine
end

section
/-! Proofs about bytes of a sequence and the bits of a packed row (40_encoder.md R161, R163, R164). -/

namespace Sys2Proof.Machine

@[simp] theorem zeros_length (n : Nat) : (zeros n).length = n := List.length_replicate

theorem byteAt_of_length_le {a : Bytes} {i : Nat} (h : a.length ≤ i) : byteAt a i = 0 := List.getD_eq_default _ _ h

theorem byteAt_append_left {a : Bytes} (b : Bytes) {i : Nat} (h : i < a.length) : byteAt (a ++ b) i = byteAt a i :=
  List.getD_append _ _ _ _ h

theorem byteAt_append_right {a : Bytes} (b : Bytes) {i : Nat} (h : a.length ≤ i) :
    byteAt (a ++ b) i = byteAt b (i - a.length) :=
  List.getD_append_right _ _ _ _ h

@[simp] theorem byteAt_zeros (n i : Nat) : byteAt (zeros n) i = 0 := by
  by_cases h : i < n
  · exact List.getD_replicate _ h
  · exact byteAt_of_length_le (by simpa using h)

/-- A byte of a part of a sequence. -/
theorem byteAt_take_drop (a : Bytes) (o n : Nat) {i : Nat} (h : i < n) :
    byteAt ((a.drop o).take n) i = byteAt a (o + i) := by
  simp [byteAt, List.getElem?_take_of_lt h]

theorem stride_eq (w : Nat) : stride w = (w + 31) / 32 * 4 := rfl

/-- A row's bytes hold its bits, with fewer than 32 bits of padding. -/
theorem stride_bounds (w : Nat) : w ≤ 8 * stride w ∧ 8 * stride w < w + 32 := by
  rw [stride_eq]
  omega

/-- Settles O28: the rounded-up quotient by 32 in bytes, and its values at four widths. -/
theorem rowStride : Obligations.RowStride :=
  ⟨fun w => ⟨stride_eq w, stride_bounds w⟩, rfl, rfl, rfl, rfl⟩

@[simp] theorem setPixel_length (out : Bytes) (y : Nat) : (setPixel out y).length = out.length :=
  List.length_modify _ _ _

theorem byteAt_setPixel {out : Bytes} {y : Nat} (hy : y / 8 < out.length) (i : Nat) :
    byteAt (setPixel out y) i = if y / 8 = i then byteAt out i ||| 0x80#8 >>> (y % 8) else byteAt out i := by
  by_cases hi : y / 8 = i
  · subst hi
    simp [byteAt, setPixel, hy]
  · simp [byteAt, setPixel, hi]

/-- The bit that R164 sets for pixel `y` is bit `7 − (y mod 8)` of its byte. -/
theorem getLsbD_pixel_mask : ∀ i < 8, ∀ j < 8, (0x80#8 >>> i).getLsbD (7 - j) = decide (i = j) := by decide

/-- Setting pixel `y` inside a row sets its bit and leaves every other bit alone (R164). -/
theorem pixelBit_setPixel {out : Bytes} {y : Nat} (hy : y / 8 < out.length) (x : Nat) :
    pixelBit (setPixel out y) x = (pixelBit out x || decide (y = x)) := by
  rw [pixelBit, byteAt_setPixel hy, pixelBit]
  by_cases hbyte : y / 8 = x / 8
  · have hbit : (y % 8 = x % 8) ↔ y = x := by omega
    rw [if_pos hbyte, BitVec.getLsbD_or, getLsbD_pixel_mask _ (Nat.mod_lt _ (by decide)) _ (Nat.mod_lt _ (by decide)),
      decide_eq_decide.mpr hbit]
  · have hne : y ≠ x := fun h => hbyte (by rw [h])
    rw [if_neg hbyte, decide_eq_false hne, Bool.or_false]

/-- The row after its first `k` pixels, set where `p` holds: `pack` is this fold for a whole row (R164). -/
def packFirst (p : Nat → Bool) (len k : Nat) : Bytes :=
  (List.range k).foldl (fun out x => if p x then setPixel out x else out) (zeros len)

theorem pack_eq_packFirst (c : Cfg) (px : Bytes) (n : Nat) :
    pack c px n = packFirst (pixelDark c px) (stride n) n := rfl

theorem packFirst_zero (p : Nat → Bool) (len : Nat) : packFirst p len 0 = zeros len := rfl

theorem packFirst_succ (p : Nat → Bool) (len k : Nat) :
    packFirst p len (k + 1) = if p k then setPixel (packFirst p len k) k else packFirst p len k := by
  simp only [packFirst, List.range_succ, List.foldl_append, List.foldl_cons, List.foldl_nil]

@[simp] theorem packFirst_length (p : Nat → Bool) (len k : Nat) : (packFirst p len k).length = len := by
  induction k with
  | zero => exact zeros_length len
  | succ k ih =>
    rw [packFirst_succ]
    split
    · rw [setPixel_length, ih]
    · exact ih

/-- Bit by bit: a pixel among the first `k` has its bit set exactly where `p` holds, and no other bit is set. -/
theorem pixelBit_packFirst (p : Nat → Bool) {len k : Nat} (hk : k ≤ 8 * len) (x : Nat) :
    pixelBit (packFirst p len k) x = (decide (x < k) && p x) := by
  induction k with
  | zero => simp [packFirst_zero, pixelBit]
  | succ k ih =>
    have hin : k / 8 < (packFirst p len k).length := by rw [packFirst_length]; omega
    have hprev := ih (by omega)
    rw [packFirst_succ]
    by_cases hx : k = x
    · subst hx
      cases hp : p k <;> simp [hprev, pixelBit_setPixel hin, hp]
    · have hlt : x < k + 1 ↔ x < k := by omega
      cases hp : p k <;> simp [hprev, pixelBit_setPixel hin, hx, hlt]

@[simp] theorem pack_length (c : Cfg) (px : Bytes) (n : Nat) : (pack c px n).length = stride n := by
  rw [pack_eq_packFirst, packFirst_length]

/-- R164, bit by bit. -/
theorem pixelBit_pack (c : Cfg) (px : Bytes) (n x : Nat) :
    pixelBit (pack c px n) x = (decide (x < n) && pixelDark c px x) :=
  pixelBit_packFirst _ (stride_bounds n).1 x

/-- Settles O29: `pixelBit_pack` below the row's end and past it. -/
theorem packedRowBits : Obligations.PackedRowBits := by
  refine fun c px n => ⟨pack_length c px n, fun x hx => ?below, fun x hx => ?past⟩
  case below =>
    rw [pixelBit_pack, decide_eq_true hx, Bool.true_and]
    rfl
  case past => rw [pixelBit_pack, decide_eq_false (Nat.not_lt.mpr hx), Bool.false_and]

/-- Settles O30: the three bytes that a pixel is judged by stand at offsets 0, 1 and 2 of four. -/
theorem alphaIsNotRead : Obligations.AlphaIsNotRead := by
  refine ⟨fun c px qx n h => ?_, fun c => dark_black⟩
  have hdark : pixelDark c px = pixelDark c qx := by
    funext x
    rw [pixelDark, pixelDark, h (4 * x) (by omega), h (4 * x + 1) (by omega), h (4 * x + 2) (by omega)]
  rw [pack, pack, hdark]

end Sys2Proof.Machine
end

section
/-! Proofs about the bytes of the monochrome bitmap (30_encoding.md R120 to R124, 40_encoder.md R170, R173). -/

namespace Sys2Proof.Machine

@[simp] theorem LE16_length (v : Nat) : (LE16 v).length = 2 := rfl

@[simp] theorem LE32_length (v : Nat) : (LE32 v).length = 4 := rfl

theorem byteOf_toNat (v k : Nat) : (byteOf v k).toNat = v / 2 ^ (8 * k) % 2 ^ 8 := BitVec.toNat_ofNat _ _

/-- A 16-bit field reads back (R16). -/
theorem le16_LE16 {v : Nat} (h : v < 2 ^ 16) : le16 (LE16 v) 0 = v := by
  have hbytes : le16 (LE16 v) 0 = (byteOf v 0).toNat + 2 ^ 8 * (byteOf v 1).toNat := rfl
  rw [hbytes, byteOf_toNat, byteOf_toNat]
  omega

/-- A 32-bit field reads back (R16). -/
theorem le32_LE32 {v : Nat} (h : v < 2 ^ 32) : le32 (LE32 v) 0 = v := by
  have hbytes : le32 (LE32 v) 0 = (byteOf v 0).toNat + 2 ^ 8 * (byteOf v 1).toNat + 2 ^ 16 * (byteOf v 2).toNat +
      2 ^ 24 * (byteOf v 3).toNat := rfl
  rw [hbytes, byteOf_toNat, byteOf_toNat, byteOf_toNat, byteOf_toNat]
  omega

theorem s32_of_lt {v : Nat} (h : v < 2 ^ 31) : s32 v = v := by
  rw [s32, if_neg (by omega)]

/-- A field written where zeros begin (R16). -/
theorem put_zeros (a s : Bytes) (n : Nat) : put (a ++ zeros (s.length + n)) a.length s = a ++ s ++ zeros n := by
  simp [put, zeros, List.drop_append]

/-- The headers and the palette as one sequence: ENCODE's fields one after the other (R170 step 2). -/
def bitmapHead (c : Cfg) : Bytes := (headerFields c).flatMap Prod.snd

theorem bitmapHead_length (c : Cfg) : (bitmapHead c).length = 62 := rfl

/-- Each field starts where the one before it ends. -/
def Contiguous : Nat → List (Nat × Bytes) → Prop
  | _, [] => True
  | o, f :: fs => f.1 = o ∧ Contiguous (o + f.2.length) fs

theorem headerFields_contiguous (c : Cfg) : Contiguous 0 (headerFields c) := by
  simp [headerFields, Contiguous]

/-- Contiguous fields put where zeros begin stand there one after the other. -/
theorem foldl_put_contiguous (fs : List (Nat × Bytes)) (a : Bytes) (n : Nat) (h : Contiguous a.length fs) :
    fs.foldl (fun out f => put out f.1 f.2) (a ++ zeros ((fs.flatMap Prod.snd).length + n)) =
      a ++ fs.flatMap Prod.snd ++ zeros n := by
  induction fs generalizing a with
  | nil => simp
  | cons f fs ih =>
    obtain ⟨hoff, hrest⟩ := h
    have hput := put_zeros a f.2 ((fs.flatMap Prod.snd).length + n)
    have hnext := ih (a ++ f.2) (by rwa [List.length_append])
    rw [List.foldl_cons, List.flatMap_cons, List.length_append, Nat.add_assoc, hoff, hput, hnext, List.append_assoc a]

/-- The first `h` pixel rows of the bitmap, the raster's last row first (R170). -/
def bitmapRows (c : Cfg) (ras : Bytes) (h : Nat) : Bytes :=
  (List.range h).flatMap (fun r => pack c (rasterRow c.width ras (c.height - 1 - r)) c.width)

theorem bitmapRows_succ (c : Cfg) (ras : Bytes) (h : Nat) :
    bitmapRows c ras (h + 1) = bitmapRows c ras h ++ pack c (rasterRow c.width ras (c.height - 1 - h)) c.width := by
  simp [bitmapRows, List.range_succ]

@[simp] theorem bitmapRows_length (c : Cfg) (ras : Bytes) (h : Nat) :
    (bitmapRows c ras h).length = h * stride c.width := by
  simp [bitmapRows, List.length_flatMap]

/-- Byte `j` of pixel row `r`. -/
theorem byteAt_bitmapRows (c : Cfg) (ras : Bytes) {h r j : Nat} (hr : r < h) (hj : j < stride c.width) :
    byteAt (bitmapRows c ras h) (r * stride c.width + j) =
      byteAt (pack c (rasterRow c.width ras (c.height - 1 - r)) c.width) j := by
  induction h with
  | zero => omega
  | succ h ih =>
    rw [bitmapRows_succ]
    by_cases hlast : r = h
    · subst hlast
      rw [byteAt_append_right _ (by simp), bitmapRows_length, Nat.add_sub_cancel_left]
    · have hbefore : (r + 1) * stride c.width ≤ h * stride c.width := Nat.mul_le_mul_right _ (by omega)
      rw [Nat.add_one_mul] at hbefore
      rw [byteAt_append_left _ (by rw [bitmapRows_length]; omega), ih (by omega)]

/-- Putting the pixel rows one by one lays them behind the head (R170 step 3). -/
theorem foldl_put_rows (c : Cfg) (ras : Bytes) (h n : Nat) :
    (List.range h).foldl
        (fun out r => put out (62 + r * stride c.width) (pack c (rasterRow c.width ras (c.height - 1 - r)) c.width))
        (bitmapHead c ++ zeros (h * stride c.width + n)) =
      bitmapHead c ++ bitmapRows c ras h ++ zeros n := by
  induction h generalizing n with
  | zero => simp [bitmapRows]
  | succ h ih =>
    have hput := put_zeros (bitmapHead c ++ bitmapRows c ras h)
      (pack c (rasterRow c.width ras (c.height - 1 - h)) c.width) n
    rw [List.length_append, bitmapHead_length, bitmapRows_length, pack_length] at hput
    rw [List.range_succ, List.foldl_append, Nat.add_one_mul, Nat.add_assoc, ih, List.foldl_cons, List.foldl_nil, hput,
      bitmapRows_succ, List.append_assoc (bitmapHead c)]

section Frame

variable {c : Cfg} (ras : Bytes) (hL : 62 + stride c.width * c.height ≤ c.frameLen)

include hL

/-- The bitmap is the head, the pixel rows and the zero surplus (R120, R124), if they fit. -/
theorem bitmap_eq :
    bitmap c ras =
      bitmapHead c ++ bitmapRows c ras c.height ++ zeros (c.frameLen - (62 + stride c.width * c.height)) := by
  have hhead := foldl_put_contiguous (headerFields c) [] (c.frameLen - 62) (headerFields_contiguous c)
  rw [← bitmapHead, bitmapHead_length, List.nil_append, List.nil_append, Nat.add_sub_cancel' (by omega)] at hhead
  have hsize : c.frameLen - 62 =
      c.height * stride c.width + (c.frameLen - (62 + stride c.width * c.height)) := by
    rw [Nat.mul_comm c.height]
    omega
  rw [bitmap, hhead, hsize, foldl_put_rows]

theorem bitmap_length : (bitmap c ras).length = c.frameLen := by
  rw [bitmap_eq ras hL, List.length_append, List.length_append, bitmapHead_length, bitmapRows_length, zeros_length,
    Nat.mul_comm c.height]
  omega

theorem byteAt_bitmap_head {k : Nat} (hk : k < 62) : byteAt (bitmap c ras) k = byteAt (bitmapHead c) k := by
  rw [bitmap_eq ras hL, List.append_assoc, byteAt_append_left _ (by rwa [bitmapHead_length])]

/-- Byte `j` of pixel row `r`, counted from the bottom. -/
theorem byteAt_bitmap_row {r j : Nat} (hr : r < c.height) (hj : j < stride c.width) :
    byteAt (bitmap c ras) (62 + r * stride c.width + j) =
      byteAt (pack c (rasterRow c.width ras (c.height - 1 - r)) c.width) j := by
  have hbefore : (r + 1) * stride c.width ≤ c.height * stride c.width := Nat.mul_le_mul_right _ (by omega)
  rw [Nat.add_one_mul] at hbefore
  have hin : 62 + r * stride c.width + j < (bitmapHead c ++ bitmapRows c ras c.height).length := by
    rw [List.length_append, bitmapHead_length, bitmapRows_length]
    omega
  have hoff : 62 + r * stride c.width + j - 62 = r * stride c.width + j := by omega
  rw [bitmap_eq ras hL, byteAt_append_left _ hin, byteAt_append_right _ (by rw [bitmapHead_length]; omega),
    bitmapHead_length, hoff, byteAt_bitmapRows c ras hr hj]

/-- The surplus is zero (R124). -/
theorem byteAt_bitmap_surplus {k : Nat} (hk : 62 + stride c.width * c.height ≤ k) : byteAt (bitmap c ras) k = 0 := by
  have hpast : (bitmapHead c ++ bitmapRows c ras c.height).length ≤ k := by
    rwa [List.length_append, bitmapHead_length, bitmapRows_length, Nat.mul_comm c.height]
  rw [bitmap_eq ras hL, byteAt_append_right _ hpast, byteAt_zeros]

theorem le16_bitmap_head {o : Nat} (ho : o + 2 ≤ 62) : le16 (bitmap c ras) o = le16 (bitmapHead c) o := by
  rw [le16, le16, byteAt_bitmap_head ras hL (by omega), byteAt_bitmap_head ras hL (by omega)]

theorem le32_bitmap_head {o : Nat} (ho : o + 4 ≤ 62) : le32 (bitmap c ras) o = le32 (bitmapHead c) o := by
  rw [le32, le32, byteAt_bitmap_head ras hL (by omega), byteAt_bitmap_head ras hL (by omega),
    byteAt_bitmap_head ras hL (by omega), byteAt_bitmap_head ras hL (by omega)]

end Frame

/-- A pixel of a raster row is judged by the raster's bytes of R84. -/
theorem pixelDark_rasterRow (c : Cfg) (ras : Bytes) {x : Nat} (y : Nat) (hx : x < c.width) :
    pixelDark c (rasterRow c.width ras y) x = rasterDark c ras x y := by
  have hbyte : ∀ k, k < 4 → byteAt (rasterRow c.width ras y) (4 * x + k) = byteAt ras (4 * (y * c.width + x) + k) :=
    fun k hk => by
      rw [rasterRow, byteAt_take_drop _ _ _ (by omega)]
      congr 1
      ring
  rw [pixelDark, rasterDark, ← hbyte 0 (by omega), ← hbyte 1 (by omega), ← hbyte 2 (by omega)]
  rfl

/-- Bit `i` of byte `j` is the bit of pixel `8j + (7 − i)`. -/
theorem getLsbD_byteAt (row : Bytes) (j : Nat) {i : Nat} (hi : i < 8) :
    (byteAt row j).getLsbD i = pixelBit row (8 * j + (7 - i)) := by
  rw [pixelBit, show (8 * j + (7 - i)) / 8 = j by omega, show 7 - (8 * j + (7 - i)) % 8 = i by omega]

/-- A row without a dark pixel is all zeros. -/
theorem byteAt_pack_of_no_dark {c : Cfg} {px : Bytes} {n : Nat}
    (h : ∀ x, x < n → pixelDark c px x = false) (j : Nat) :
    byteAt (pack c px n) j = 0 := by
  apply BitVec.eq_of_getLsbD_eq
  intro i hi
  rw [getLsbD_byteAt _ _ hi, pixelBit_pack]
  by_cases hx : 8 * j + (7 - i) < n
  · simp [h _ hx]
  · simp [hx]

/-- A row of dark pixels: whole bytes of ones, one byte of leading ones where the width leaves a rest, zeros (R173). -/
theorem byteAt_pack_of_all_dark {c : Cfg} {px : Bytes} {n : Nat}
    (h : ∀ x, x < n → pixelDark c px x = true) (j : Nat) :
    byteAt (pack c px n) j =
      if j < n / 8 then 0xFF else if j = n / 8 ∧ n % 8 ≠ 0 then 0xFF#8 <<< (8 - n % 8) else 0x00 := by
  have hbit : ∀ i, i < 8 → (byteAt (pack c px n) j).getLsbD i = decide (8 * j + (7 - i) < n) := fun i hi => by
    rw [getLsbD_byteAt _ _ hi, pixelBit_pack]
    by_cases hx : 8 * j + (7 - i) < n
    · simp [h _ hx]
    · simp [hx]
  have hones : ∀ i, i < 8 → (0xFF#8).getLsbD i = true := by decide
  apply BitVec.eq_of_getLsbD_eq
  intro i hi
  rw [hbit i hi]
  split
  case isTrue hwhole => rw [show (0xFF : Byte) = 0xFF#8 from rfl, hones i hi, decide_eq_true_eq]; omega
  case isFalse hnot =>
    split
    case isTrue hpart =>
      rw [BitVec.getLsbD_shiftLeft, hones _ (by omega), decide_eq_true hi, Bool.true_and, Bool.and_true, ← decide_not,
        decide_eq_decide]
      omega
    case isFalse hpad =>
      rw [decide_eq_false (by omega)]
      simp

/-- Every byte of the pixel data lies in a row. -/
theorem exists_row_of_lt {S H k : Nat} (h : k < S * H) : ∃ r j, r < H ∧ j < S ∧ k = r * S + j := by
  have hS : 0 < S := Nat.pos_of_mul_pos_right (Nat.zero_lt_of_lt h)
  exact ⟨k / S, k % S, Nat.div_lt_of_lt_mul h, Nat.mod_lt _ hS, (Nat.div_add_mod' k S).symm⟩

/-- Settles O34: the fields lie in the head, and each pixel byte is a byte of a packed row or of the surplus. -/
theorem encodedFrameProperties : Obligations.EncodedFrameProperties := by
  intro c ras hwf hL
  obtain ⟨⟨_, hW⟩, ⟨_, hH⟩, _⟩ := (Cfg.wf_iff c).mp hwf
  have hsurplus : ∀ k, 62 + stride c.width * c.height ≤ k → byteAt (bitmap c ras) k = 0x00 := fun k =>
    byteAt_bitmap_surplus ras hL
  refine ⟨bitmap_length ras hL, ?width, ?height, ?bits, fun hlight k hk => ?light,
    fun hdark r j hr hj => ?dark, hsurplus⟩
  case width =>
    rw [le32_bitmap_head ras hL (by omega)]
    exact le32_LE32 (by omega)
  case height =>
    have hfield : le32 (bitmapHead c) 22 = c.height := le32_LE32 (by omega)
    rw [sle32, le32_bitmap_head ras hL (by omega), hfield, s32_of_lt (by omega)]
  case bits =>
    rw [le16_bitmap_head ras hL (by omega)]
    exact le16_LE16 (by omega)
  case light =>
    by_cases hrow : k - 62 < stride c.width * c.height
    · obtain ⟨r, j, hr, hj, hrj⟩ := exists_row_of_lt hrow
      have hk' : k = 62 + r * stride c.width + j := by omega
      rw [hk', byteAt_bitmap_row ras hL hr hj]
      exact byteAt_pack_of_no_dark
        (fun x hx => by rw [pixelDark_rasterRow c ras _ hx]; exact hlight _ x (by omega) hx) j
    · exact hsurplus k (by omega)
  case dark =>
    rw [byteAt_bitmap_row ras hL hr hj]
    exact byteAt_pack_of_all_dark
      (fun x hx => by rw [pixelDark_rasterRow c ras _ hx]; exact hdark _ x (by omega) hx) j

end Sys2Proof.Machine
end

section
/-! Proofs about the commands PACKROW and ENCODE (40_encoder.md R165, R170 to R172, with the prologue of R263). -/

namespace Sys2Proof.Machine

/-- An untainted command whose rule raises an error before it reads anything completes with that error (R264). -/
theorem exec_of_fail_nil {i : Instr} {s : State} {e : ErrCode} (ht : s.blk.taint = false)
    (h : commandWork i s = Work.fail [] e) : exec i s = .next (errorCompletion s e.code) := by
  rw [exec_eq_finish, h, finish_fail_nil ht, raise_eq_errorCompletion]

/-- An untainted writing command whose rule succeeds, with one range read, completes if both ranges are admitted
(R53). -/
theorem exec_of_done {i : Instr} {s : State} {r : Range} {out : Bytes} (hw : writesMemory i = true)
    (ht : s.blk.taint = false) (h : commandWork i s = Work.done [r] out 0) (hsrc : Admits s.blk r.base r.size)
    (hdst : Admits s.blk s.blk.latch.dstAddr.toNat out.length) : exec i s = .next (writeCompletion s out) := by
  have hadm : admittedAll s.blk ((Work.done [r] out 0).accessed true s.blk.latch) = true := by
    rw [admittedAll_iff]
    intro q hq
    rcases List.mem_pair.mp hq with rfl | rfl
    · exact hsrc
    · exact hdst
  rw [exec_eq_finish, h, hw, finish_done ht true out 0 hadm, complete_eq_writeCompletion]

theorem commandWork_of_prologue {i : Instr} {s : State} {e : ErrCode} (hw : writesMemory i = true)
    (h : prologue true s.blk.latch = some e) : commandWork i s = Work.fail [] e := by
  simp only [commandWork, hw, h]

/-- Every untainted writing command answers the prologue's errors (R263). -/
theorem writerPrologueErrors {i : Instr} {s : State} (hw : writesMemory i = true) (ht : s.blk.taint = false) :
    WriterPrologueErrors i s :=
  ⟨fun hs => exec_of_fail_nil (e := .addrRange) ht (commandWork_of_prologue hw (prologue_src hs)),
    fun hs hd => exec_of_fail_nil (e := .addrRange) ht (commandWork_of_prologue hw (prologue_dst hs hd)),
    fun hs hd ho => exec_of_fail_nil (e := .overlap) ht (commandWork_of_prologue hw (prologue_overlap hs hd ho))⟩

/-- Past the prologue PACKROW is its own rule (R165). -/
theorem commandWork_packRow {s : State} (h : RangesOk s.blk.latch) :
    commandWork .packRow s = packRowBody s.blk s.mem := by
  simp only [commandWork, writesMemory, prologue_true_none h]

/-- Past the prologue ENCODE is its own rule (R171). -/
theorem commandWork_encode {s : State} (h : RangesOk s.blk.latch) : commandWork .encode s = encodeBody s.blk s.mem := by
  simp only [commandWork, writesMemory, prologue_true_none h]

section PackRow

variable {b : Block} (m : Memory)

theorem packRowBody_of_bad_dims (h : b.latch.arg0.toNat = 0 ∨ b.latch.srcLen.toNat ≠ 4 * b.latch.arg0.toNat) :
    packRowBody b m = Work.fail [] .invalidSrcDims := if_pos h

theorem packRowBody_of_overflow (hn : b.latch.arg0.toNat ≠ 0) (hlen : b.latch.srcLen.toNat = 4 * b.latch.arg0.toNat)
    (h : b.latch.dstCap.toNat < stride b.latch.arg0.toNat) : packRowBody b m = Work.fail [] .dstOverflow :=
  (if_neg (not_or.mpr ⟨hn, not_not.mpr hlen⟩)).trans (if_pos h)

theorem packRowBody_of_fits (hn : b.latch.arg0.toNat ≠ 0) (hlen : b.latch.srcLen.toNat = 4 * b.latch.arg0.toNat)
    (h : stride b.latch.arg0.toNat ≤ b.latch.dstCap.toNat) :
    packRowBody b m =
      Work.done [⟨b.latch.srcAddr.toNat, 4 * b.latch.arg0.toNat⟩]
        (pack b.cfg (Memory.read m b.latch.srcAddr.toNat (4 * b.latch.arg0.toNat)) b.latch.arg0.toNat) 0 :=
  (if_neg (not_or.mpr ⟨hn, not_not.mpr hlen⟩)).trans (if_neg (Nat.not_lt.mpr h))

end PackRow

/-- One dark pixel sets the first bit of a row of four bytes. -/
theorem pack_one_dark {c : Cfg} {px : Bytes} (h : pixelDark c px 0 = true) :
    pack c px 1 = [0x80, 0x00, 0x00, 0x00] := by
  rw [pack_eq_packFirst, packFirst_succ, if_pos h]
  rfl

/-- Settles O31: past the prologue each clause is one branch of PACKROW's rule. -/
theorem packRowCommand : Obligations.PackRowCommand := by
  rintro s l n ht rfl rfl
  refine ⟨rfl, writerPrologueErrors rfl ht, fun hr hdims => ?dims, fun hr hn hlen hcap => ?overflow,
    fun hr hn hlen hcap hsrc hdst => ⟨?success, pack_length _ _ _⟩,
    fun c hR hG hB hT => pack_one_dark (dark_black hR hG hB hT)⟩
  case dims =>
    exact exec_of_fail_nil (e := .invalidSrcDims) ht
      ((commandWork_packRow hr).trans (packRowBody_of_bad_dims s.mem hdims))
  case overflow =>
    exact exec_of_fail_nil (e := .dstOverflow) ht
      ((commandWork_packRow hr).trans (packRowBody_of_overflow s.mem hn hlen hcap))
  case success =>
    exact exec_of_done rfl ht ((commandWork_packRow hr).trans (packRowBody_of_fits s.mem hn hlen hcap)) hsrc
      (by rwa [pack_length])

/-- The operands name the configuration's raster (R171's first check). -/
def EncodeDimsOk (b : Block) : Prop :=
  b.latch.arg0.toNat = b.cfg.width ∧ b.latch.arg1.toNat = b.cfg.height ∧
    b.latch.srcLen.toNat = 4 * b.cfg.width * b.cfg.height

section Encode

variable {b : Block} (m : Memory)

theorem encodeBody_of_bad_dims (h : ¬EncodeDimsOk b) : encodeBody b m = Work.fail [] .invalidSrcDims := by
  simp only [EncodeDimsOk, not_and_or] at h
  exact if_pos h

section DimsOk

variable (hdims : EncodeDimsOk b)

include hdims

/-- With the operands of the configuration's raster the capacity checks remain. -/
theorem encodeBody_of_dims :
    encodeBody b m =
      if b.cfg.frameLen < 62 + stride b.cfg.width * b.cfg.height then Work.fail [] .sizeContract
      else if b.latch.dstCap.toNat < b.cfg.frameLen then Work.fail [] .dstOverflow
      else
        Work.done [⟨b.latch.srcAddr.toNat, 4 * b.cfg.width * b.cfg.height⟩]
          (bitmap b.cfg (Memory.read m b.latch.srcAddr.toNat (4 * b.cfg.width * b.cfg.height))) 0 := by
  obtain ⟨hw, hh, hlen⟩ := hdims
  exact if_neg (not_or.mpr ⟨not_not.mpr hw, not_or.mpr ⟨not_not.mpr hh, not_not.mpr hlen⟩⟩)

theorem encodeBody_of_short_frame (h : b.cfg.frameLen < 62 + stride b.cfg.width * b.cfg.height) :
    encodeBody b m = Work.fail [] .sizeContract := by
  rw [encodeBody_of_dims m hdims, if_pos h]

theorem encodeBody_of_overflow (hL : 62 + stride b.cfg.width * b.cfg.height ≤ b.cfg.frameLen)
    (h : b.latch.dstCap.toNat < b.cfg.frameLen) : encodeBody b m = Work.fail [] .dstOverflow := by
  rw [encodeBody_of_dims m hdims, if_neg (Nat.not_lt.mpr hL), if_pos h]

theorem encodeBody_of_fits (hL : 62 + stride b.cfg.width * b.cfg.height ≤ b.cfg.frameLen)
    (h : b.cfg.frameLen ≤ b.latch.dstCap.toNat) :
    encodeBody b m =
      Work.done [⟨b.latch.srcAddr.toNat, 4 * b.cfg.width * b.cfg.height⟩]
        (bitmap b.cfg (Memory.read m b.latch.srcAddr.toNat (4 * b.cfg.width * b.cfg.height))) 0 := by
  rw [encodeBody_of_dims m hdims, if_neg (Nat.not_lt.mpr hL), if_neg (Nat.not_lt.mpr h)]

end DimsOk

/-- A success of ENCODE's rule passed every check, and its output is the bitmap of the source (R170, R171). -/
theorem encodeBody_ok {out : Bytes} {val : Word} (h : (encodeBody b m).result = .ok out val) :
    62 + stride b.cfg.width * b.cfg.height ≤ b.cfg.frameLen ∧ b.cfg.frameLen ≤ b.latch.dstCap.toNat ∧
      out = bitmap b.cfg (Memory.read m b.latch.srcAddr.toNat (4 * b.cfg.width * b.cfg.height)) := by
  by_cases hdims : EncodeDimsOk b
  · rw [encodeBody_of_dims m hdims] at h
    split at h
    case isTrue => cases h
    case isFalse hL =>
      split at h
      case isTrue => cases h
      case isFalse hcap =>
        cases h
        exact ⟨Nat.not_lt.mp hL, Nat.not_lt.mp hcap, rfl⟩
  · rw [encodeBody_of_bad_dims m hdims] at h
    cases h

end Encode

/-- Settles O32: past the prologue each clause is one branch of ENCODE's rule, in R171's order. -/
theorem encodeCommand : Obligations.EncodeCommand := by
  rintro s l c ht rfl rfl
  refine ⟨rfl, writerPrologueErrors rfl ht, fun hr hbad => ?dims, fun hr hw hh hlen => ?checked⟩
  case dims =>
    have hdims : ¬EncodeDimsOk s.blk := by simpa only [EncodeDimsOk, not_and_or] using hbad
    exact exec_of_fail_nil (e := .invalidSrcDims) ht
      ((commandWork_encode hr).trans (encodeBody_of_bad_dims s.mem hdims))
  case checked =>
    have hdims : EncodeDimsOk s.blk := ⟨hw, hh, hlen⟩
    refine ⟨fun hL => ?contract, fun hL hcap => ?overflow,
      fun hL hcap hsrc hdst => ⟨?success, bitmap_length _ hL⟩⟩
    case contract =>
      exact exec_of_fail_nil (e := .sizeContract) ht
        ((commandWork_encode hr).trans (encodeBody_of_short_frame s.mem hdims hL))
    case overflow =>
      exact exec_of_fail_nil (e := .dstOverflow) ht
        ((commandWork_encode hr).trans (encodeBody_of_overflow s.mem hdims hL hcap))
    case success =>
      exact exec_of_done rfl ht ((commandWork_encode hr).trans (encodeBody_of_fits s.mem hdims hL hcap)) hsrc
        (by rwa [bitmap_length _ hL])

/-- The status of an error completion is not that of a success (R52, R261). -/
theorem failed_ne_success (e : ErrCode) : Status.failed e ≠ Status.success := by
  cases e <;> decide

/-- An untainted command that was in flight and ends with the status of a success completed with its rule's output. -/
theorem exec_success_inv {i : Instr} {s t : State} (ht : s.blk.taint = false) (hs : s.blk.status = Status.inFlight)
    (h : exec i s = .next t) (hok : t.blk.status = Status.success) :
    ∃ out val, (commandWork i s).result = .ok out val ∧ t = s.complete (writesMemory i) out val := by
  rw [exec_eq_finish] at h
  cases h
  rcases finish_cases s (writesMemory i) (commandWork i s) with
    ⟨_, hf⟩ | ⟨_, ⟨htaint, _⟩ | ⟨_, ⟨out, val, hres, hf⟩ | ⟨e, _, hf⟩⟩⟩
  · rw [hf, hs] at hok
    exact absurd hok (by decide)
  · rw [ht] at htaint
    cases htaint
  · exact ⟨out, val, hres, hf⟩
  · rw [hf] at hok
    exact absurd hok (failed_ne_success e)

/-- What a successful ENCODE leaves at its destination: the bitmap of its source, all `L` bytes (R171). -/
theorem read_dst_after_encode {s t : State} (hm : Memory.wf s.mem = true) (hr : RangesOk s.blk.latch)
    (ht : s.blk.taint = false) (hs : s.blk.status = Status.inFlight) (h : exec .encode s = .next t)
    (hok : t.blk.status = Status.success) :
    Memory.read t.mem s.blk.latch.dstAddr.toNat s.blk.cfg.frameLen =
      bitmap s.blk.cfg (srcBytes s (4 * s.blk.cfg.width * s.blk.cfg.height)) := by
  obtain ⟨out, val, hres, rfl⟩ := exec_success_inv ht hs h hok
  rw [commandWork_encode hr] at hres
  obtain ⟨hL, hcap, hout⟩ := encodeBody_ok s.mem hres
  obtain ⟨_, hdst, _⟩ := hr
  have hlen : out.length = s.blk.cfg.frameLen := by rw [hout, bitmap_length _ hL]
  rw [State.complete_mem, writesMemory, if_pos rfl, ← hlen, Memory.read_write hm _ _ (by omega), hout, srcBytes]

/-- Settles O35: each command leaves the bitmap of its source, and the sources and configurations are equal. -/
theorem encodeIsDeterministic : Obligations.EncodeIsDeterministic := by
  intro s₁ s₂ t₁ t₂ hm₁ hm₂ hcfg ht₁ ht₂ hr₁ hr₂ hs₁ hs₂ hsrc h₁ h₂ hok₁ hok₂
  have hread₁ := read_dst_after_encode hm₁ hr₁ ht₁ hs₁ h₁ hok₁
  have hread₂ := read_dst_after_encode hm₂ hr₂ ht₂ hs₂ h₂ hok₂
  rw [← hcfg] at hread₂
  rw [hread₁, hread₂, hsrc]

end Sys2Proof.Machine
end

section
/-! Proofs about the row copy and the command UNPACKROW (41_decoder.md R192, R194, R195). -/

namespace Sys2Proof.Machine

theorem byteAt_drop (a : Bytes) (o i : Nat) : byteAt (a.drop o) i = byteAt a (o + i) := by
  simp [byteAt]

theorem rowBytes_eq (w : Nat) : rowBytes w = (w + 7) / 8 := rfl

/-- A scanline's bytes all stand in the stored row (R161, R192). -/
theorem rowBytes_le_stride (w : Nat) : rowBytes w ≤ stride w := by
  have hbits := (stride_bounds w).1
  rw [rowBytes_eq]
  omega

section RowCopy

variable {src : Bytes} {rb : Nat} (inv : Bool)

/-- The filter byte is 0 (R137). -/
theorem byteAt_rowCopy_zero : byteAt (rowCopy src rb inv) 0 = 0x00 := rfl

theorem rowCopy_length (h : rb ≤ src.length) : (rowCopy src rb inv).length = 1 + rb := by
  rw [rowCopy, List.length_cons, List.length_map, List.length_take_of_le h, Nat.add_comm]

/-- Behind the filter byte each source byte stands, complemented whole if `inv` (R194). -/
theorem byteAt_rowCopy_succ (h : rb ≤ src.length) {k : Nat} (hk : k < rb) :
    byteAt (rowCopy src rb inv) (k + 1) = if inv then ~~~(byteAt src k) else byteAt src k := by
  have hin : k < src.length := Nat.lt_of_lt_of_le hk h
  simp [byteAt, rowCopy, List.getElem?_take_of_lt hk, hin]

end RowCopy

/-- Settles O37: the length, the filter byte and the copied bytes each have their lemma. -/
theorem rowCopyBytes : Obligations.RowCopyBytes := fun _ _ inv h =>
  ⟨rowCopy_length inv h, byteAt_rowCopy_zero inv, fun _ hk => byteAt_rowCopy_succ inv h hk⟩

/-- Past the prologue UNPACKROW is its own rule (R195). -/
theorem commandWork_unpackRow {s : State} (h : RangesOk s.blk.latch) :
    commandWork .unpackRow s = unpackRowBody s.blk s.mem := by
  simp only [commandWork, writesMemory, prologue_true_none h]

section UnpackRow

variable {b : Block} (m : Memory)

theorem unpackRowBody_of_no_pixels (h : b.latch.arg0.toNat = 0) : unpackRowBody b m = Work.fail [] .invalidShape :=
  if_pos h

theorem unpackRowBody_of_short_source (hn : b.latch.arg0.toNat ≠ 0)
    (h : b.latch.srcLen.toNat < rowBytes b.latch.arg0.toNat) : unpackRowBody b m = Work.fail [] .truncated :=
  (if_neg hn).trans (if_pos h)

theorem unpackRowBody_of_overflow (hn : b.latch.arg0.toNat ≠ 0)
    (hlen : rowBytes b.latch.arg0.toNat ≤ b.latch.srcLen.toNat)
    (h : b.latch.dstCap.toNat < 1 + rowBytes b.latch.arg0.toNat) : unpackRowBody b m = Work.fail [] .dstOverflow :=
  (if_neg hn).trans ((if_neg (Nat.not_lt.mpr hlen)).trans (if_pos h))

theorem unpackRowBody_of_fits (hn : b.latch.arg0.toNat ≠ 0)
    (hlen : rowBytes b.latch.arg0.toNat ≤ b.latch.srcLen.toNat)
    (h : 1 + rowBytes b.latch.arg0.toNat ≤ b.latch.dstCap.toNat) :
    unpackRowBody b m =
      Work.done [⟨b.latch.srcAddr.toNat, rowBytes b.latch.arg0.toNat⟩]
        (rowCopy (Memory.read m b.latch.srcAddr.toNat (rowBytes b.latch.arg0.toNat)) (rowBytes b.latch.arg0.toNat)
          b.latch.inv) 0 :=
  (if_neg hn).trans ((if_neg (Nat.not_lt.mpr hlen)).trans (if_neg (Nat.not_lt.mpr h)))

end UnpackRow

/-- The scanline that UNPACKROW makes of its source is complete. -/
theorem rowCopy_srcBytes_length (s : State) (rb : Nat) (inv : Bool) :
    (rowCopy (srcBytes s rb) rb inv).length = 1 + rb :=
  rowCopy_length inv (Memory.read_length s.mem _ rb).ge

/-- Settles O38: past the prologue each clause is one branch of UNPACKROW's rule, in R195's order. -/
theorem unpackRowCommand : Obligations.UnpackRowCommand := by
  rintro s l n rb ht rfl rfl rfl
  refine ⟨rfl, writerPrologueErrors rfl ht, fun hr hn => ?shape, fun hr hn hlen => ?truncated,
    fun hr hn hlen hcap => ?overflow,
    fun hr hn hlen hcap hsrc hdst => ⟨?success, rowCopy_srcBytes_length s _ _⟩, ?inverted⟩
  case shape =>
    exact exec_of_fail_nil (e := .invalidShape) ht
      ((commandWork_unpackRow hr).trans (unpackRowBody_of_no_pixels s.mem hn))
  case truncated =>
    exact exec_of_fail_nil (e := .truncated) ht
      ((commandWork_unpackRow hr).trans (unpackRowBody_of_short_source s.mem hn hlen))
  case overflow =>
    exact exec_of_fail_nil (e := .dstOverflow) ht
      ((commandWork_unpackRow hr).trans (unpackRowBody_of_overflow s.mem hn hlen hcap))
  case success =>
    exact exec_of_done rfl ht ((commandWork_unpackRow hr).trans (unpackRowBody_of_fits s.mem hn hlen hcap)) hsrc
      (by rwa [rowCopy_srcBytes_length])
  case inverted => decide

end Sys2Proof.Machine
end

section
/-! Proofs about the validation of a bitmap (41_decoder.md R190, R191). -/

namespace Sys2Proof.Machine

/-- Both headers are there, with a 40-byte info header and one bit per pixel (R191, the first three checks). -/
def FormatOk (buf : Bytes) : Prop := 54 ≤ buf.length ∧ bmpHeaderSize buf = 40 ∧ bmpBitsPerPixel buf = 1

/-- The dimensions that R191's fourth check turns down. -/
def BadDims (buf : Bytes) : Prop := bmpWidth buf ≤ 0 ∨ bmpHeight buf = 0 ∨ bmpHeight buf = -2 ^ 31

/-- Where the pixel data ends (R191, last check). -/
def pixelEnd (buf : Bytes) : Nat := bmpOffset buf + stride (bmpWidth buf).toNat * (bmpHeight buf).natAbs

section Validate

variable {buf : Bytes}

theorem validate_of_no_headers (h : buf.length < 54) : validate buf = some .truncated := if_pos h

theorem validate_of_bad_format (hlen : 54 ≤ buf.length) (h : bmpHeaderSize buf ≠ 40 ∨ bmpBitsPerPixel buf ≠ 1) :
    validate buf = some .invalidShape := by
  rw [validate, if_neg (Nat.not_lt.mpr hlen)]
  by_cases hsize : bmpHeaderSize buf = 40
  · rw [if_neg (not_not.mpr hsize), if_pos (h.resolve_left (not_not.mpr hsize))]
  · rw [if_pos hsize]

section FormatOk

variable (hf : FormatOk buf)

include hf

theorem validate_of_bad_dims (h : BadDims buf) : validate buf = some .invalidShape := by
  obtain ⟨hlen, hsize, hbits⟩ := hf
  rw [validate, if_neg (Nat.not_lt.mpr hlen), if_neg (not_not.mpr hsize), if_neg (not_not.mpr hbits)]
  exact if_pos h

/-- With format and dimensions accepted the two remaining checks are of the length. -/
theorem validate_of_short (hd : ¬BadDims buf) (h : buf.length < 62 ∨ buf.length < pixelEnd buf) :
    validate buf = some .truncated := by
  obtain ⟨hlen, hsize, hbits⟩ := hf
  rw [validate, if_neg (Nat.not_lt.mpr hlen), if_neg (not_not.mpr hsize), if_neg (not_not.mpr hbits)]
  exact (if_neg hd).trans ((ite_or ..).symm.trans (if_pos h))

theorem validate_of_fits (hd : ¬BadDims buf) (hhead : 62 ≤ buf.length) (hpixels : pixelEnd buf ≤ buf.length) :
    validate buf = none := by
  obtain ⟨hlen, hsize, hbits⟩ := hf
  rw [validate, if_neg (Nat.not_lt.mpr hlen), if_neg (not_not.mpr hsize), if_neg (not_not.mpr hbits)]
  exact (if_neg hd).trans ((if_neg (Nat.not_lt.mpr hhead)).trans (if_neg (Nat.not_lt.mpr hpixels)))

end FormatOk

/-- A validated bitmap holds its pixel data. -/
theorem pixelEnd_le_of_valid (h : validate buf = none) : pixelEnd buf ≤ buf.length := by
  unfold validate at h
  split_ifs at h with _ _ _ _ _ hpixels
  exact Nat.not_lt.mp hpixels

end Validate

/-- Settles O39: one lemma for each check, each past the checks before it. -/
theorem bitmapValidationOrder : Obligations.BitmapValidationOrder := by
  refine fun buf => ⟨validate_of_no_headers, validate_of_bad_format,
    fun hlen hsize hbits => validate_of_bad_dims ⟨hlen, hsize, hbits⟩, fun hlen hsize hbits hdims => ?shape⟩
  case shape =>
    have hf : FormatOk buf := ⟨hlen, hsize, hbits⟩
    exact ⟨fun h => validate_of_short hf hdims (.inl h), fun _ h => validate_of_short hf hdims (.inr h),
      validate_of_fits hf hdims⟩

end Sys2Proof.Machine
end

section
/-! Proofs about the raw scanlines of a validated bitmap and about DECODE after ENCODE (41_decoder.md R192 to R196,
R201). -/

namespace Sys2Proof.Machine

section Rows

variable {f : Nat → Bytes} {len n : Nat} (hlen : ∀ y, y < n → (f y).length = len)

include hlen

/-- Rows of one length laid end to end. -/
theorem flatMap_rows_length : ((List.range n).flatMap f).length = n * len := by
  have hmap : (List.range n).map (fun y => (f y).length) = List.replicate n len :=
    List.eq_replicate_iff.mpr ⟨by simp, by simpa using hlen⟩
  rw [List.length_flatMap, hmap, List.sum_replicate, smul_eq_mul]

/-- Byte `k` of row `y`. -/
theorem byteAt_flatMap_rows {y k : Nat} (hy : y < n) (hk : k < len) :
    byteAt ((List.range n).flatMap f) (y * len + k) = byteAt (f y) k := by
  induction n with
  | zero => omega
  | succ n ih =>
    have hinit : ∀ y, y < n → (f y).length = len := fun y hy => hlen y (by omega)
    have hsize := flatMap_rows_length hinit
    rw [List.range_succ, List.flatMap_append, List.flatMap_singleton]
    by_cases hlast : y = n
    · subst hlast
      rw [byteAt_append_right _ (by omega), hsize, Nat.add_sub_cancel_left]
    · have hbefore : (y + 1) * len ≤ n * len := Nat.mul_le_mul_right _ (by omega)
      rw [Nat.add_one_mul] at hbefore
      rw [byteAt_append_left _ (by omega), ih hinit (by omega)]

end Rows

/-- Scanline `y`, top row first: the row copy of its stored row (R196). -/
def scanline (buf : Bytes) (y : Nat) : Bytes :=
  rowCopy (buf.drop (bmpOffset buf + storedRow (bmpHeight buf) y * stride (bmpWidth buf).toNat))
    (rowBytes (bmpWidth buf).toNat) (invertFlag buf)

theorem rawScanlines_eq (buf : Bytes) :
    rawScanlines buf = (List.range (bmpHeight buf).natAbs).flatMap (scanline buf) := rfl

theorem storedRow_lt {h : Int} {y : Nat} (hy : y < h.natAbs) : storedRow h y < h.natAbs := by
  rw [storedRow]
  split <;> omega

section Scanline

variable {buf : Bytes} (hvalid : validate buf = none) {y : Nat} (hy : y < (bmpHeight buf).natAbs)

include hvalid hy

/-- The stored row of a scanline lies in a validated bitmap. -/
theorem rowBytes_le_storedRow_length :
    rowBytes (bmpWidth buf).toNat ≤
      (buf.drop (bmpOffset buf + storedRow (bmpHeight buf) y * stride (bmpWidth buf).toNat)).length := by
  have hend := pixelEnd_le_of_valid hvalid
  have hrow := rowBytes_le_stride (bmpWidth buf).toNat
  have hrows := Nat.mul_le_mul_right (stride (bmpWidth buf).toNat) (Nat.succ_le_of_lt (storedRow_lt hy))
  rw [pixelEnd, Nat.mul_comm (stride _)] at hend
  rw [Nat.succ_mul] at hrows
  rw [List.length_drop]
  omega

theorem scanline_length : (scanline buf y).length = 1 + rowBytes (bmpWidth buf).toNat :=
  rowCopy_length _ (rowBytes_le_storedRow_length hvalid hy)

/-- Behind the filter byte stand the bytes of the stored row, complemented as palette entry 0 asks (R193, R196). -/
theorem byteAt_scanline_succ {k : Nat} (hk : k < rowBytes (bmpWidth buf).toNat) :
    byteAt (scanline buf y) (k + 1) =
      let b := byteAt buf (bmpOffset buf + storedRow (bmpHeight buf) y * stride (bmpWidth buf).toNat + k)
      if invertFlag buf then ~~~b else b := by
  rw [scanline, byteAt_rowCopy_succ _ (rowBytes_le_storedRow_length hvalid hy) hk, byteAt_drop]

end Scanline

section RawScanlines

variable {buf : Bytes} (hvalid : validate buf = none)

include hvalid

theorem rawScanlines_length :
    (rawScanlines buf).length = (bmpHeight buf).natAbs * (1 + rowBytes (bmpWidth buf).toNat) :=
  flatMap_rows_length fun _ hy => scanline_length hvalid hy

theorem byteAt_rawScanlines {y k : Nat} (hy : y < (bmpHeight buf).natAbs)
    (hk : k < 1 + rowBytes (bmpWidth buf).toNat) :
    byteAt (rawScanlines buf) (y * (1 + rowBytes (bmpWidth buf).toNat) + k) = byteAt (scanline buf y) k :=
  byteAt_flatMap_rows (fun _ hy => scanline_length hvalid hy) hy hk

end RawScanlines

theorem invertFlag_iff (buf : Bytes) : invertFlag buf = true ↔ le32 buf 54 = 0x00FFFFFF := decide_eq_true_iff

/-- Settles O40: a byte of the scanlines is its scanline's filter byte or a byte of the stored row. -/
theorem rawScanlineBytes : Obligations.RawScanlineBytes := by
  rintro buf w rows rb hvalid rfl rfl rfl
  refine ⟨rawScanlines_length hvalid, fun y k hy hk => (byteAt_rawScanlines hvalid hy hk).trans ?_⟩
  cases k with
  | zero => rfl
  | succ k =>
    have hk' : k < rowBytes (bmpWidth buf).toNat := by rw [rowBytes_eq, bmpWidth]; omega
    rw [byteAt_scanline_succ hvalid hy hk', if_neg k.succ_ne_zero]
    simp only [invertFlag_iff]
    rfl

section Encoded

variable {c : Cfg} (ras : Bytes) (hL : 62 + stride c.width * c.height ≤ c.frameLen)

include hL

theorem bmpOffset_bitmap : bmpOffset (bitmap c ras) = 62 := le32_bitmap_head ras hL (by omega)

theorem bmpHeaderSize_bitmap : bmpHeaderSize (bitmap c ras) = 40 := le32_bitmap_head ras hL (by omega)

theorem bmpBitsPerPixel_bitmap : bmpBitsPerPixel (bitmap c ras) = 1 := le16_bitmap_head ras hL (by omega)

/-- ENCODE's palette entry 0 is white, so DECODE complements the rows (R193). -/
theorem invertFlag_bitmap : invertFlag (bitmap c ras) = true := by
  have hpalette : le32 (bitmapHead c) 54 = le32 [0xFF, 0xFF, 0xFF, 0x00] 0 := rfl
  rw [invertFlag_iff, le32_bitmap_head ras hL (by omega), hpalette]
  decide

theorem bmpWidth_bitmap (hwf : c.wf = true) : bmpWidth (bitmap c ras) = c.width := by
  obtain ⟨⟨_, hW⟩, _⟩ := (Cfg.wf_iff c).mp hwf
  have hfield : le32 (bitmapHead c) 18 = c.width := le32_LE32 (by omega)
  rw [bmpWidth, sle32, le32_bitmap_head ras hL (by omega), hfield, s32_of_lt (by omega)]

theorem bmpHeight_bitmap (hwf : c.wf = true) : bmpHeight (bitmap c ras) = c.height := by
  obtain ⟨_, ⟨_, hH⟩, _⟩ := (Cfg.wf_iff c).mp hwf
  have hfield : le32 (bitmapHead c) 22 = c.height := le32_LE32 (by omega)
  rw [bmpHeight, sle32, le32_bitmap_head ras hL (by omega), hfield, s32_of_lt (by omega)]

/-- ENCODE's output passes every check of R191. -/
theorem validate_bitmap (hwf : c.wf = true) : validate (bitmap c ras) = none := by
  obtain ⟨⟨hW, _⟩, ⟨hH, _⟩, _⟩ := (Cfg.wf_iff c).mp hwf
  have hlen := bitmap_length ras hL
  have hformat : FormatOk (bitmap c ras) :=
    ⟨by omega, bmpHeaderSize_bitmap ras hL, bmpBitsPerPixel_bitmap ras hL⟩
  have hdims : ¬BadDims (bitmap c ras) := by
    rw [BadDims, bmpWidth_bitmap ras hL hwf, bmpHeight_bitmap ras hL hwf]
    omega
  have hpixels : pixelEnd (bitmap c ras) ≤ (bitmap c ras).length := by
    rw [pixelEnd, bmpOffset_bitmap ras hL, bmpWidth_bitmap ras hL hwf, bmpHeight_bitmap ras hL hwf, hlen]
    exact hL
  exact validate_of_fits hformat hdims (by omega) hpixels

/-- Scanline `y` of an encoded raster is the complement of its packed row `y`: two reversals of the row order cancel. -/
theorem byteAt_scanline_bitmap (hwf : c.wf = true) {y k : Nat} (hy : y < c.height) (hk : k < rowBytes c.width) :
    byteAt (scanline (bitmap c ras) y) (k + 1) = ~~~(byteAt (pack c (rasterRow c.width ras y) c.width) k) := by
  have hW := bmpWidth_bitmap ras hL hwf
  have hH := bmpHeight_bitmap ras hL hwf
  have hstored : storedRow (bmpHeight (bitmap c ras)) y = c.height - 1 - y := by
    rw [storedRow, hH, if_pos (by omega), Int.natAbs_natCast]
  have hrow := rowBytes_le_stride c.width
  rw [byteAt_scanline_succ (validate_bitmap ras hL hwf) (by rwa [hH]) (by rwa [hW]), hstored, bmpOffset_bitmap ras hL,
    invertFlag_bitmap ras hL, hW, if_pos rfl, Int.toNat_natCast, byteAt_bitmap_row ras hL (by omega) (by omega),
    show c.height - 1 - (c.height - 1 - y) = y by omega]

end Encoded

/-- A row that is the complement of another has the complement of each of its pixels' bits. -/
theorem pixelBit_of_byteAt_not {row src : Bytes} {x : Nat} (h : byteAt row (x / 8) = ~~~(byteAt src (x / 8))) :
    pixelBit row x = !(pixelBit src x) := by
  have hbit : 7 - x % 8 < 8 := by omega
  rw [pixelBit, pixelBit, h, BitVec.getLsbD_not, decide_eq_true hbit, Bool.true_and]

/-- Settles O43: each scanline is the complement of the raster row that ENCODE packed. -/
theorem polarityRoundTrip : Obligations.PolarityRoundTrip := by
  intro c ras hwf hL
  have hvalid := validate_bitmap ras hL hwf
  have hW : (bmpWidth (bitmap c ras)).toNat = c.width := by rw [bmpWidth_bitmap ras hL hwf, Int.toNat_natCast]
  have hH : (bmpHeight (bitmap c ras)).natAbs = c.height := by rw [bmpHeight_bitmap ras hL hwf, Int.natAbs_natCast]
  refine ⟨hvalid, hW, hH, fun y x hy hx => ?_⟩
  have hbyte : x / 8 < rowBytes c.width := by rw [rowBytes_eq]; omega
  have hraw := byteAt_rawScanlines hvalid (y := y) (k := x / 8 + 1) (by rwa [hH]) (by rw [hW]; omega)
  rw [hW, byteAt_scanline_bitmap ras hL hwf hy hbyte, rowBytes_eq, Nat.add_comm (x / 8), ← Nat.add_assoc,
    ← byteAt_drop] at hraw
  rw [pixelBit_of_byteAt_not hraw, pixelBit_pack, decide_eq_true hx, Bool.true_and, pixelDark_rasterRow c ras y hx]

end Sys2Proof.Machine
end

section
/-! Proofs about the values of CRC-32 and Adler-32 (42_checksum_compress.md R230, R231, R233 to R235). -/

namespace Sys2Proof.Machine

/-- What R232 answers for an empty source: the initial value and the final exclusive or cancel. -/
@[simp] theorem crc32_nil : crc32 [] = 0x00000000 := BitVec.xor_self

theorem crc32_typeIEND : crc32 typeIEND = 0xAE426082 := by decide +kernel

/-- A chunk ends in the CRC of its type and payload (R132, R231). -/
theorem chunk_drop_crc (t p : Bytes) : (chunk t p).drop (4 + t.length + p.length) = BE32 (crc32 (t ++ p)).toNat :=
  List.drop_left' (by simp only [List.length_append, BE32_length])

/-- Settles O45: four computed values, and the split of a chunk before its CRC. -/
theorem crcCheckValues : Obligations.CrcCheckValues := by
  refine ⟨crc32_nil, ?digits, crc32_typeIEND, ?ihdr, chunk_drop_crc⟩
  case digits => decide +kernel
  case ihdr => decide +kernel

@[simp] theorem adlerSums_nil : adlerSums [] = (1, 0) := rfl

theorem adlerSums_concat (d : Bytes) (x : Byte) : adlerSums (d ++ [x]) = adlerByte (adlerSums d) x :=
  List.foldl_concat _ _ _ _

/-- Both sums are below the modulus after every byte, whatever they were before it. -/
theorem adlerByte_lt (q : Nat × Nat) (x : Byte) : (adlerByte q x).1 < 65521 ∧ (adlerByte q x).2 < 65521 :=
  ⟨Nat.mod_lt _ (by decide), Nat.mod_lt _ (by decide)⟩

theorem adlerSums_lt (d : Bytes) : (adlerSums d).1 < 65521 ∧ (adlerSums d).2 < 65521 := by
  rcases d.eq_nil_or_concat' with rfl | ⟨d, x, rfl⟩
  · decide
  · rw [adlerSums_concat]
    exact adlerByte_lt _ x

/-- The checksum fits `RESULT` (R235). -/
theorem adler32_lt (d : Bytes) : adler32 d < 2 ^ 32 := by
  obtain ⟨ha, hb⟩ := adlerSums_lt d
  rw [adler32]
  omega

/-- The sums after one byte `n` times: the first sum takes it `n` times, the second `1 + 2 + … + n` times, and the 1 that
the first sum starts with `n` times. -/
theorem adlerSums_replicate (n : Nat) (x : Byte) :
    adlerSums (List.replicate n x) =
      ((1 + n * x.toNat) % 65521, (n + (n + 1).choose 2 * x.toNat) % 65521) := by
  induction n with
  | zero => simp
  | succ n ih =>
    have hchoose : (n + 1 + 1).choose 2 = n + 1 + (n + 1).choose 2 := by
      rw [Nat.choose_succ_succ', Nat.choose_one_right]
    rw [List.replicate_succ', adlerSums_concat, ih, adlerByte, hchoose]
    simp only [Nat.mod_add_mod, Nat.add_mod_mod, Prod.mk.injEq]
    constructor <;> congr 1 <;> ring

theorem adler32_replicate (n : Nat) (x : Byte) :
    adler32 (List.replicate n x) =
      (n + (n + 1) * n / 2 * x.toNat) % 65521 * 65536 + (1 + n * x.toNat) % 65521 := by
  rw [adler32, adlerSums_replicate, Nat.choose_two_right, Nat.add_sub_cancel]

@[simp] theorem adler32_nil : adler32 [] = 0x00000001 := rfl

theorem adler32_wikipedia :
    adler32 [0x57, 0x69, 0x6B, 0x69, 0x70, 0x65, 0x64, 0x69, 0x61] = 0x11E60398 := by decide

/-- Settles O47: the short sequences are computed, the long ones by the sums of a repeated byte. -/
theorem adlerCheckValues : Obligations.AdlerCheckValues := by
  refine ⟨adler32_nil, ?letter, adler32_wikipedia, ?digits, ?ff5552, ?ff65536⟩
  case letter => decide
  case digits => decide
  case ff5552 =>
    rw [adler32_replicate]
    decide
  case ff65536 =>
    rw [adler32_replicate]
    decide

end Sys2Proof.Machine
end

section
/-! Proofs about the commands CRC32 and ADLER32 (42_checksum_compress.md R232, R235, with the prologue of R263). -/

namespace Sys2Proof.Machine

/-- Every untainted command whose source wraps completes with ADDR_RANGE (R263). -/
theorem exec_of_not_srcOk (i : Instr) {s : State} (ht : s.blk.taint = false) (h : ¬SrcOk s.blk.latch) :
    exec i s = .next (errorCompletion s 7) :=
  exec_of_fail_nil (e := .addrRange) ht (by simp only [commandWork, prologue_src h])

/-- Command `i` writes no memory, and past the prologue it reads the source range and answers `f` of it. -/
def ComputesChecksum (i : Instr) (f : Bytes → Word) : Prop :=
  writesMemory i = false ∧
    ∀ s : State, SrcOk s.blk.latch →
      commandWork i s = Work.done [s.blk.latch.src] [] (f (srcBytes s s.blk.latch.srcLen.toNat))

/-- CRC32 has no check of its own (R232). -/
theorem computesChecksum_crc32 : ComputesChecksum .crc32 crc32 := by
  refine ⟨rfl, fun s h => ?_⟩
  simp only [commandWork, writesMemory, prologue_false_none h]
  rfl

/-- ADLER32 has no check of its own (R235). -/
theorem computesChecksum_adler32 : ComputesChecksum .adler32 (fun d => BitVec.ofNat 32 (adler32 d)) := by
  refine ⟨rfl, fun s h => ?_⟩
  simp only [commandWork, writesMemory, prologue_false_none h]
  rfl

section Checksum

variable {i : Instr} {f : Bytes → Word} (hi : ComputesChecksum i f) {s : State} (ht : s.blk.taint = false)

include hi ht

/-- An untainted checksum command on an admitted source of `n` bytes `d` completes with `f d` (R52, R53). -/
theorem exec_of_checksum {n : Nat} {d : Bytes} (hn : s.blk.latch.srcLen.toNat = n) (hs : SrcOk s.blk.latch)
    (hadm : Admits s.blk s.blk.latch.srcAddr.toNat n) (hd : srcBytes s n = d) :
    exec i s = .next (checksumCompletion s (f d)) := by
  obtain ⟨hw, hwork⟩ := hi
  subst hn hd
  have hsrc : admittedAll s.blk [s.blk.latch.src] = true :=
    (admittedAll_iff _ _).mpr fun r hr => List.mem_singleton.mp hr ▸ hadm
  rw [exec_eq_finish, hwork s hs, hw, finish_done ht false [] _ hsrc, complete_eq_checksumCompletion]

/-- An empty source never wraps and needs no admission. -/
theorem exec_of_checksum_empty (hlen : s.blk.latch.srcLen = 0) : exec i s = .next (checksumCompletion s (f [])) := by
  have hn : s.blk.latch.srcLen.toNat = 0 := congrArg BitVec.toNat hlen
  have haddr := s.blk.latch.srcAddr.isLt
  exact exec_of_checksum hi ht hn (by rw [SrcOk]; omega) (fun a _ _ => by omega) rfl

end Checksum

/-- Settles O46: the prologue's one error, and CRC32 as a checksum command. -/
theorem crc32Command : Obligations.Crc32Command := by
  rintro s l ht rfl
  have hcrc := computesChecksum_crc32
  refine ⟨rfl, exec_of_not_srcOk .crc32 ht, fun hs hadm => exec_of_checksum hcrc ht rfl hs hadm rfl,
    fun hlen => ?empty, fun hlen hs hadm hsrc => ?iend⟩
  case empty => rw [exec_of_checksum_empty hcrc ht hlen, crc32_nil]
  case iend => rw [exec_of_checksum hcrc ht (congrArg BitVec.toNat hlen) hs hadm hsrc, ← typeIEND, crc32_typeIEND]

/-- Settles O48: the prologue's one error, ADLER32 as a checksum command, and the bound of the sums. -/
theorem adler32Command : Obligations.Adler32Command := by
  rintro s l ht rfl
  have hadler := computesChecksum_adler32
  refine ⟨rfl, exec_of_not_srcOk .adler32 ht, fun hs hadm => exec_of_checksum hadler ht rfl hs hadm rfl,
    exec_of_checksum_empty hadler ht, fun hlen hs hadm hsrc => ?wikipedia, fun d => ?sums⟩
  case wikipedia =>
    rw [exec_of_checksum hadler ht (congrArg BitVec.toNat hlen) hs hadm hsrc, adler32_wikipedia]
    rfl
  case sums =>
    obtain ⟨ha, hb⟩ := adlerSums_lt d
    exact ⟨Nat.le_of_lt_succ ha, Nat.le_of_lt_succ hb, adler32_lt d⟩

end Sys2Proof.Machine
end

section
/-! Proofs about the command ZLIB (42_checksum_compress.md R238, with the stream of 30_encoding.md R136). -/

namespace Sys2Proof.Machine

/-- An untainted command whose rule raises an error after one admitted read completes with that error (R53, R264). -/
theorem exec_of_fail {i : Instr} {s : State} {r : Range} {e : ErrCode} (ht : s.blk.taint = false)
    (h : commandWork i s = Work.fail [r] e) (hsrc : Admits s.blk r.base r.size) :
    exec i s = .next (errorCompletion s e.code) := by
  have hadm : admittedAll s.blk [r] = true := (admittedAll_iff _ _).mpr fun q hq => List.mem_singleton.mp hq ▸ hsrc
  rw [exec_eq_finish, h, finish_fail ht _ e hadm, raise_eq_errorCompletion]

/-- Past the prologue ZLIB is its own rule (R238). -/
theorem commandWork_zlib {s : State} (h : RangesOk s.blk.latch) : commandWork .zlib s = zlibBody s.blk s.mem := by
  simp only [commandWork, writesMemory, prologue_true_none h]

theorem zlibBody_of_overflow {s : State}
    (h : s.blk.latch.dstCap.toNat < (zstream s.blk.cfg (srcBytes s s.blk.latch.srcLen.toNat)).length) :
    zlibBody s.blk s.mem = Work.fail [s.blk.latch.src] .dstOverflow := if_pos h

theorem zlibBody_of_fits {s : State}
    (h : (zstream s.blk.cfg (srcBytes s s.blk.latch.srcLen.toNat)).length ≤ s.blk.latch.dstCap.toNat) :
    zlibBody s.blk s.mem =
      Work.done [s.blk.latch.src] (zstream s.blk.cfg (srcBytes s s.blk.latch.srcLen.toNat)) 0 :=
  if_neg (Nat.not_lt.mpr h)

/-- The three parts of the stream (R136). -/
theorem zstream_eq (c : Cfg) (raw : Bytes) :
    zstream c raw = [c.zlibCmf, c.zlibFlg] ++ deflateBody c.deflate raw ++ BE32 (adler32 raw) :=
  (List.append_assoc _ _ _).symm

/-- The stream of an empty source ends in the Adler-32 value 1 (R238). -/
theorem zstream_nil (c : Cfg) :
    zstream c [] = [c.zlibCmf, c.zlibFlg] ++ deflateBody c.deflate [] ++ [0x00, 0x00, 0x00, 0x01] := by
  have htrailer : BE32 1 = [0x00, 0x00, 0x00, 0x01] := by decide
  rw [zstream_eq, adler32_nil, htrailer]

section Stored

variable {c : Cfg} (hstored : c.deflate = .stored) (hcmf : c.zlibCmf = 0x78) (hflg : c.zlibFlg = 0xDA)

include hstored hcmf hflg

/-- The stream of the reference instance under the reference header (R237). -/
theorem zstream_stored (raw : Bytes) :
    zstream c raw = [0x78, 0xDA] ++ deflateStored raw ++ BE32 (adler32 raw) := by
  rw [zstream_eq, hstored, hcmf, hflg, deflateBody]

theorem zstream_stored_nil :
    zstream c [] = [0x78, 0xDA, 0x01, 0x00, 0x00, 0xFF, 0xFF, 0x00, 0x00, 0x00, 0x01] := by
  rw [zstream_stored hstored hcmf hflg]
  decide

/-- R238's example of one stored block. -/
theorem zstream_stored_scanlines :
    zstream c [0x00, 0x53, 0x3F, 0x00, 0x00, 0x3F] =
      [0x78, 0xDA, 0x01, 0x06, 0x00, 0xF9, 0xFF, 0x00, 0x53, 0x3F, 0x00, 0x00, 0x3F, 0x02, 0xE0, 0x00, 0xD2] := by
  rw [zstream_stored hstored hcmf hflg]
  decide

end Stored

/-- Settles O49: past the prologue each clause is one branch of ZLIB's rule, whose stream is `zstream` of the source. -/
theorem zlibCommand : Obligations.ZlibCommand := by
  rintro s l d z ht rfl rfl hz
  obtain rfl : z = zstream s.blk.cfg (srcBytes s s.blk.latch.srcLen.toNat) := hz.trans (zstream_eq _ _).symm
  have hempty : s.blk.latch.srcLen = 0 → srcBytes s s.blk.latch.srcLen.toNat = [] := fun hlen => by rw [hlen]; rfl
  refine ⟨rfl, writerPrologueErrors rfl ht, fun hr hsrc => ⟨fun hcap => ?overflow, fun hcap hdst => ?success⟩,
    fun hlen => ?empty,
    fun hstored hcmf hflg => ⟨fun hlen => ?storedEmpty, fun hd => ?storedScanlines⟩⟩
  case overflow =>
    exact exec_of_fail (e := .dstOverflow) ht ((commandWork_zlib hr).trans (zlibBody_of_overflow hcap)) hsrc
  case success => exact exec_of_done rfl ht ((commandWork_zlib hr).trans (zlibBody_of_fits hcap)) hsrc hdst
  case empty => rw [hempty hlen, zstream_nil]
  case storedEmpty => rw [hempty hlen, zstream_stored_nil hstored hcmf hflg]
  case storedScanlines => rw [hd, zstream_stored_scanlines hstored hcmf hflg]

end Sys2Proof.Machine
end

section
/-! Proofs about the illegal command word and the error completion (60_exceptions.md R261, R262, R264). -/

namespace Sys2Proof.Machine

/-- Opcodes of commands are 1 to 7 (R111). -/
theorem opcode_bounds (i : Instr) : 1 ≤ opcode i ∧ opcode i ≤ 7 := by
  cases i <;> decide

/-- A word that decodes has zeros in `RSVD` and its command's opcode in `OP` (R110, R111). -/
theorem decodeWord_ok_fields {w : Word} {i : Instr} (h : decodeWord w = .ok i) :
    rsvdField w = 0 ∧ opField w = opcode i := by
  unfold decodeWord at h
  split at h
  case isTrue => cases h
  case isFalse hrsvd =>
    split at h <;> cases h
    all_goals exact ⟨not_not.mp hrsvd, ‹_›⟩

/-- The decoder rejects every illegal word (R113, R262). -/
theorem decodeWord_error_of_illegal {w : Word} (h : w.toNat / 16 ≠ 0 ∨ w.toNat % 16 = 0 ∨ 8 ≤ w.toNat % 16) :
    ∃ e, decodeWord w = .error e := by
  cases hd : decodeWord w with
  | error e => exact ⟨e, rfl⟩
  | ok i =>
    obtain ⟨hrsvd, hop⟩ := decodeWord_ok_fields hd
    have hbounds := opcode_bounds i
    rw [rsvdField] at hrsvd
    rw [opField] at hop
    omega

/-- A rejected word in flight, untainted, completes with ILLEGAL_CMD: it accesses nothing, so it needs no admission
(R262). -/
theorem blockTurn_of_rejected {s : State} {e : DecodeError} (hp : s.blk.phase = .busy) (ht : s.blk.taint = false)
    (hd : decodeWord s.blk.latch.cmd = .error e) : s.blockTurn = .next (errorCompletion s 5) := by
  simp only [State.blockTurn, hp, hd, State.finishIllegal]
  rw [finish_fail_nil ht, raise_eq_errorCompletion, ErrCode.code]

/-- A scheduled turn of the instance in focus is its block's turn with the turn taken off (R20). -/
theorem step_of_schedule_block_zero {s : State} {ts : List Turn} (h : s.schedule = .block 0 :: ts) :
    step s = ({ s with schedule := ts } : State).blockTurn := by
  rw [step_eq_runTurn, h]
  rfl

/-- Settles O6: the decoder rejects an illegal word, and the block's turn on a rejected word is ILLEGAL_CMD. -/
theorem illegalWordCompletesWithError : Obligations.IllegalWordCompletesWithError := by
  intro s ts hs hp ht hw
  obtain ⟨e, hd⟩ := decodeWord_error_of_illegal hw
  rw [step_of_schedule_block_zero hs]
  exact blockTurn_of_rejected (s := { s with schedule := ts }) hp ht hd

/-- Error codes are 1 to 8 (R261). -/
theorem ErrCode.code_bounds (e : ErrCode) : 1 ≤ e.code ∧ e.code ≤ 8 := by
  cases e <;> decide

/-- An untainted command that was in flight and ends with ERR set completed with its rule's error (R264). -/
theorem exec_error_inv {i : Instr} {s t : State} (ht : s.blk.taint = false) (hs : s.blk.status = Status.inFlight)
    (h : exec i s = .next t) (herr : Status.err t.blk.status = true) :
    ∃ e, (commandWork i s).result = .err e ∧ t = errorCompletion s e.code := by
  rw [exec_eq_finish] at h
  cases h
  rcases finish_cases s (writesMemory i) (commandWork i s) with
    ⟨_, hf⟩ | ⟨_, ⟨htaint, _⟩ | ⟨_, ⟨out, val, _, hf⟩ | ⟨e, hres, hf⟩⟩⟩
  · have hclear : Status.err Status.inFlight = false := by decide
    rw [hf, hs, hclear] at herr
    cases herr
  · rw [ht] at htaint
    cases htaint
  · have hclear : Status.err Status.success = false := by decide
    rw [hf, State.complete_blk_status, hclear] at herr
    cases herr
  · exact ⟨e, hres, hf.trans (raise_eq_errorCompletion s e)⟩

/-- Settles O21: the command ended with an error of R261, and every error's code is 1 to 8. -/
theorem errorCompletionSavesNothingElse : Obligations.ErrorCompletionSavesNothingElse := by
  intro s t i ht hs h herr
  obtain ⟨e, _, hcompletion⟩ := exec_error_inv ht hs h herr
  obtain ⟨hlow, hhigh⟩ := e.code_bounds
  exact ⟨e.code, hlow, hhigh, hcompletion⟩

end Sys2Proof.Machine
end

section
/-! Proofs about a host write that reaches a register of the only instance (10_state.md R32, R46, R47; 00_scope.md R20). -/

namespace Sys2Proof.Machine

/-- The sixteen registers lie at different aligned offsets (R32), so the offset gives the register back. -/
theorem Reg.ofOffset_offset (r : Reg) : Reg.ofOffset r.offset = some r := by
  cases r <;> rfl

/-- Every register ends inside the window of 64 bytes (R32). -/
theorem Reg.offset_add_four_le (r : Reg) : r.offset + 4 ≤ 0x40 := by
  cases r <;> decide

namespace State

/-- With no peers only the instance in focus can be met. -/
theorem meeting_of_overlaps {s : State} {q : Range} (hp : s.peers = []) (h : s.blk.window.overlaps q = true) :
    s.meeting q = [(0, s.blk)] := by
  simp [meeting, blocks, hp, h]

/-- A 32-bit access at a register's offset of the only window is admitted and reaches that register (R88). -/
theorem busTarget_of_offset {s : State} {a : Word} {r : Reg} (hp : s.peers = [])
    (ha : a.toNat = s.blk.window.base + r.offset) : s.busTarget a .b32 = .register 0 r := by
  have hsize : s.blk.window.size = 0x40 := rfl
  have hfits := r.offset_add_four_le
  have hmeets : s.blk.window.overlaps ⟨a.toNat, widthBytes .b32⟩ = true := by
    simp only [Range.overlaps_iff, widthBytes]
    omega
  have hhas : s.blk.window.has a.toNat = true := by
    rw [Range.has_iff]
    omega
  have hoffset : a.toNat - s.blk.window.base = r.offset := by omega
  simp only [busTarget, meeting_of_overlaps hp hmeets, hhas, hoffset, Reg.ofOffset_offset, if_true]

/-- A 32-bit host write at a register's offset of the only window is that register write, and the host moves on (R47). -/
theorem hostOp_wr_of_offset {s : State} {a : Word} {r : Reg} (rest : List HostOp) (v : Word) (hp : s.peers = [])
    (ha : a.toNat = s.blk.window.base + r.offset) :
    s.hostOp rest (.wr a .b32 v) = .next (({ s with hostOps := rest } : State).writeReg v r) := by
  simp only [hostOp, busTarget_of_offset hp ha]
  rfl

end State

/-- A scheduled turn of the host is its next access with the turn taken off (R20). -/
theorem step_of_schedule_host {s : State} {ts : List Turn} {op : HostOp} {rest : List HostOp}
    (hs : s.schedule = .host :: ts) (hops : s.hostOps = op :: rest) :
    step s = ({ s with schedule := ts } : State).hostOp rest op := by
  rw [step_eq_runTurn, hs]
  simp only [List.headD_cons, List.tail_cons, State.runTurn, State.hostTurn, hops]

/-- The step of a host whose next access is a 32-bit write at a register's offset is that register write (R20, R47). -/
theorem step_of_host_wr_offset {s : State} {ts : List Turn} {rest : List HostOp} {a v : Word} {r : Reg}
    (hs : s.schedule = .host :: ts) (hp : s.peers = []) (ha : a.toNat = s.blk.window.base + r.offset)
    (hops : s.hostOps = .wr a .b32 v :: rest) :
    step s = .next (({ s with schedule := ts, hostOps := rest } : State).writeReg v r) := by
  rw [step_of_schedule_host hs hops]
  exact State.hostOp_wr_of_offset (s := { s with schedule := ts }) rest v hp ha

/-- Settles O14: the write reaches CMD, and acceptance while BUSY is the identity. -/
theorem commandWriteWhileBusyIsDropped : Obligations.CommandWriteWhileBusyIsDropped := by
  intro s ts rest a v hs hp _ ha hops hbusy
  have hcmd : a.toNat = s.blk.window.base + Reg.cmd.offset := ha
  rw [step_of_host_wr_offset hs hp hcmd hops, State.writeReg_cmd,
    State.acceptCmd_of_busy (s := { s with schedule := ts, hostOps := rest }) hbusy]

end Sys2Proof.Machine
end

section
/-! What a step can make of each block, said once (10_state.md R47 to R55, 20_memory.md R98, 70_reset_and_hazards.md R290,
R296, R297). -/

namespace Sys2Proof.Machine

namespace Status

/-- The values that a completion leaves (R52, R264, R297). -/
def IsCompletion (w : Word) : Prop := w = success ∨ ∃ n, 1 ≤ n ∧ n ≤ 8 ∧ w = ofCode n

theorem isCompletion_success : IsCompletion success := .inl rfl

theorem isCompletion_failed (e : ErrCode) : IsCompletion (failed e) := by
  obtain ⟨hlow, hhigh⟩ := e.code_bounds
  exact .inr ⟨e.code, hlow, hhigh, rfl⟩

theorem isCompletion_ofOutcome (n : Fin 9) : IsCompletion (ofOutcome n) := by
  unfold ofOutcome
  split
  case isTrue => exact isCompletion_success
  case isFalse hn => exact .inr ⟨n.val, Nat.pos_of_ne_zero hn, Nat.le_of_lt_succ n.isLt, rfl⟩

/-- The status of an error has DONE set and BUSY clear, as that of a success has (R37, R52). -/
theorem ofCode_done_busy : ∀ n < 9, done (ofCode n) = true ∧ busy (ofCode n) = false := by decide

theorem done_busy_of_isCompletion {w : Word} (h : IsCompletion w) : done w = true ∧ busy w = false := by
  rcases h with rfl | ⟨n, _, hn, rfl⟩
  · decide
  · exact ofCode_done_busy n (Nat.lt_succ_of_le hn)

theorem ne_inFlight_of_isCompletion {w : Word} (h : IsCompletion w) : w ≠ inFlight := by
  rintro rfl
  exact absurd (done_busy_of_isCompletion h).1 (by decide)

theorem legal_of_isCompletion {w : Word} (h : IsCompletion w) : legal w = true := by
  rcases h with rfl | ⟨n, h1, hn, rfl⟩
  · decide
  · exact decide_eq_true (.inr (.inr (.inr ⟨n, List.mem_range.mpr (Nat.lt_succ_of_le hn), h1, rfl⟩)))

end Status

/-- A block with its `TAINT` forgotten: other instances and the host's memory accesses change nothing else of it. -/
def Block.clearTaint (b : Block) : Block := { b with taint := false }

/-- What a turn can make of block `n`: nothing but taint, an operand write (R47), acceptance (R50), an admitted completion
(R52, R53), or the block's own reset (R290). -/
inductive BlockEvent (s : State) (turn : Turn) (n : Nat) (b : Block) : Block → Prop where
  | keep {c : Block} (same : c.clearTaint = b.clearTaint) : BlockEvent s turn n b c
  | operand (v : Word) (r : Reg) : BlockEvent s turn n b (b.storeReg v r)
  | accept (idle : b.phase = .idle) (l : Latch) (taint : Bool) :
      BlockEvent s turn n b
        { b with phase := .busy, status := Status.inFlight, resultLen := 0, result := 0, latch := l, taint := taint }
  | complete {c : Block} (busy : b.phase = .busy) (admitted : CompletionAdmitted { s with blk := b })
      (idle : c.phase = .idle) (status : Status.IsCompletion c.status) : BlockEvent s turn n b c
  | reset (own : turn = .reset n) : BlockEvent s turn n b (Block.atReset b.cfg)

/-- What two blocks share that differ in taint at most. -/
theorem Block.fields_of_clearTaint {b c : Block} (h : c.clearTaint = b.clearTaint) :
    c.cfg = b.cfg ∧ c.phase = b.phase ∧ c.latch = b.latch ∧ c.status = b.status ∧ c.resultLen = b.resultLen ∧
      c.result = b.result := by
  simp only [Block.clearTaint, Block.mk.injEq] at h
  simp [h]

/-- An event is about the block and memory, which the block's place among the others does not touch. -/
theorem BlockEvent.of_mem {s a : State} {turn : Turn} {n : Nat} {b c : Block}
    (h : BlockEvent a turn n b c) (hm : a.mem = s.mem) : BlockEvent s turn n b c := by
  cases h with
  | keep same => exact .keep same
  | operand v r => exact .operand v r
  | accept idle l taint => exact .accept idle l taint
  | reset own => exact .reset own
  | complete busy admitted idle status =>
    have hwork : ∀ i, commandWork i { a with blk := b } = commandWork i { s with blk := b } := fun i =>
      commandWork_congr i rfl rfl hm
    refine .complete busy (fun i hi r hr => admitted i hi r ?_) idle status
    rwa [accessedSet, hwork]

/-- Tainting those blocks that meet a condition changes nothing else of any. -/
theorem map_clearTaint_taint (c : Block → Bool) (l : List Block) :
    (l.map (fun b => if c b then { b with taint := true } else b)).map Block.clearTaint = l.map Block.clearTaint := by
  rw [List.map_map]
  refine List.map_congr_left fun b _ => ?_
  simp only [Function.comp_apply]
  split <;> rfl

namespace State

/-- An admitted completion leaves a completion's status. -/
theorem finish_status (s : State) (w : Bool) (k : Work)
    (ha : admittedAll s.blk (k.accessed w s.blk.latch) = true) : Status.IsCompletion (s.finish w k).blk.status := by
  rcases finish_cases s w k with ⟨hn, _⟩ | ⟨_, ⟨_, hf⟩ | ⟨_, ⟨_, _, _, hf⟩ | ⟨e, _, hf⟩⟩⟩
  · rw [ha] at hn
    cases hn
  · rw [hf, settleTainted_blk_status]
    exact Status.isCompletion_ofOutcome _
  · rw [hf, complete_blk_status]
    exact Status.isCompletion_success
  · rw [hf, raise_blk_status]
    exact Status.isCompletion_failed e

/-- Without admission nothing happens (log 9). -/
theorem finish_of_not_admitted {s : State} {w : Bool} {k : Work}
    (ha : admittedAll s.blk (k.accessed w s.blk.latch) = false) : s.finish w k = s := by
  simp [finish, ha]

section Focus

variable {s t : State} (turn : Turn) (n : Nat)

theorem blockTurn_event (h : s.blockTurn = .next t) : BlockEvent s turn n s.blk t.blk := by
  cases hp : s.blk.phase with
  | idle =>
    rcases blockTurn_next h with ⟨_, rfl⟩ | ⟨_, _, hb, _⟩
    · exact .keep rfl
    · rw [hp] at hb
      cases hb
  | busy =>
    obtain ⟨w, k, hturn, hadm⟩ := blockTurn_of_busy hp
    rw [hturn] at h
    cases h
    cases ha : admittedAll s.blk (k.accessed w s.blk.latch) with
    | false =>
      rw [finish_of_not_admitted ha]
      exact .keep rfl
    | true => exact .complete hp (hadm.mp ha) (by rw [finish_phase, if_pos ha]) (finish_status s w k ha)

theorem writeReg_event (s : State) (v : Word) (r : Reg) : BlockEvent s turn n s.blk (s.writeReg v r).blk := by
  by_cases hr : r = .cmd
  · subst hr
    cases hp : s.blk.phase with
    | busy =>
      rw [writeReg_cmd, acceptCmd_of_busy hp]
      exact .keep rfl
    | idle =>
      simp only [writeReg_cmd, acceptCmd, Block.busy_of_idle hp, Bool.false_eq_true, if_false]
      exact .accept hp _ _
  · rw [writeReg_of_ne_cmd s v hr]
    exact .operand v r

theorem writeReg_peers_clearTaint (s : State) (v : Word) (r : Reg) :
    (s.writeReg v r).peers.map Block.clearTaint = s.peers.map Block.clearTaint := by
  by_cases hr : r = .cmd
  · subst hr
    rw [writeReg_cmd]
    unfold acceptCmd
    split
    · rfl
    · exact map_clearTaint_taint _ s.peers
  · rw [writeReg_of_ne_cmd s v hr]
    rfl

theorem blockTurn_peers (h : s.blockTurn = .next t) : t.peers = s.peers := by
  rcases blockTurn_next h with ⟨_, rfl⟩ | ⟨w, k, _, rfl⟩
  · rfl
  · exact finish_peers s w k

theorem resetBlock_blk (s : State) : s.resetBlock.blk = Block.atReset s.blk.cfg := by
  unfold resetBlock
  split <;> rfl

theorem resetBlock_peers (s : State) : s.resetBlock.peers = s.peers := by
  unfold resetBlock
  split <;> rfl

end Focus

/-- An operation on one block, run on block `k`: it does there what it does in focus, and every other block keeps all but
taint if its peers do. -/
theorem onInstance_blocks {R : Block → Block → Prop} {s t : State} {k : Nat} {f : State → Host.Outcome State Fault Refusal}
    (hf : ∀ b ps u, f { s with blk := b, peers := ps } = .next u →
      R b u.blk ∧ u.peers.map Block.clearTaint = ps.map Block.clearTaint)
    (h : s.onInstance k f = .next t) :
    (∃ b c, s.blocks[k]? = some b ∧ t.blocks[k]? = some c ∧ R b c) ∧
      ∀ n, n ≠ k → t.blocks[n]?.map Block.clearTaint = s.blocks[n]?.map Block.clearTaint := by
  cases k with
  | zero =>
    obtain ⟨hR, hpeers⟩ := hf s.blk s.peers t h
    refine ⟨⟨s.blk, t.blk, rfl, rfl, hR⟩, fun n hn => ?_⟩
    obtain ⟨m, rfl⟩ := Nat.exists_eq_succ_of_ne_zero hn
    simp only [blocks, List.getElem?_cons_succ, ← List.getElem?_map, hpeers]
  | succ j =>
    obtain ⟨p, u, q, hp, hu, hq, rfl⟩ := onInstance_succ_inv h
    obtain ⟨hR, hpeers⟩ := hf _ _ _ hu
    have hlt : j < s.peers.length := (List.getElem?_eq_some_iff.mp hp).1
    have hlt' : j < u.peers.length := (List.getElem?_eq_some_iff.mp hq).1
    have hat : ∀ m : Nat, u.peers[m]?.map Block.clearTaint = (s.peers.set j s.blk)[m]?.map Block.clearTaint := fun m => by
      rw [← List.getElem?_map, ← List.getElem?_map, hpeers]
    refine ⟨⟨p, u.blk, hp, List.getElem?_set_self hlt', hR⟩, fun n hn => ?_⟩
    cases n with
    | zero =>
      have hback := hat j
      rwa [hq, List.getElem?_set_self hlt] at hback
    | succ m =>
      have hne : j ≠ m := fun hjm => hn (by rw [hjm])
      have hm := hat m
      rw [List.getElem?_set_ne hne] at hm
      simpa only [blocks, List.getElem?_cons_succ, List.getElem?_set_ne hne] using hm

/-- What a turn makes of the blocks: each of them is still there, after one event. -/
def BlocksFollow (s : State) (turn : Turn) (t : State) : Prop :=
  ∀ n b, s.blocks[n]? = some b → ∃ c, t.blocks[n]? = some c ∧ BlockEvent s turn n b c

theorem BlocksFollow.of_mem {s a t : State} {turn : Turn} (h : BlocksFollow a turn t) (hm : a.mem = s.mem)
    (hb : a.blocks = s.blocks := by rfl) : BlocksFollow s turn t := by
  intro n b hn
  obtain ⟨c, hc, hev⟩ := h n b (by rwa [hb])
  exact ⟨c, hc, hev.of_mem hm⟩

theorem blocksFollow_of_clearTaint {s t : State} (turn : Turn)
    (h : t.blocks.map Block.clearTaint = s.blocks.map Block.clearTaint) : BlocksFollow s turn t := by
  intro n b hb
  have hn := congrArg (·[n]?) h
  simp only [List.getElem?_map, hb, Option.map_some, Option.map_eq_some_iff] at hn
  obtain ⟨c, hc, hsame⟩ := hn
  exact ⟨c, hc, .keep hsame⟩

theorem blocksFollow_of_onInstance {s t : State} {turn : Turn} {k : Nat} {f : State → Host.Outcome State Fault Refusal}
    (hf : ∀ b ps u, f { s with blk := b, peers := ps } = .next u →
      BlockEvent s turn k b u.blk ∧ u.peers.map Block.clearTaint = ps.map Block.clearTaint)
    (h : s.onInstance k f = .next t) : BlocksFollow s turn t := by
  obtain ⟨⟨b, c, hb, hc, hev⟩, hrest⟩ := onInstance_blocks hf h
  intro n d hd
  by_cases hn : n = k
  · subst hn
    rw [hb] at hd
    cases hd
    exact ⟨c, hc, hev⟩
  · have hsame := hrest n hn
    simp only [hd, Option.map_some, Option.map_eq_some_iff] at hsame
    obtain ⟨e, he, hsame⟩ := hsame
    exact ⟨e, he, .keep hsame⟩

theorem taintWhere_clearTaint (s : State) (hazard : Latch → Bool) :
    (s.taintWhere hazard).blocks.map Block.clearTaint = s.blocks.map Block.clearTaint :=
  map_clearTaint_taint (fun b => b.busy && hazard b.latch) s.blocks

theorem storeByte_clearTaint (s : State) (a : Word) (b : Byte) :
    (s.storeByte a b).blocks.map Block.clearTaint = s.blocks.map Block.clearTaint :=
  taintWhere_clearTaint s (fun l => l.storeHazard a.toNat)

theorem loadByte_clearTaint (s : State) (a : Word) :
    (s.loadByte a).blocks.map Block.clearTaint = s.blocks.map Block.clearTaint := by
  unfold loadByte
  split
  · exact taintWhere_clearTaint s (fun l => l.loadHazard a.toNat)
  · rfl

theorem hostEffect_blocksFollow {s t : State} {rest : List HostOp} {op : HostOp} (turn : Turn)
    (h : HostEffect s rest op t) : BlocksFollow s turn t := by
  cases h with
  | @write _ _ v k r _ _ run =>
    have hfollow : BlocksFollow { s with hostOps := rest } turn t := blocksFollow_of_onInstance (fun b ps u hu => by
      cases hu
      have hev := writeReg_event turn k { s with blk := b, peers := ps, hostOps := rest } v r
      exact ⟨hev.of_mem rfl, writeReg_peers_clearTaint _ v r⟩) run
    exact hfollow.of_mem rfl
  | store target => exact blocksFollow_of_clearTaint turn (storeByte_clearTaint _ _ _)
  | load target => exact blocksFollow_of_clearTaint turn (loadByte_clearTaint _ _)
  | other ops seen => exact blocksFollow_of_clearTaint turn rfl

theorem runTurn_blocksFollow {s t : State} {turn : Turn} (h : s.runTurn turn = .next t) : BlocksFollow s turn t := by
  cases turn with
  | host =>
    rcases hostTurn_next h with ⟨_, rfl⟩ | ⟨op, rest, _, heff⟩
    · exact blocksFollow_of_clearTaint _ rfl
    · exact hostEffect_blocksFollow _ heff
  | block k =>
    refine blocksFollow_of_onInstance (f := blockTurn) (fun b ps u hu => ?_) h
    have hev := blockTurn_event (.block k) k hu
    exact ⟨hev.of_mem rfl, by rw [blockTurn_peers hu]⟩
  | reset k =>
    refine blocksFollow_of_onInstance (f := fun a => .next a.resetBlock) (fun b ps u hu => ?_) h
    cases hu
    rw [resetBlock_blk, resetBlock_peers]
    exact ⟨.reset rfl, rfl⟩

end State

/-- The turn that a step takes: the first of the schedule, or the default one. -/
def State.nextTurn (s : State) : Turn := s.schedule.headD s.defaultTurn

theorem step_blocksFollow {s t : State} (h : step s = .next t) : s.BlocksFollow s.nextTurn t := by
  rw [step_eq_runTurn] at h
  exact (State.runTurn_blocksFollow h).of_mem rfl

/-- What a step makes of the block in focus. -/
theorem step_focus_event {s t : State} (h : step s = .next t) : BlockEvent s s.nextTurn 0 s.blk t.blk := by
  obtain ⟨c, hc, hev⟩ := step_blocksFollow h 0 s.blk rfl
  cases hc
  exact hev

/-- No reset is taken but a scheduled one. -/
theorem State.schedule_of_nextTurn_reset {s : State} {k : Nat} (h : s.nextTurn = .reset k) :
    ∃ ts, s.schedule = .reset k :: ts := by
  unfold nextTurn at h
  cases hs : s.schedule with
  | cons u us =>
    rw [hs] at h
    exact ⟨us, by rw [show u = .reset k from h]⟩
  | nil =>
    rw [hs] at h
    rcases defaultTurn_cases s with ⟨j, hd, _⟩ | ⟨hd, _⟩ <;>
      · rw [List.headD_nil, hd] at h
        cases h

/-- No step makes or removes a block. -/
theorem step_blocks_length {s t : State} (h : step s = .next t) : t.blocks.length = s.blocks.length := by
  have hcfgs := congrArg List.length (step_cfgs h)
  rwa [State.cfgs, State.cfgs, List.length_map, List.length_map] at hcfgs

end Sys2Proof.Machine
end

section
/-! Proofs about the invariant of the machine: STATUS accords with the phase, memory is in canonical form (10_state.md R37,
R44, R45; 20_memory.md R80). -/

namespace Sys2Proof.Machine

theorem Block.atReset_inv (c : Cfg) : (Block.atReset c).Inv := by
  have hzero : (0 : Word) ≠ Status.inFlight ∧ Status.legal 0 = true := by decide
  exact ⟨fun hbusy => (by cases hbusy), fun _ => hzero⟩

/-- Every event keeps the invariant of a block. -/
theorem BlockEvent.keeps_inv {s : State} {turn : Turn} {n : Nat} {b c : Block} (h : BlockEvent s turn n b c)
    (hb : b.Inv) : c.Inv := by
  cases h with
  | keep same =>
    obtain ⟨_, hphase, _, hstatus, hlen, hres⟩ := Block.fields_of_clearTaint same
    rwa [Block.Inv, hphase, hstatus, hlen, hres]
  | operand v r => simpa only [Block.Inv, Block.storeReg_phase, Block.storeReg_status, Block.storeReg_resultLen,
      Block.storeReg_result] using hb
  | accept idle l taint => exact ⟨fun _ => ⟨rfl, rfl, rfl⟩, fun hidle => by cases hidle⟩
  | complete busy admitted idle status =>
    refine ⟨fun hbusy => ?_, fun _ => ⟨Status.ne_inFlight_of_isCompletion status, Status.legal_of_isCompletion status⟩⟩
    rw [idle] at hbusy
    cases hbusy
  | reset own => exact Block.atReset_inv b.cfg

namespace State

/-- What an operation on one block establishes of the parts that all blocks share holds after it, whichever block it ran
on. -/
theorem onInstance_shared {s t : State} {k : Nat} {f : State → Host.Outcome State Fault Refusal} {P : State → Prop}
    (hP : ∀ u b ps, P u → P { u with blk := b, peers := ps })
    (hf : ∀ b ps u, f { s with blk := b, peers := ps } = .next u → P u) (h : s.onInstance k f = .next t) : P t := by
  cases k with
  | zero => exact hf s.blk s.peers t h
  | succ j =>
    obtain ⟨p, u, q, _, hu, _, rfl⟩ := onInstance_succ_inv h
    exact hP u _ _ (hf _ _ u hu)

/-- A register write changes blocks only. -/
theorem writeReg_eq (s : State) (v : Word) (r : Reg) : ∃ b ps, s.writeReg v r = { s with blk := b, peers := ps } := by
  by_cases hr : r = .cmd
  · subst hr
    rw [writeReg_cmd]
    unfold acceptCmd
    split
    · exact ⟨s.blk, s.peers, rfl⟩
    · exact ⟨_, _, rfl⟩
  · rw [writeReg_of_ne_cmd s v hr]
    exact ⟨_, _, rfl⟩

theorem writeReg_mem (s : State) (v : Word) (r : Reg) : (s.writeReg v r).mem = s.mem := by
  obtain ⟨b, ps, h⟩ := writeReg_eq s v r
  rw [h]

theorem loadByte_mem (s : State) (a : Word) : (s.loadByte a).mem = s.mem := by
  unfold loadByte
  split <;> rfl

theorem blockTurn_mem_wf {s t : State} (hm : Memory.wf s.mem = true) (h : s.blockTurn = .next t) :
    Memory.wf t.mem = true := by
  rcases blockTurn_next h with ⟨_, rfl⟩ | ⟨w, k, _, rfl⟩
  · exact hm
  · exact wf_finish hm w k

theorem resetBlock_mem_wf {s : State} (hm : Memory.wf s.mem = true) : Memory.wf s.resetBlock.mem = true := by
  unfold resetBlock
  split
  · exact wf_drawRange hm _
  · exact hm

theorem hostEffect_mem_wf {s t : State} {rest : List HostOp} {op : HostOp} (hm : Memory.wf s.mem = true)
    (h : HostEffect s rest op t) : Memory.wf t.mem = true := by
  cases h with
  | @write _ _ v k r _ _ run =>
    refine onInstance_shared (P := fun u => Memory.wf u.mem = true) (fun _ _ _ hu => hu) (fun b ps u hu => ?_) run
    cases hu
    rwa [writeReg_mem]
  | store target => exact Memory.wf_set hm _ _
  | load target => rwa [loadByte_mem]
  | other ops seen => exact hm

theorem runTurn_mem_wf {s t : State} {turn : Turn} (hm : Memory.wf s.mem = true) (h : s.runTurn turn = .next t) :
    Memory.wf t.mem = true := by
  cases turn with
  | host =>
    rcases hostTurn_next h with ⟨_, rfl⟩ | ⟨op, rest, _, heff⟩
    · exact hm
    · exact hostEffect_mem_wf hm heff
  | block k =>
    exact onInstance_shared (f := blockTurn) (P := fun u => Memory.wf u.mem = true) (fun _ _ _ hu => hu)
      (fun b ps u hu => blockTurn_mem_wf (s := { s with blk := b, peers := ps }) hm hu) h
  | reset k =>
    refine onInstance_shared (f := fun a => .next a.resetBlock) (P := fun u => Memory.wf u.mem = true)
      (fun _ _ _ hu => hu) (fun b ps u hu => ?_) h
    cases hu
    exact resetBlock_mem_wf (s := { s with blk := b, peers := ps }) hm

end State

theorem step_mem_wf {s t : State} (hm : Memory.wf s.mem = true) (h : step s = .next t) : Memory.wf t.mem = true := by
  rw [step_eq_runTurn] at h
  exact State.runTurn_mem_wf (s := { s with schedule := s.schedule.tail }) hm h

/-- Settles O58: each block comes out of one event, which keeps its invariant, and every turn keeps memory canonical. -/
theorem everyStepKeepsTheInvariant : Obligations.EveryStepKeepsTheInvariant := by
  rintro s t ⟨hm, hblocks⟩ h
  refine ⟨step_mem_wf hm h, fun c hc => ?_⟩
  obtain ⟨n, hn, rfl⟩ := List.getElem_of_mem hc
  have hn' : n < s.blocks.length := by rwa [← step_blocks_length h]
  obtain ⟨d, hd, hev⟩ := step_blocksFollow h n _ (List.getElem?_eq_getElem hn')
  obtain ⟨_, rfl⟩ := List.getElem?_eq_some_iff.mp hd
  exact hev.keeps_inv (hblocks _ (List.getElem_mem hn'))

/-- Settles O57: the only block is as a reset leaves it, and memory holds no entry. -/
theorem resetMeetsTheInvariant : Obligations.ResetMeetsTheInvariant := by
  have hreset : ∀ c : Cfg, (State.resetWith c).Inv := fun c =>
    ⟨Memory.wf_nil, fun b hb => List.mem_singleton.mp hb ▸ Block.atReset_inv c⟩
  exact ⟨hreset, hreset Config.reference⟩

end Sys2Proof.Machine
end

section
/-! Proofs about the decoder of command words (30_encoding.md R110 to R114). -/

namespace Sys2Proof.Machine

theorem encodeWord_toNat (i : Instr) : (encodeWord i).toNat = opcode i := by
  cases i <;> rfl

theorem decodeWord_encodeWord (i : Instr) : decodeWord (encodeWord i) = .ok i := by
  cases i <;> rfl

/-- With zeros in `RSVD` the word is its opcode field. -/
theorem toNat_eq_opField {w : Word} (h : rsvdField w = 0) : w.toNat = opField w := by
  unfold rsvdField at h
  unfold opField
  omega

/-- A word decodes to a command exactly where it is the command's own word (R111, R113). -/
theorem decodeWord_ok_iff (w : Word) (i : Instr) : decodeWord w = .ok i ↔ w = encodeWord i := by
  constructor
  · intro h
    obtain ⟨hrsvd, hop⟩ := decodeWord_ok_fields h
    exact BitVec.eq_of_toNat_eq (by rw [toNat_eq_opField hrsvd, hop, encodeWord_toNat])
  · rintro rfl
    exact decodeWord_encodeWord i

/-- Settles O1: the words of the seven commands are the only ones that decode. -/
theorem commandWordsAreOneToOne : Obligations.CommandWordsAreOneToOne := by
  refine ⟨decodeWord_ok_iff, fun i => ?_⟩
  cases i <;> rfl

theorem decodeWord_of_rsvdField {w : Word} (h : rsvdField w ≠ 0) : decodeWord w = .error .reservedField := if_pos h

/-- With zeros in `RSVD` the decoder never blames `RSVD`. -/
theorem decodeWord_ne_reservedField {w : Word} (h : rsvdField w = 0) : decodeWord w ≠ .error .reservedField := by
  unfold decodeWord
  rw [if_neg (not_not.mpr h)]
  split <;> nofun

/-- Every number from 1 to 7 is an opcode (R111). -/
theorem exists_opcode_eq : ∀ n < 8, 1 ≤ n → ∃ i, opcode i = n := by
  intro n hn h1
  interval_cases n
  exacts [⟨.encode, rfl⟩, ⟨.decode, rfl⟩, ⟨.packRow, rfl⟩, ⟨.unpackRow, rfl⟩, ⟨.crc32, rfl⟩, ⟨.adler32, rfl⟩,
    ⟨.zlib, rfl⟩]

/-- Settles O2: the two fields decide, `RSVD` first. -/
theorem illegalWordsAreRejectedByName : Obligations.IllegalWordsAreRejectedByName := by
  refine fun w => ⟨decodeWord_of_rsvdField, fun hrsvd hop => ?opcode, fun hrsvd h1 h7 => ?legal⟩
  case opcode =>
    obtain ⟨e, he⟩ := decodeWord_error_of_illegal (.inr hop)
    cases e with
    | reservedOpcode => exact he
    | reservedField => exact absurd he (decodeWord_ne_reservedField hrsvd)
  case legal =>
    obtain ⟨i, hi⟩ := exists_opcode_eq (w.toNat % 16) (by omega) h1
    have hw : opcode i = w.toNat := by omega
    exact ⟨i, (decodeWord_ok_iff w i).mpr (BitVec.eq_of_toNat_eq (by rw [encodeWord_toNat, hw])), hw⟩

/-- Settles O3: the twelve words are computed. -/
theorem opcodeMapWords : Obligations.OpcodeMapWords := by
  unfold Obligations.OpcodeMapWords
  decide

end Sys2Proof.Machine
end

section
/-! Proofs about the block's turn and the machine at rest (00_scope.md R20, 10_state.md R50 to R55, 70_reset_and_hazards.md
R292). -/

namespace Sys2Proof.Machine

/-- The turn of a BUSY block whose word decodes is that command (R52, R111). -/
theorem State.blockTurn_of_ok {s : State} {i : Instr} (hp : s.blk.phase = .busy)
    (hd : decodeWord s.blk.latch.cmd = .ok i) : s.blockTurn = exec i s := by
  simp only [blockTurn, hp, hd]

/-- With nothing scheduled a step is the default turn. -/
theorem step_of_schedule_nil {s : State} (h : s.schedule = []) : step s = s.runTurn s.defaultTurn := by
  unfold step
  rw [h]

/-- With an enabled completion the block in focus is the first that can move (R54). -/
theorem State.defaultTurn_of_enabled {s : State} (hp : s.blk.phase = .busy) (ha : CompletionAdmitted s) :
    s.defaultTurn = .block 0 := by
  have henabled := (completionEnabled_zero s).mpr ⟨hp, ha⟩
  rcases defaultTurn_cases s with ⟨k, hturn, _, _, hfirst⟩ | ⟨_, hnone⟩
  · have hk : k = 0 := Nat.eq_zero_of_not_pos fun hpos => by simp [hfirst 0 hpos] at henabled
    rw [hturn, hk]
  · have hlen : 0 < s.blocks.length := Nat.succ_pos _
    simp [hnone 0 hlen] at henabled

/-- Settles O4: both turns are the block's, which is its command. -/
theorem stepRunsTheLatchedCommand : Obligations.StepRunsTheLatchedCommand := by
  refine fun s i hp hd => ⟨fun ts hs => ?scheduled, fun hs ha => ?default⟩
  case scheduled =>
    rw [step_of_schedule_block_zero hs]
    exact State.blockTurn_of_ok (s := { s with schedule := ts }) hp hd
  case default =>
    rw [step_of_schedule_nil hs, State.defaultTurn_of_enabled hp ha]
    exact State.blockTurn_of_ok hp hd

/-- Settles O5: the word is accepted with no peer to conflict with, and the block's turn comes first. -/
theorem fetchedWordRunsNext : Obligations.FetchedWordRunsNext := by
  intro s i hpeers
  have hword : BitVec.ofNat 32 ((encodeWord i).toNat % 2 ^ 32) = encodeWord i := by
    rw [Nat.mod_eq_of_lt (encodeWord i).isLt, BitVec.ofNat_toNat, BitVec.setWidth_eq]
  have hnone : ∀ p ∈ s.peers, (p.busy && p.latch.conflicts (s.blk.latchOf (encodeWord i))) = false := by
    simp [hpeers]
  have haccept := State.acceptCmd_of_no_conflict
    (s := { s with blk := { s.blk with phase := .idle }, schedule := .block 0 :: s.schedule }) rfl (encodeWord i) hnone
  rw [State.withFetchWord, hword, State.withCommand, haccept, step_of_schedule_block_zero rfl]
  exact State.blockTurn_of_ok rfl (decodeWord_encodeWord i)

/-- A machine at rest does not move: the turn is the host's, which has nothing to do (log 10). -/
theorem step_of_idle {s : State} (hs : s.schedule = []) (hops : s.hostOps = []) (hidle : ∀ b ∈ s.blocks, b.phase = .idle) :
    step s = .next s := by
  rw [step_of_schedule_nil hs, State.defaultTurn_of_idle hidle, State.runTurn, State.hostTurn, hops]

/-- A run of one step more. -/
theorem run_succ_of_step {k : Nat} {s t : State} (h : step s = .next t) :
    Host.Core.run Sys2Proof.core (k + 1) s = Host.Core.run Sys2Proof.core k t := by
  have hstep : Sys2Proof.core.step s = .next t := h
  simp only [Host.Core.run, hstep]

/-- Settles O7: by induction on the steps, each of which is the identity. -/
theorem idleMachineStaysAsItIs : Obligations.IdleMachineStaysAsItIs := by
  intro s k hs hops hidle
  induction k with
  | zero => rfl
  | succ k ih => rw [run_succ_of_step (step_of_idle hs hops hidle), ih]

/-- Completion leaves the schedule alone. -/
theorem State.finish_schedule (s : State) (w : Bool) (k : Work) : (s.finish w k).schedule = s.schedule := by
  rcases finish_cases s w k with ⟨_, hf⟩ | ⟨_, ⟨_, hf⟩ | ⟨_, ⟨_, _, _, hf⟩ | ⟨_, _, hf⟩⟩⟩ <;> simp [hf]

/-- An admitted completion of the block in focus ends its command (R52, R53). -/
theorem State.blockTurn_of_admitted {s : State} (hp : s.blk.phase = .busy) (ha : CompletionAdmitted s) :
    ∃ w k, s.blockTurn = .next (s.finish w k) ∧ (s.finish w k).blk.phase = .idle ∧
      Status.IsCompletion (s.finish w k).blk.status := by
  obtain ⟨w, k, hturn, hadm⟩ := blockTurn_of_busy hp
  have hadmitted := hadm.mpr ha
  exact ⟨w, k, hturn, by rw [finish_phase, if_pos hadmitted], finish_status s w k hadmitted⟩

/-- Settles O8: the completion is admitted, so it leaves IDLE and a completion's status. -/
theorem enabledCompletionEndsTheCommand : Obligations.EnabledCompletionEndsTheCommand := by
  intro s ts hs hp ha
  obtain ⟨w, k, hturn, hphase, hstatus⟩ := State.blockTurn_of_admitted (s := { s with schedule := ts }) hp ha
  obtain ⟨hdone, hbusy⟩ := Status.done_busy_of_isCompletion hstatus
  refine ⟨_, (step_of_schedule_block_zero hs).trans hturn, hphase, hdone, hbusy, ?_⟩
  rw [State.finish_schedule]

/-- Settles O16: of the events only acceptance writes the latch, and it asks for IDLE. -/
theorem latchIsStableInFlight : Obligations.LatchIsStableInFlight := by
  intro s t h hs ht
  generalize ht' : t.blk = c at ht ⊢
  have hev := step_focus_event h
  rw [ht'] at hev
  cases hev with
  | keep same =>
    obtain ⟨_, _, hlatch, _⟩ := Block.fields_of_clearTaint same
    exact hlatch
  | operand v r => exact Block.storeReg_latch _ v r
  | accept idle l taint =>
    rw [hs] at idle
    cases idle
  | complete busy admitted idle status =>
    rw [ht] at idle
    cases idle
  | reset own => cases ht

/-- Settles O17: the other events leave STATUS alone. -/
theorem onlyThreeEventsWriteStatus : Obligations.OnlyThreeEventsWriteStatus := by
  intro s t h hne
  generalize ht' : t.blk = c at hne ⊢
  have hev := step_focus_event h
  rw [ht'] at hev
  cases hev with
  | keep same =>
    obtain ⟨_, _, _, hstatus, _⟩ := Block.fields_of_clearTaint same
    exact absurd hstatus hne
  | operand v r => exact absurd (Block.storeReg_status _ v r) hne
  | accept idle l taint => exact .inl ⟨idle, rfl, rfl⟩
  | complete busy admitted idle status => exact .inr (.inl ⟨busy, idle⟩)
  | reset own =>
    obtain ⟨ts, hts⟩ := State.schedule_of_nextTurn_reset own
    exact .inr (.inr ⟨ts, hts, rfl⟩)

end Sys2Proof.Machine
end

section
/-! What a step leaves of the lists of turns and host accesses, and when an operation on a block goes through. -/

namespace Sys2Proof.Machine

namespace State

theorem writeReg_hostOps (s : State) (v : Word) (r : Reg) : (s.writeReg v r).hostOps = s.hostOps := by
  obtain ⟨b, ps, h⟩ := writeReg_eq s v r
  rw [h]

theorem writeReg_schedule (s : State) (v : Word) (r : Reg) : (s.writeReg v r).schedule = s.schedule := by
  obtain ⟨b, ps, h⟩ := writeReg_eq s v r
  rw [h]

theorem loadByte_hostOps (s : State) (a : Word) : (s.loadByte a).hostOps = s.hostOps := by
  unfold loadByte
  split <;> rfl

theorem loadByte_schedule (s : State) (a : Word) : (s.loadByte a).schedule = s.schedule := by
  unfold loadByte
  split <;> rfl

theorem resetBlock_hostOps (s : State) : s.resetBlock.hostOps = s.hostOps := by
  unfold resetBlock
  split <;> rfl

theorem resetBlock_schedule (s : State) : s.resetBlock.schedule = s.schedule := by
  unfold resetBlock
  split <;> rfl

theorem finish_hostOps (s : State) (w : Bool) (k : Work) : (s.finish w k).hostOps = s.hostOps := by
  rcases finish_cases s w k with ⟨_, hf⟩ | ⟨_, ⟨_, hf⟩ | ⟨_, ⟨_, _, _, hf⟩ | ⟨_, _, hf⟩⟩⟩ <;> simp [hf]

/-- A block's turn leaves both lists alone. -/
theorem blockTurn_lists {s t : State} (h : s.blockTurn = .next t) : t.hostOps = s.hostOps ∧ t.schedule = s.schedule := by
  rcases blockTurn_next h with ⟨_, rfl⟩ | ⟨w, k, _, rfl⟩
  · exact ⟨rfl, rfl⟩
  · exact ⟨finish_hostOps s w k, finish_schedule s w k⟩

/-- The host moves past its access, or stays at it. -/
theorem hostOp_hostOps {s t : State} {rest : List HostOp} {op : HostOp} (h : s.hostOp rest op = .next t) :
    t.hostOps = rest ∨ t.hostOps = s.hostOps := by
  cases op with
  | wr a width v =>
    simp only [hostOp] at h
    split at h
    next k r _ =>
      refine .inl (onInstance_shared (P := fun u => u.hostOps = rest) (fun _ _ _ hu => hu) (fun b ps u hu => ?_) h)
      cases hu
      rw [writeReg_hostOps]
    next => cases h; exact .inr rfl
    next => cases h
  | rd a width =>
    simp only [hostOp] at h
    split at h
    next k r _ =>
      obtain ⟨v, -, rfl⟩ := loadReg_next h
      exact .inl rfl
    next => cases h; exact .inr rfl
    next => cases h
  | st a b =>
    simp only [hostOp] at h
    split at h <;> cases h
    next => exact .inl rfl
    all_goals exact .inr rfl
  | ld a =>
    simp only [hostOp] at h
    split at h <;> cases h
    next => exact .inl (loadByte_hostOps _ _)
    all_goals exact .inr rfl
  | poll a =>
    simp only [hostOp] at h
    split at h
    next k r _ =>
      split at h
      next =>
        split at h <;> obtain ⟨_, -, rfl⟩ := loadReg_next h
        · exact .inl rfl
        · exact .inr rfl
      next => cases h
    next => cases h; exact .inr rfl
    next => cases h
  | check v =>
    simp only [hostOp] at h
    split at h
    · cases h; exact .inl rfl
    · cases h

theorem hostEffect_schedule {s t : State} {rest : List HostOp} {op : HostOp} (h : HostEffect s rest op t) :
    t.schedule = s.schedule := by
  cases h with
  | @write _ _ v k r _ _ run =>
    refine onInstance_shared (P := fun u => u.schedule = s.schedule) (fun _ _ _ hu => hu) (fun b ps u hu => ?_) run
    cases hu
    rw [writeReg_schedule]
  | store target => rfl
  | load target => exact loadByte_schedule _ _
  | other ops seen => rfl

theorem runTurn_schedule {s t : State} {turn : Turn} (h : s.runTurn turn = .next t) : t.schedule = s.schedule := by
  cases turn with
  | host =>
    rcases hostTurn_next h with ⟨_, rfl⟩ | ⟨op, rest, _, heff⟩
    · rfl
    · exact hostEffect_schedule heff
  | block k =>
    exact onInstance_shared (f := blockTurn) (P := fun u => u.schedule = s.schedule) (fun _ _ _ hu => hu)
      (fun b ps u hu => (blockTurn_lists hu).2) h
  | reset k =>
    refine onInstance_shared (f := fun a => .next a.resetBlock) (P := fun u => u.schedule = s.schedule)
      (fun _ _ _ hu => hu) (fun b ps u hu => ?_) h
    cases hu
    rw [resetBlock_schedule]

theorem hostTurn_hostOps {s t : State} (h : s.hostTurn = .next t) : t.hostOps <:+ s.hostOps := by
  unfold hostTurn at h
  split at h
  next => cases h; exact List.suffix_rfl
  next op rest hops =>
    rcases hostOp_hostOps h with ht | ht
    · rw [ht, hops]
      exact List.suffix_cons op rest
    · rw [ht]

theorem runTurn_hostOps {s t : State} {turn : Turn} (h : s.runTurn turn = .next t) : t.hostOps <:+ s.hostOps := by
  cases turn with
  | host => exact hostTurn_hostOps h
  | block k =>
    have hsame := onInstance_shared (f := blockTurn) (P := fun u => u.hostOps = s.hostOps) (fun _ _ _ hu => hu)
      (fun b ps u hu => (blockTurn_lists hu).1) h
    rw [hsame]
  | reset k =>
    have hsame := onInstance_shared (f := fun a => .next a.resetBlock) (P := fun u => u.hostOps = s.hostOps)
      (fun _ _ _ hu => hu) (fun b ps u hu => by cases hu; rw [resetBlock_hostOps]) h
    rw [hsame]

/-- An operation that always goes through and keeps the number of peers goes through on every block there is. -/
theorem onInstance_total {s : State} {k : Nat} {f : State → Host.Outcome State Fault Refusal}
    (hf : ∀ a, ∃ u, f a = .next u ∧ u.peers.length = a.peers.length) (hk : k < s.blocks.length) :
    ∃ t, s.onInstance k f = .next t := by
  cases k with
  | zero =>
    obtain ⟨u, hu, _⟩ := hf s
    exact ⟨u, hu⟩
  | succ j =>
    have hj : j < s.peers.length := Nat.lt_of_succ_lt_succ hk
    have hp : s.peers[j]? = some s.peers[j] := List.getElem?_eq_getElem hj
    obtain ⟨u, hu, hlen⟩ := hf { s with blk := s.peers[j], peers := s.peers.set j s.blk }
    have hj' : j < u.peers.length := by rwa [hlen, List.length_set]
    have hq : u.peers[j]? = some u.peers[j] := List.getElem?_eq_getElem hj'
    simp only [onInstance, swapFocus_eq hp, hu, swapFocus_eq hq]
    exact ⟨_, rfl⟩

theorem blockTurn_total (s : State) : ∃ t, s.blockTurn = .next t ∧ t.peers.length = s.peers.length := by
  cases hp : s.blk.phase with
  | idle => exact ⟨s, by simp only [blockTurn, hp], rfl⟩
  | busy =>
    obtain ⟨w, k, hturn, _⟩ := blockTurn_of_busy hp
    exact ⟨_, hturn, by rw [blockTurn_peers hturn]⟩

/-- A turn that some agent of the machine can take: the host's, or one that names a block there is. -/
def ValidTurn (s : State) (u : Turn) : Prop :=
  u = .host ∨ ∃ j, (u = .block j ∨ u = .reset j) ∧ j < s.blocks.length

theorem defaultTurn_valid (s : State) : s.ValidTurn s.defaultTurn := by
  rcases defaultTurn_cases s with ⟨k, hturn, _, hk, _⟩ | ⟨hturn, _⟩
  · exact .inr ⟨k, .inl hturn, hk⟩
  · exact .inl hturn

/-- With no host access left every valid turn goes through. -/
theorem runTurn_total {s : State} {u : Turn} (hops : s.hostOps = []) (hu : s.ValidTurn u) :
    ∃ t, s.runTurn u = .next t := by
  rcases hu with rfl | ⟨j, rfl | rfl, hj⟩
  · exact ⟨s, by simp only [runTurn, hostTurn, hops]⟩
  · exact onInstance_total blockTurn_total hj
  · exact onInstance_total (fun a => ⟨_, rfl, by rw [resetBlock_peers]⟩) hj

end State

/-- A step takes the first turn off the schedule. -/
theorem step_schedule {s t : State} (h : step s = .next t) : t.schedule = s.schedule.tail := by
  rw [step_eq_runTurn] at h
  rw [State.runTurn_schedule h]

/-- A step leaves the host at an access of its list. -/
theorem step_hostOps {s t : State} (h : step s = .next t) : t.hostOps <:+ s.hostOps := by
  rw [step_eq_runTurn] at h
  exact State.runTurn_hostOps (s := { s with schedule := s.schedule.tail }) h

/-- Settles O59: a command completes or is stuck, and where every turn is valid a step goes through and leaves valid turns. -/
theorem noCommandStopsTheMachine : Obligations.NoCommandStopsTheMachine := by
  refine ⟨fun i s => ⟨_, exec_eq_finish i s⟩, fun k => ?_⟩
  induction k with
  | zero => exact fun s _ _ => ⟨s, rfl⟩
  | succ k ih =>
    intro s hops hvalid
    have hnext : s.ValidTurn s.nextTurn := by
      unfold State.nextTurn
      cases hs : s.schedule with
      | nil => exact s.defaultTurn_valid
      | cons u us => exact hvalid u (by simp [hs])
    obtain ⟨t, ht⟩ := State.runTurn_total (s := { s with schedule := s.schedule.tail }) hops hnext
    have hstep : step s = .next t := (step_eq_runTurn s).trans ht
    have hops' : t.hostOps = [] := List.suffix_nil.mp (hops ▸ step_hostOps hstep)
    obtain ⟨r, hr⟩ := ih t hops' (fun u hu => by
      rw [step_schedule hstep] at hu
      rw [step_blocks_length hstep]
      exact hvalid u (List.mem_of_mem_tail hu))
    exact ⟨r, (run_succ_of_step hstep).trans hr⟩

end Sys2Proof.Machine
end

section
/-! Proofs about the turns of several blocks (00_scope.md R20, 10_state.md R54, 20_memory.md R98). -/

namespace Sys2Proof.Machine

/-- Settles O56: with the peer in focus its turn is its command, and the exchange of focus is undone. -/
theorem instancesStepIndependently : Obligations.InstancesStepIndependently := by
  intro s k ts p i hs hp hbusy hd
  have hexec := exec_eq_finish i { s with schedule := ts, blk := p, peers := s.peers.set k s.blk }
  have hturn := (State.blockTurn_of_ok (s := { s with schedule := ts, blk := p, peers := s.peers.set k s.blk })
    hbusy hd).trans hexec
  have hrun := State.onInstance_succ (s := { s with schedule := ts }) hp hturn (State.finish_peers _ _ _)
  have hstep : step s = ({ s with schedule := ts } : State).onInstance (k + 1) State.blockTurn := by
    rw [step_eq_runTurn, hs]
    rfl
  exact ⟨_, _, hstep.trans hrun, hexec, rfl, rfl, rfl⟩

namespace State

/-- The completion of a block is enabled exactly where it is BUSY and admitted (R52, R53). -/
theorem completionEnabled_iff {s : State} {k : Nat} {b : Block} (hb : s.blocks[k]? = some b) :
    s.completionEnabled k = true ↔ b.phase = .busy ∧ CompletionAdmitted { s with blk := b } := by
  cases k with
  | zero =>
    cases hb
    exact completionEnabled_zero s
  | succ j => exact completionEnabled_succ hb

/-- An admitted completion of block `k` ends its command and leaves every other block and both lists alone. -/
theorem onInstance_blockTurn_of_admitted {s : State} {k : Nat} {b : Block} (hb : s.blocks[k]? = some b)
    (hp : b.phase = .busy) (ha : CompletionAdmitted { s with blk := b }) :
    ∃ t c, s.onInstance k blockTurn = .next t ∧ t.blocks[k]? = some c ∧ c.phase = .idle ∧
      Status.IsCompletion c.status ∧ (∀ n, n ≠ k → t.blocks[n]? = s.blocks[n]?) ∧ t.hostOps = s.hostOps ∧
      t.schedule = s.schedule := by
  cases k with
  | zero =>
    cases hb
    obtain ⟨w, k, hturn, hphase, hstatus⟩ := blockTurn_of_admitted hp ha
    refine ⟨_, _, hturn, rfl, hphase, hstatus, fun n hn => ?_, finish_hostOps s w k, finish_schedule s w k⟩
    obtain ⟨m, rfl⟩ := Nat.exists_eq_succ_of_ne_zero hn
    simp only [blocks, List.getElem?_cons_succ, finish_peers]
  | succ j =>
    have hj : s.peers[j]? = some b := hb
    have hlt : j < s.peers.length := (List.getElem?_eq_some_iff.mp hj).1
    obtain ⟨w, k, hturn, hphase, hstatus⟩ :=
      blockTurn_of_admitted (s := { s with blk := b, peers := s.peers.set j s.blk }) hp ha
    refine ⟨_, _, onInstance_succ hj hturn (finish_peers _ w k), List.getElem?_set_self hlt, hphase, hstatus,
      fun n hn => ?_, finish_hostOps _ w k, finish_schedule _ w k⟩
    cases n with
    | zero => rfl
    | succ m => exact List.getElem?_set_ne (fun hjm => hn (by rw [hjm]))

end State

/-- Settles O60: the default turn is the first enabled completion, so it is block `k`'s or one before it. -/
theorem enabledCompletionIsNotPassedOver : Obligations.EnabledCompletionIsNotPassedOver := by
  intro s k b hs hb hp ha
  have hk := (State.completionEnabled_iff hb).mpr ⟨hp, ha⟩
  have hklt : k < s.blocks.length := (List.getElem?_eq_some_iff.mp hb).1
  rcases State.defaultTurn_cases s with ⟨j, hturn, hj, hjlt, hfirst⟩ | ⟨_, hnone⟩
  · have hjk : j ≤ k := Nat.le_of_not_lt fun hlt => by simp [hfirst k hlt] at hk
    have hc : s.blocks[j]? = some s.blocks[j] := List.getElem?_eq_getElem hjlt
    obtain ⟨hbusy, hadm⟩ := (State.completionEnabled_iff hc).mp hj
    obtain ⟨t, d, hrun, hd, hidle, hstatus, hothers, hops, hsched⟩ :=
      State.onInstance_blockTurn_of_admitted hc hbusy hadm
    have hstep : step s = .next t := by rw [step_of_schedule_nil hs, hturn, State.runTurn, hrun]
    exact ⟨t, j, s.blocks[j], d, hstep, hjk, hc, hbusy, hd, hidle, (Status.done_busy_of_isCompletion hstatus).1, hothers,
      hops, hsched.trans hs⟩
  · simp [hnone k hklt] at hk

end Sys2Proof.Machine
end

section
/-! More laws of system memory: writes one after the other, and writes over memories that agree at an address. -/

namespace Sys2Proof.Machine.Memory

theorem write_append (m : Memory) (a : Nat) (xs ys : Bytes) :
    write m a (xs ++ ys) = write (write m a xs) (a + xs.length) ys := by
  induction xs generalizing m a with
  | nil => rfl
  | cons x xs ih =>
    rw [List.cons_append, write, ih, write, List.length_cons, Nat.add_right_comm, Nat.add_assoc a]

/-- A read after a write of a byte sequence that may run past the address space. -/
theorem get_write_of_lt {m : Memory} (h : wf m = true) (a : Nat) (bs : Bytes) {i : Nat} (hi : i < bs.length)
    (ha : a + i < 2 ^ 32) : get (write m a bs) (a + i) = bs[i] := by
  have hlen : (bs.take (i + 1)).length = i + 1 := List.length_take_of_le hi
  have hsplit := write_append m a (bs.take (i + 1)) (bs.drop (i + 1))
  rw [List.take_append_drop] at hsplit
  rw [hsplit, get_write_outside (wf_write h _ _) _ _ (by omega), get_write_inside h _ _ (by omega) (by omega),
    List.getElem_take]

theorem get_set_congr {m k : Memory} (hm : wf m = true) (hk : wf k = true) (a : Nat) (b : Byte) {x : Nat}
    (h : get m x = get k x) : get (set m a b) x = get (set k a b) x := by
  by_cases ha : a < 2 ^ 32
  · rw [get_set hm ha, get_set hk ha, h]
  · rwa [set, if_neg ha, set, if_neg ha]

/-- The same write over memories that agree at an address leaves them agreeing there. -/
theorem get_write_congr {m k : Memory} (hm : wf m = true) (hk : wf k = true) (a : Nat) (bs : Bytes) {x : Nat}
    (h : get m x = get k x) : get (write m a bs) x = get (write k a bs) x := by
  induction bs generalizing m k a with
  | nil => exact h
  | cons b bs ih => exact ih (wf_set hm a b) (wf_set hk a b) (a + 1) (get_set_congr hm hk a b h)

/-- Memories that read the same over a range read the same over each part at its start. -/
theorem read_eq_of_le {m k : Memory} {a n N : Nat} (hn : n ≤ N) (h : read m a N = read k a N) :
    read m a n = read k a n := by
  have htake : ∀ q, read q a n = (read q a N).take n := fun q => by
    rw [read, read, ← List.map_take, List.take_range, Nat.min_eq_left hn]
  rw [htake, htake, h]

end Sys2Proof.Machine.Memory
end

section
/-! What a command's rule depends on and what it can answer (10_state.md R53, R56; 30_encoding.md R112). -/

namespace Sys2Proof.Machine

/-- Two memories hold the same latched source bytes. -/
def SameSource (l : Latch) (m k : Memory) : Prop :=
  Memory.read m l.srcAddr.toNat l.srcLen.toNat = Memory.read k l.srcAddr.toNat l.srcLen.toNat

section Source

variable {b : Block} {m k : Memory} (h : SameSource b.latch m k)

include h

theorem encodeBody_congr : encodeBody b m = encodeBody b k := by
  by_cases hdims : EncodeDimsOk b
  · rw [SameSource, hdims.2.2] at h
    rw [encodeBody_of_dims m hdims, encodeBody_of_dims k hdims, h]
  · rw [encodeBody_of_bad_dims m hdims, encodeBody_of_bad_dims k hdims]

theorem packRowBody_congr : packRowBody b m = packRowBody b k := by
  by_cases hdims : b.latch.arg0.toNat = 0 ∨ b.latch.srcLen.toNat ≠ 4 * b.latch.arg0.toNat
  · rw [packRowBody_of_bad_dims m hdims, packRowBody_of_bad_dims k hdims]
  · obtain ⟨hn, hlen⟩ := not_or.mp hdims
    have hlen := not_not.mp hlen
    rw [SameSource, hlen] at h
    rcases Nat.lt_or_ge b.latch.dstCap.toNat (stride b.latch.arg0.toNat) with hcap | hcap
    · rw [packRowBody_of_overflow m hn hlen hcap, packRowBody_of_overflow k hn hlen hcap]
    · rw [packRowBody_of_fits m hn hlen hcap, packRowBody_of_fits k hn hlen hcap, h]

theorem unpackRowBody_congr : unpackRowBody b m = unpackRowBody b k := by
  by_cases hn : b.latch.arg0.toNat = 0
  · rw [unpackRowBody_of_no_pixels m hn, unpackRowBody_of_no_pixels k hn]
  · rcases Nat.lt_or_ge b.latch.srcLen.toNat (rowBytes b.latch.arg0.toNat) with hlen | hlen
    · rw [unpackRowBody_of_short_source m hn hlen, unpackRowBody_of_short_source k hn hlen]
    · rcases Nat.lt_or_ge b.latch.dstCap.toNat (1 + rowBytes b.latch.arg0.toNat) with hcap | hcap
      · rw [unpackRowBody_of_overflow m hn hlen hcap, unpackRowBody_of_overflow k hn hlen hcap]
      · rw [unpackRowBody_of_fits m hn hlen hcap, unpackRowBody_of_fits k hn hlen hcap, Memory.read_eq_of_le hlen h]

theorem decodeBody_congr : decodeBody b m = decodeBody b k := by
  have hbuf : Memory.read m b.latch.src.base b.latch.src.size = Memory.read k b.latch.src.base b.latch.src.size := h
  dsimp only [decodeBody]
  rw [hbuf]

theorem zlibBody_congr : zlibBody b m = zlibBody b k := by
  have hbuf : Memory.read m b.latch.src.base b.latch.src.size = Memory.read k b.latch.src.base b.latch.src.size := h
  dsimp only [zlibBody]
  rw [hbuf]

theorem crc32Body_congr : crc32Body b m = crc32Body b k := by
  have hbuf : Memory.read m b.latch.src.base b.latch.src.size = Memory.read k b.latch.src.base b.latch.src.size := h
  dsimp only [crc32Body]
  rw [hbuf]

theorem adler32Body_congr : adler32Body b m = adler32Body b k := by
  have hbuf : Memory.read m b.latch.src.base b.latch.src.size = Memory.read k b.latch.src.base b.latch.src.size := h
  dsimp only [adler32Body]
  rw [hbuf]

end Source

/-- Of memory a command's rule reads the latched source range only (R53). -/
theorem commandWork_congr_source (i : Instr) {s t : State} (hlatch : t.blk.latch = s.blk.latch)
    (hcfg : t.blk.cfg = s.blk.cfg) (hsrc : SameSource s.blk.latch t.mem s.mem) : commandWork i t = commandWork i s := by
  have hblk : commandWork i t = commandWork i { s with mem := t.mem } := commandWork_congr i hlatch hcfg rfl
  rw [hblk]
  unfold commandWork
  cases prologue (writesMemory i) s.blk.latch with
  | some e => rfl
  | none =>
    cases i with
    | encode => exact encodeBody_congr hsrc
    | decode => exact decodeBody_congr hsrc
    | packRow => exact packRowBody_congr hsrc
    | unpackRow => exact unpackRowBody_congr hsrc
    | crc32 => exact crc32Body_congr hsrc
    | adler32 => exact adler32Body_congr hsrc
    | zlib => exact zlibBody_congr hsrc

/-- A success of the work has value 0 and an output of at most `cap` bytes (R112). -/
def Work.Fits (cap : Nat) (k : Work) : Prop := ∀ out val, k.result = .ok out val → val = 0 ∧ out.length ≤ cap

theorem Work.fits_fail (cap : Nat) (rs : List Range) (e : ErrCode) : (Work.fail rs e).Fits cap := nofun

theorem Work.fits_done {cap : Nat} {out : Bytes} (rs : List Range) (h : out.length ≤ cap) :
    (Work.done rs out 0).Fits cap := by
  rintro _ _ ⟨⟩
  exact ⟨rfl, h⟩

section Fits

variable (b : Block) (m : Memory)

theorem encodeBody_fits : (encodeBody b m).Fits b.latch.dstCap.toNat := by
  dsimp only [encodeBody]
  split_ifs with hdims hL hcap
  · exact Work.fits_fail _ _ _
  · exact Work.fits_fail _ _ _
  · exact Work.fits_fail _ _ _
  · exact Work.fits_done _ (by rw [bitmap_length _ (Nat.not_lt.mp hL)]; exact Nat.not_lt.mp hcap)

theorem packRowBody_fits : (packRowBody b m).Fits b.latch.dstCap.toNat := by
  dsimp only [packRowBody]
  split_ifs with hdims hcap
  · exact Work.fits_fail _ _ _
  · exact Work.fits_fail _ _ _
  · exact Work.fits_done _ (by rw [pack_length]; exact Nat.not_lt.mp hcap)

theorem unpackRowBody_fits : (unpackRowBody b m).Fits b.latch.dstCap.toNat := by
  dsimp only [unpackRowBody]
  split_ifs with hn hlen hcap
  · exact Work.fits_fail _ _ _
  · exact Work.fits_fail _ _ _
  · exact Work.fits_fail _ _ _
  · exact Work.fits_done _ (by rw [rowCopy_length _ (Memory.read_length _ _ _).ge]; exact Nat.not_lt.mp hcap)

theorem decodeBody_fits : (decodeBody b m).Fits b.latch.dstCap.toNat := by
  dsimp only [decodeBody]
  split
  · exact Work.fits_fail _ _ _
  · split_ifs with hcap
    · exact Work.fits_fail _ _ _
    · exact Work.fits_done _ (Nat.not_lt.mp hcap)

theorem zlibBody_fits : (zlibBody b m).Fits b.latch.dstCap.toNat := by
  dsimp only [zlibBody]
  split_ifs with hcap
  · exact Work.fits_fail _ _ _
  · exact Work.fits_done _ (Nat.not_lt.mp hcap)

end Fits

/-- The output of a writing command's success fits its capacity, and its value is 0 (R112). -/
theorem commandWork_fits {i : Instr} (hw : writesMemory i = true) (s : State) :
    (commandWork i s).Fits s.blk.latch.dstCap.toNat := by
  unfold commandWork
  cases prologue (writesMemory i) s.blk.latch with
  | some e => exact Work.fits_fail _ _ e
  | none =>
    cases i with
    | encode => exact encodeBody_fits _ _
    | decode => exact decodeBody_fits _ _
    | packRow => exact packRowBody_fits _ _
    | unpackRow => exact unpackRowBody_fits _ _
    | zlib => exact zlibBody_fits _ _
    | crc32 => cases hw
    | adler32 => cases hw

/-- A checksum command's success has no output bytes (R232, R235). -/
theorem commandWork_checksum_out {i : Instr} (hw : writesMemory i = false) {s : State} {out : Bytes} {val : Word}
    (h : (commandWork i s).result = .ok out val) : out = [] := by
  unfold commandWork at h
  cases hp : prologue (writesMemory i) s.blk.latch with
  | some e =>
    rw [hp] at h
    cases h
  | none =>
    rw [hp] at h
    cases i with
    | crc32 => cases h; rfl
    | adler32 => cases h; rfl
    | encode => cases hw
    | decode => cases hw
    | packRow => cases hw
    | unpackRow => cases hw
    | zlib => cases hw

end Sys2Proof.Machine
end

section
/-! What the completion of a command writes (10_state.md R52, 60_exceptions.md R264, 70_reset_and_hazards.md R297). -/

namespace Sys2Proof.Machine

/-- What a completion of work `k` writes at the latched destination: nothing, the output of an untainted success, or draws
over the whole capacity. -/
inductive CompletionBytes (s : State) (w : Bool) (k : Work) : Bytes → Prop where
  | none : CompletionBytes s w k []
  | output (writes : w = true) {out : Bytes} {val : Word} (ok : k.result = .ok out val)
      (length : (s.finish w k).blk.resultLen = BitVec.ofNat 32 out.length) : CompletionBytes s w k out
  | drawn (writes : w = true) (tainted : s.blk.taint = true) {bs : Bytes} (length : bs.length = s.blk.latch.dstCap.toNat) :
      CompletionBytes s w k bs

/-- A completion writes one byte sequence at the latched destination, whatever memory and peers it finds, and is
otherwise the same. -/
theorem finish_writes (s : State) (w : Bool) (k : Work) :
    ∃ bs, CompletionBytes s w k bs ∧ ∀ m ps, State.finish { s with mem := m, peers := ps } w k =
      { s.finish w k with mem := Memory.write m s.blk.latch.dstAddr.toNat bs, peers := ps } := by
  have hsame : ∀ m ps, State.finish { s with mem := m, peers := ps } w k =
      if admittedAll s.blk (k.accessed w s.blk.latch) then
        if s.blk.taint then State.settleTainted { s with mem := m, peers := ps } w
        else State.settle { s with mem := m, peers := ps } w k.result
      else { s with mem := m, peers := ps } := fun _ _ => rfl
  rcases finish_cases s w k with ⟨ha, hf⟩ | ⟨ha, ⟨ht, hf⟩ | ⟨ht, ⟨out, val, hr, hf⟩ | ⟨e, hr, hf⟩⟩⟩
  · refine ⟨[], .none, fun m ps => ?_⟩
    rw [hsame, ha, hf]
    rfl
  · cases w with
    | false =>
      refine ⟨[], .none, fun m ps => ?_⟩
      rw [hsame, ha, ht, hf]
      rfl
    | true =>
      refine ⟨(List.range s.blk.latch.dst.size).map (fun i => Config.freeByte (s.draws + i)),
        .drawn rfl ht (by rw [List.length_map, List.length_range]; rfl), fun m ps => ?_⟩
      rw [hsame, ha, ht, hf]
      rfl
  · cases w with
    | false =>
      refine ⟨[], .none, fun m ps => ?_⟩
      rw [hsame, ha, ht, hr, hf]
      rfl
    | true =>
      refine ⟨out, .output rfl hr (by rw [hf]; rfl), fun m ps => ?_⟩
      rw [hsame, ha, ht, hr, hf]
      rfl
  · refine ⟨[], .none, fun m ps => ?_⟩
    rw [hsame, ha, ht, hr, hf]
    rfl

section Command

variable {s : State} {i : Instr} {bs : Bytes} (h : CompletionBytes s (writesMemory i) (commandWork i s) bs)

include h

/-- A command writes inside its latched destination range. -/
theorem CompletionBytes.length_le_dstCap : bs.length ≤ s.blk.latch.dstCap.toNat := by
  cases h with
  | none => exact Nat.zero_le _
  | output writes ok _ => exact (commandWork_fits writes s _ _ ok).2
  | drawn _ _ length => exact length.le

theorem CompletionBytes.eq_nil (hw : writesMemory i = false) : bs = [] := by
  cases h with
  | none => rfl
  | output writes => rw [hw] at writes; cases writes
  | drawn writes => rw [hw] at writes; cases writes

/-- An untainted command writes the bytes that `RESULT_LEN` counts. -/
theorem CompletionBytes.length_le_resultLen (ht : s.blk.taint = false) :
    bs.length ≤ (s.finish (writesMemory i) (commandWork i s)).blk.resultLen.toNat := by
  have hcap := h.length_le_dstCap
  cases h with
  | none => exact Nat.zero_le _
  | output writes ok length =>
    rw [length, BitVec.toNat_ofNat, Nat.mod_eq_of_lt (Nat.lt_of_le_of_lt hcap (BitVec.isLt _))]
  | drawn _ tainted _ => rw [ht] at tainted; cases tainted

end Command

/-- A command writes one byte sequence at its latched destination, which does not depend on the memory it finds as long as
its work does not. -/
theorem exec_writes (i : Instr) (s : State) :
    ∃ bs, CompletionBytes s (writesMemory i) (commandWork i s) bs ∧
      ∀ m ps, commandWork i { s with mem := m, peers := ps } = commandWork i s →
        exec i { s with mem := m, peers := ps } =
          .next { s.finish (writesMemory i) (commandWork i s) with
            mem := Memory.write m s.blk.latch.dstAddr.toNat bs, peers := ps } := by
  obtain ⟨bs, hbs, hfin⟩ := finish_writes s (writesMemory i) (commandWork i s)
  exact ⟨bs, hbs, fun m ps hwork => by rw [exec_eq_finish, hwork, hfin]⟩

/-- What a command never changes: the configuration, the operand registers, the latch, TAINT, the other blocks and the
host's lists (R52, R113). -/
theorem finish_frame (s : State) (w : Bool) (k : Work) :
    (s.finish w k).blk.cfg = s.blk.cfg ∧ (s.finish w k).blk.srcAddr = s.blk.srcAddr ∧
      (s.finish w k).blk.srcLen = s.blk.srcLen ∧ (s.finish w k).blk.dstAddr = s.blk.dstAddr ∧
      (s.finish w k).blk.dstCap = s.blk.dstCap ∧ (s.finish w k).blk.arg0 = s.blk.arg0 ∧
      (s.finish w k).blk.arg1 = s.blk.arg1 ∧ (s.finish w k).blk.latch = s.blk.latch ∧
      (s.finish w k).blk.taint = s.blk.taint ∧ (s.finish w k).peers = s.peers ∧ (s.finish w k).hostOps = s.hostOps ∧
      (s.finish w k).schedule = s.schedule ∧ (s.finish w k).seen = s.seen := by
  rcases finish_cases s w k with ⟨_, hf⟩ | ⟨_, ⟨_, hf⟩ | ⟨_, ⟨_, _, _, hf⟩ | ⟨_, _, hf⟩⟩⟩ <;> simp [hf]

/-- Settles O23: all that a command writes are the bytes of `exec_writes`. -/
theorem commandFrame : Obligations.CommandFrame := by
  intro s t i hm h
  obtain ⟨bs, hbs, hexec⟩ := exec_writes i s
  have hmem : t.mem = Memory.write s.mem s.blk.latch.dstAddr.toNat bs := by
    cases h.symm.trans (hexec s.mem s.peers rfl)
    rfl
  have hcap := hbs.length_le_dstCap
  obtain rfl : s.finish (writesMemory i) (commandWork i s) = t := by
    rw [exec_eq_finish] at h
    cases h
    rfl
  refine ⟨finish_frame _ _ _, fun hi a => ?checksum, fun ht a ha => ?untainted, fun a ha => ?any⟩
  case checksum =>
    have hw : writesMemory i = false := by rcases hi with rfl | rfl <;> rfl
    rw [hmem, hbs.eq_nil hw, Memory.write]
  case untainted =>
    have hlen := hbs.length_le_resultLen ht
    rw [hmem, Memory.get_write_outside hm _ _ (by omega)]
  case any => rw [hmem, Memory.get_write_outside hm _ _ (by omega)]

/-- A host store outside the latched ranges leaves the block in focus alone. -/
theorem storeByte_of_no_hazard {s : State} {a : Word} (h : s.blk.latch.storeHazard a.toNat = false) (b : Byte) :
    ∃ ps, s.storeByte a b = { s with mem := Memory.set s.mem a.toNat b, peers := ps } := by
  refine ⟨(s.taintWhere (fun l => l.storeHazard a.toNat)).peers, ?_⟩
  simp only [State.storeByte, State.taintWhere, h, Bool.and_false, Bool.false_eq_true, if_false]

/-- A store outside the latched source range leaves the source bytes alone. -/
theorem sameSource_set {l : Latch} {m : Memory} (hm : Memory.wf m = true) {a : Nat} (b : Byte)
    (h : ¬(l.srcAddr.toNat ≤ a ∧ a < l.srcAddr.toNat + l.srcLen.toNat)) : SameSource l (Memory.set m a b) m :=
  Memory.read_congr fun i hi => Memory.get_set_ne hm (by omega) b

/-- Settles O54: the store changes neither the command's work nor what it writes, and lies outside of it. -/
theorem unrelatedStoresDoNotInterfere : Obligations.UnrelatedStoresDoNotInterfere := by
  intro s t i a b hm hd hhazard h
  obtain ⟨bs, hbs, hexec⟩ := exec_writes i s
  obtain ⟨ps, hstore⟩ := storeByte_of_no_hazard hhazard b
  have hcap := hbs.length_le_dstCap
  have hwrites : s.blk.latch.writes = writesMemory i := by simp only [Latch.writes, hd]
  rw [Latch.storeHazard, Bool.or_eq_false_iff, hwrites] at hhazard
  obtain ⟨hsrc, hdst⟩ := hhazard
  have hsrc' : ¬(s.blk.latch.srcAddr.toNat ≤ a.toNat ∧ a.toNat < s.blk.latch.srcAddr.toNat + s.blk.latch.srcLen.toNat) :=
    of_decide_eq_false hsrc
  have houtside : a.toNat < s.blk.latch.dstAddr.toNat ∨ s.blk.latch.dstAddr.toNat + bs.length ≤ a.toNat := by
    cases hw : writesMemory i with
    | false =>
      rw [hbs.eq_nil hw, List.length_nil]
      omega
    | true =>
      rw [hw, Bool.true_and] at hdst
      have hdst' : ¬(s.blk.latch.dstAddr.toNat ≤ a.toNat ∧
        a.toNat < s.blk.latch.dstAddr.toNat + s.blk.latch.dstCap.toNat) := of_decide_eq_false hdst
      omega
  have hwork : commandWork i { s with mem := Memory.set s.mem a.toNat b, peers := ps } = commandWork i s :=
    commandWork_congr_source i rfl rfl (sameSource_set hm b hsrc')
  cases h.symm.trans (hexec s.mem s.peers rfl)
  refine ⟨_, (congrArg (exec i) hstore).trans (hexec _ ps hwork), rfl, fun x => ?_⟩
  by_cases hx : x = a.toNat
  · subst hx
    rw [if_pos rfl, Memory.get_write_outside (Memory.wf_set hm _ _) _ _ houtside, Memory.get_set hm a.isLt, if_pos rfl]
  · rw [if_neg hx]
    exact Memory.get_write_congr (Memory.wf_set hm _ _) hm _ _ (Memory.get_set_ne hm hx b)

/-- Settles O22: a success completes with the output and the value of the command's work. -/
theorem resultsOfASuccess : Obligations.ResultsOfASuccess := by
  intro s t i ht hs h hok
  obtain ⟨out, val, hres, rfl⟩ := exec_success_inv ht hs h hok
  refine ⟨fun hw => ?writes, fun hw => ?checksum, rfl⟩
  case writes =>
    obtain ⟨hval, hcap⟩ := commandWork_fits hw s out val hres
    refine ⟨hval, ?_⟩
    rw [State.complete_blk_resultLen, BitVec.toNat_ofNat]
    exact (Nat.mod_le _ _).trans hcap
  case checksum =>
    rw [State.complete_blk_resultLen, State.complete_mem, commandWork_checksum_out hw hres, hw]
    exact ⟨rfl, rfl⟩

/-- With nothing in flight a host load sees the byte of memory. -/
theorem loadByte_of_idle {s : State} (h : ∀ b ∈ s.blocks, b.phase = .idle) (a : Word) :
    s.loadByte a = { s with seen := .byte a (Memory.get s.mem a.toNat) :: s.seen } := by
  have hnone : s.blocks.any (fun b => b.busy && b.latch.loadHazard a.toNat) = false :=
    List.any_eq_false.mpr fun b hb => by simp [Block.busy_of_idle (h b hb)]
  simp only [State.loadByte, hnone, Bool.false_eq_true, if_false]

/-- Settles O24: after the completion nothing is in flight, and the output stands inside the address space. -/
theorem outputIsSeenAfterDone : Obligations.OutputIsSeenAfterDone := by
  rintro s t i out a k hm hpeers ⟨_, hdst, _⟩ hw ht h hs hok hres ha hk
  obtain ⟨out', val, hres', rfl⟩ := exec_success_inv ht hs h hok
  cases hres.symm.trans hres'
  have hcap := (commandWork_fits hw s out 0 hres).2
  have hidle : ∀ b ∈ (s.complete (writesMemory i) out 0).blocks, b.phase = .idle := by
    rw [State.blocks, State.complete_peers, hpeers]
    exact fun b hb => List.mem_singleton.mp hb ▸ rfl
  rw [loadByte_of_idle hidle, State.complete_mem, hw, if_pos rfl, ha,
    Memory.get_write_inside hm _ _ (by omega) hk, State.complete_seen]

theorem settleTainted_blk_results (s : State) (w : Bool) :
    (s.settleTainted w).blk.resultLen = Config.freeWord ((s.settleTainted w).draws - 2) ∧
      (s.settleTainted w).blk.result = Config.freeWord ((s.settleTainted w).draws - 1) := by
  cases w <;> exact ⟨rfl, rfl⟩

/-- Settles O25: an admitted tainted completion is `settleTainted`, whose every part is a draw. -/
theorem taintedCompletionIsADraw : Obligations.TaintedCompletionIsADraw := by
  intro s i n hm ht hadm hn
  have hadmitted : admittedAll s.blk ((commandWork i s).accessed (writesMemory i) s.blk.latch) = true :=
    (admittedAll_iff _ _).mpr hadm
  have hexec : exec i s = .next (s.settleTainted (writesMemory i)) := by
    rw [exec_eq_finish, State.finish, if_pos hadmitted, if_pos ht]
  have hdraws : (s.settleTainted (writesMemory i)).draws = n + 2 := by
    rw [State.settleTainted_draws, hn]
    cases writesMemory i <;> rfl
  obtain ⟨hlen, hres⟩ := settleTainted_blk_results s (writesMemory i)
  have hstatus := State.settleTainted_blk_status s (writesMemory i)
  rw [hdraws, Nat.add_sub_cancel] at hstatus hlen
  rw [hdraws, show n + 2 - 1 = n + 1 from rfl] at hres
  refine ⟨_, hexec, State.settleTainted_blk_phase _ _, hstatus, hlen, hres, hdraws, ?legal, fun hw => ?checksum,
    fun hw k hk hlt => ?draws⟩
  case legal =>
    rw [hstatus]
    exact Status.isCompletion_ofOutcome _
  case checksum =>
    rw [State.settleTainted_mem, hw]
    rfl
  case draws =>
    have hsize : k < s.blk.latch.dst.size := hk
    rw [State.settleTainted_mem, hw, if_pos rfl, State.drawRange_mem]
    have hget := Memory.get_write_of_lt hm s.blk.latch.dst.base
      ((List.range s.blk.latch.dst.size).map (fun i => Config.freeByte (s.draws + i))) (i := k) (by simpa using hsize) hlt
    rw [List.getElem_map, List.getElem_range] at hget
    exact hget

end Sys2Proof.Machine
end

section
/-! Proofs about a block whose completion is not admitted (10_state.md R53, 20_memory.md R91). -/

namespace Sys2Proof.Machine

theorem not_admittedAll_of_notAdmitted {i : Instr} {s : State} (h : NotAdmitted i s) :
    admittedAll s.blk (accessedSet i s) = false := by
  obtain ⟨r, hr, a, hlow, hhigh, hnot⟩ := h
  rw [← Bool.not_eq_true, admittedAll_iff]
  intro hall
  rw [hall r hr a hlow hhigh] at hnot
  cases hnot

/-- A command that accesses an address outside `MEM_ADMIT` has no step (R53). -/
theorem exec_of_notAdmitted {i : Instr} {s : State} (h : NotAdmitted i s) : exec i s = .next s := by
  rw [exec_eq_finish, State.finish_of_not_admitted (not_admittedAll_of_notAdmitted h)]

/-- The accessed set and its admission are a matter of the latch, the configuration and the source bytes. -/
theorem NotAdmitted.congr {i : Instr} {s t : State} (h : NotAdmitted i s) (hlatch : t.blk.latch = s.blk.latch)
    (hcfg : t.blk.cfg = s.blk.cfg) (hsrc : SameSource s.blk.latch t.mem s.mem) : NotAdmitted i t := by
  obtain ⟨r, hr, a, hlow, hhigh, hnot⟩ := h
  refine ⟨r, ?_, a, hlow, hhigh, by rwa [admitted_congr hcfg]⟩
  rwa [accessedSet, commandWork_congr_source i hlatch hcfg hsrc, hlatch]

namespace Stuck

variable {i : Instr} {s t : State} (h : Stuck i s)

include h

theorem not_admitted : ¬CompletionAdmitted s := by
  obtain ⟨_, hd, r, hr, a, hlow, hhigh, hnot⟩ := h
  intro hadm
  rw [hadm i hd r hr a hlow hhigh] at hnot
  cases hnot

/-- The turn of a stuck block is used up with nothing changed (log 9). -/
theorem blockTurn : s.blockTurn = .next s := by
  obtain ⟨hp, hd, hnot⟩ := h
  rw [State.blockTurn_of_ok hp hd, exec_of_notAdmitted hnot]

/-- No agent but the block's own reset takes it out of its command. -/
theorem step_keeps (hstep : step s = .next t) (hreset : ∀ ts, s.schedule ≠ .reset 0 :: ts) :
    t.blk.phase = .busy ∧ t.blk.latch = s.blk.latch ∧ t.blk.status = s.blk.status ∧ t.blk.cfg = s.blk.cfg := by
  have hbusy : s.blk.phase = .busy := h.1
  generalize ht : t.blk = c
  have hev := step_focus_event hstep
  rw [ht] at hev
  cases hev with
  | keep same =>
    obtain ⟨hcfg, hphase, hlatch, hstatus, _⟩ := Block.fields_of_clearTaint same
    exact ⟨hphase.trans hbusy, hlatch, hstatus, hcfg⟩
  | operand v r =>
    exact ⟨(Block.storeReg_phase _ v r).trans hbusy, Block.storeReg_latch _ v r, Block.storeReg_status _ v r,
      Block.storeReg_cfg _ v r⟩
  | accept idle l taint =>
    rw [hbusy] at idle
    cases idle
  | complete busy admitted idle status => exact absurd admitted h.not_admitted
  | reset own =>
    obtain ⟨ts, hts⟩ := State.schedule_of_nextTurn_reset own
    exact absurd hts (hreset ts)

/-- A step that leaves the source bytes of a stuck command alone leaves it stuck. -/
theorem step_stuck (hstep : step s = .next t) (hreset : ∀ ts, s.schedule ≠ .reset 0 :: ts)
    (hsrc : SameSource s.blk.latch t.mem s.mem) : Stuck i t := by
  obtain ⟨hphase, hlatch, _, hcfg⟩ := h.step_keeps hstep hreset
  obtain ⟨_, hd, hnot⟩ := h
  exact ⟨hphase, by rwa [hlatch], hnot.congr hlatch hcfg hsrc⟩

end Stuck

/-- A host access changes memory only as a byte store. -/
theorem State.hostEffect_mem {s t : State} {rest : List HostOp} {op : HostOp} (h : HostEffect s rest op t) :
    t.mem = s.mem ∨ ∃ a b, op = .st a b ∧ t.mem = Memory.set s.mem a.toNat b := by
  cases h with
  | @write _ _ v k r _ _ run =>
    refine .inl (onInstance_shared (P := fun u => u.mem = s.mem) (fun _ _ _ hu => hu) (fun b ps u hu => ?_) run)
    cases hu
    rw [writeReg_mem]
  | store target => exact .inr ⟨_, _, rfl, rfl⟩
  | load target => exact .inl (loadByte_mem _ _)
  | other ops seen => exact .inl rfl

/-- A lone block stuck on command `i`, with no reset of it and no store to its source bytes to come. -/
structure StuckAlone (i : Instr) (s : State) : Prop where
  stuck : Stuck i s
  mem_wf : Memory.wf s.mem = true
  alone : s.peers = []
  no_reset : Turn.reset 0 ∉ s.schedule
  no_store : ∀ a b, HostOp.st a b ∈ s.hostOps →
    ¬(s.blk.latch.srcAddr.toNat ≤ a.toNat ∧ a.toNat < s.blk.latch.srcAddr.toNat + s.blk.latch.srcLen.toNat)

namespace StuckAlone

variable {i : Instr} {s t : State} (h : StuckAlone i s)

include h

/-- With no peers no operation reaches another block. -/
theorem onInstance_succ_ne {j : Nat} {f : State → Host.Outcome State Fault Refusal} : s.onInstance (j + 1) f ≠ .next t := by
  intro hrun
  obtain ⟨p, u, q, hp, _⟩ := State.onInstance_succ_inv hrun
  simp [h.alone] at hp

/-- Whoever moves, the source bytes stay. -/
theorem runTurn_source {turn : Turn} (hturn : turn ≠ .reset 0) (hrun : s.runTurn turn = .next t) :
    SameSource s.blk.latch t.mem s.mem := by
  cases turn with
  | host =>
    rcases State.hostTurn_next hrun with ⟨_, rfl⟩ | ⟨op, rest, hops, heff⟩
    · rfl
    · rcases State.hostEffect_mem heff with hmem | ⟨a, b, rfl, hmem⟩
      · rw [hmem]
        rfl
      · rw [hmem]
        exact sameSource_set h.mem_wf b (h.no_store a b (by simp [hops]))
  | block k =>
    cases k with
    | zero =>
      cases h.stuck.blockTurn.symm.trans hrun
      rfl
    | succ j => exact absurd hrun h.onInstance_succ_ne
  | reset k =>
    cases k with
    | zero => exact absurd rfl hturn
    | succ j => exact absurd hrun (h.onInstance_succ_ne (f := fun a => .next a.resetBlock))

theorem schedule_ne_reset (ts : List Turn) : s.schedule ≠ .reset 0 :: ts := fun hs =>
  h.no_reset (by simp [hs])

/-- Every step keeps a lone block stuck, on the same latch and STATUS. -/
theorem step_keeps (hstep : step s = .next t) :
    StuckAlone i t ∧ t.blk.latch = s.blk.latch ∧ t.blk.status = s.blk.status := by
  obtain ⟨_, hlatch, hstatus, _⟩ := h.stuck.step_keeps hstep h.schedule_ne_reset
  have hturn : s.nextTurn ≠ .reset 0 := fun hn => by
    obtain ⟨ts, hts⟩ := State.schedule_of_nextTurn_reset hn
    exact h.schedule_ne_reset ts hts
  have hsrc : SameSource s.blk.latch t.mem s.mem := by
    have hrun := hstep
    rw [step_eq_runTurn] at hrun
    have hno : Turn.reset 0 ∉ s.schedule.tail := fun hm => h.no_reset (List.mem_of_mem_tail hm)
    exact StuckAlone.runTurn_source (s := { s with schedule := s.schedule.tail })
      ⟨h.stuck, h.mem_wf, h.alone, hno, h.no_store⟩ hturn hrun
  have halone : t.peers = [] := by
    have hlen := step_blocks_length hstep
    rw [State.blocks, State.blocks, h.alone] at hlen
    exact List.eq_nil_of_length_eq_zero (Nat.succ.inj hlen)
  refine ⟨⟨h.stuck.step_stuck hstep h.schedule_ne_reset hsrc, step_mem_wf h.mem_wf hstep, halone, fun hm => ?_,
    fun a b hm => ?_⟩, hlatch, hstatus⟩
  · rw [step_schedule hstep] at hm
    exact h.no_reset (List.mem_of_mem_tail hm)
  · rw [hlatch]
    exact h.no_store a b ((step_hostOps hstep).subset hm)

end StuckAlone

/-- A run that goes through begins with a step that does. -/
theorem run_succ_inv {k : Nat} {s t : State} (h : Host.Core.run Sys2Proof.core (k + 1) s = .next t) :
    ∃ u, step s = .next u ∧ Host.Core.run Sys2Proof.core k u = .next t := by
  cases hs : step s with
  | next u => exact ⟨u, rfl, (run_succ_of_step hs).symm.trans h⟩
  | fault e =>
    have hcore : Sys2Proof.core.step s = .fault e := hs
    simp only [Host.Core.run, hcore] at h
    cases h
  | refused e =>
    have hcore : Sys2Proof.core.step s = .refused e := hs
    simp only [Host.Core.run, hcore] at h
    cases h

theorem StuckAlone.run_keeps {i : Instr} {k : Nat} {s t : State} (h : StuckAlone i s)
    (hrun : Host.Core.run Sys2Proof.core k s = .next t) :
    StuckAlone i t ∧ t.blk.latch = s.blk.latch ∧ t.blk.status = s.blk.status := by
  induction k generalizing s with
  | zero =>
    cases hrun
    exact ⟨h, rfl, rfl⟩
  | succ k ih =>
    obtain ⟨u, hstep, hrest⟩ := run_succ_inv hrun
    obtain ⟨hu, hlatch, hstatus⟩ := h.step_keeps hstep
    obtain ⟨ht, hlatch', hstatus'⟩ := ih hu hrest
    exact ⟨ht, hlatch'.trans hlatch, hstatus'.trans hstatus⟩

/-- Settles O9: only the block's own completion or reset would end the command, and the one is not admitted. -/
theorem notAdmittedStaysBusyForGood : Obligations.NotAdmittedStaysBusyForGood := by
  refine ⟨fun s i => exec_of_notAdmitted, fun s i h => ⟨fun t hstep hreset => ?one, fun hm halone hreset hstore k t hrun =>
    ?run⟩⟩
  case one =>
    obtain ⟨hphase, hlatch, hstatus, _⟩ := h.step_keeps hstep hreset
    refine ⟨hphase, hlatch, hstatus, fun hsrc => h.step_stuck hstep hreset ?_⟩
    rwa [srcBytes, hlatch] at hsrc
  case run =>
    obtain ⟨ht, hlatch, hstatus⟩ := StuckAlone.run_keeps ⟨h, hm, halone, hreset, hstore⟩ hrun
    exact ⟨ht.stuck, hlatch, hstatus⟩

end Sys2Proof.Machine
end

section
/-! Proofs about the register window and the host's accesses to it (10_state.md R32, R46, R47; 20_memory.md R88;
30_encoding.md R117). -/

namespace Sys2Proof.Machine

/-- The registers that store what is written (R47), `CMD` aside. -/
def operandRegs : List Reg := [.srcAddr, .srcLen, .dstAddr, .dstCap, .arg0, .arg1]

theorem Block.storeReg_of_not_operand {r : Reg} (h : r ∉ operandRegs) (b : Block) (v : Word) : b.storeReg v r = b := by
  cases r with
  | srcAddr | srcLen | dstAddr | dstCap | arg0 | arg1 => exact absurd (by decide) h
  | _ => rfl

/-- An operand register reads what was written to it, and no other register's reading changes. -/
theorem Block.readReg_storeReg_of_operand {r : Reg} (h : r ∈ operandRegs) (b : Block) (v : Word) (q : Reg) :
    (b.storeReg v r).readReg q = if q = r then v else b.readReg q := by
  simp only [operandRegs, List.mem_cons, List.not_mem_nil, or_false] at h
  rcases h with rfl | rfl | rfl | rfl | rfl | rfl <;> cases q <;> rfl

/-- The register at each aligned offset of the window has that offset (R32). -/
theorem Reg.offset_of_all : ∀ n < 16, Reg.all[n]?.map Reg.offset = some (4 * n) := by decide

theorem Reg.eq_offset_of_ofOffset {o : Nat} {r : Reg} (h : Reg.ofOffset o = some r) : o = r.offset := by
  unfold ofOffset at h
  split at h
  case isFalse => cases h
  case isTrue haligned =>
    have hlt : o / 4 < 16 := (List.getElem?_eq_some_iff.mp h).1
    have hoffset := offset_of_all _ hlt
    rw [h, Option.map_some, Option.some.injEq] at hoffset
    omega

/-- Settles O10: an operand register stores, every other ignores a write, and offsets and registers are one to one. -/
theorem registerReadsAndWrites : Obligations.RegisterReadsAndWrites := by
  refine ⟨fun b v r q _ => ?store, fun b => ?read, ?offsets, Reg.ofOffset_offset, fun o r => Reg.eq_offset_of_ofOffset⟩
  case store =>
    change _ = if q = r ∧ r ∈ operandRegs then v else b.readReg q
    by_cases hr : r ∈ operandRegs
    · rw [Block.readReg_storeReg_of_operand hr]
      simp only [hr, and_true]
    · rw [Block.storeReg_of_not_operand hr, if_neg (fun h => hr h.2)]
  case read => exact ⟨rfl, rfl, rfl, rfl, rfl, rfl, rfl, rfl, rfl, rfl, rfl, rfl, rfl, rfl, rfl, rfl⟩
  case offsets => exact ⟨rfl, rfl, rfl, rfl, rfl, rfl, rfl, rfl, rfl, rfl, rfl, rfl, rfl, rfl, rfl, rfl⟩

namespace State

/-- An access that meets the only window and is not an aligned 32-bit access is not admitted (R88). -/
theorem busTarget_of_bad_access {s : State} {a : Word} {width : AccessWidth} (hp : s.peers = [])
    (hbase : s.blk.window.base % 64 = 0) (hmeets : s.blk.window.overlaps ⟨a.toNat, widthBytes width⟩ = true)
    (hbad : ¬(width = .b32 ∧ a.toNat % 4 = 0)) : s.busTarget a width = .notAdmitted := by
  cases width with
  | b8 | b16 | b64 => simp only [busTarget, meeting_of_overlaps hp hmeets]
  | b32 =>
    have hmis : a.toNat % 4 ≠ 0 := fun h => hbad ⟨rfl, h⟩
    simp only [busTarget, meeting_of_overlaps hp hmeets]
    split
    case isFalse => rfl
    case isTrue hhas =>
      obtain ⟨hlow, _⟩ := (Range.has_iff _ _).mp hhas
      have hnone : Reg.ofOffset (a.toNat - s.blk.window.base) = none := if_neg (by omega)
      rw [hnone]

/-- An access that meets no window leaves the register space (R46). -/
theorem busTarget_of_outside {s : State} {a : Word} {width : AccessWidth} (hp : s.peers = [])
    (h : s.blk.window.overlaps ⟨a.toNat, widthBytes width⟩ = false) : s.busTarget a width = .outside := by
  have hnone : s.meeting ⟨a.toNat, widthBytes width⟩ = [] := by simp [meeting, blocks, hp, h]
  simp only [busTarget, hnone]

/-- A 32-bit host read at a register's offset of the only window sees that register, and the host moves on (R47). -/
theorem hostOp_rd_of_offset {s : State} {a : Word} {r : Reg} (rest : List HostOp) (hp : s.peers = [])
    (ha : a.toNat = s.blk.window.base + r.offset) :
    s.hostOp rest (.rd a .b32) = .next { s with hostOps := rest, seen := .reg a (s.blk.readReg r) :: s.seen } := by
  simp only [hostOp, busTarget_of_offset hp ha]
  rfl

/-- A host at an access of a window that is not admitted stays there (R88, R267). -/
theorem hostOp_of_not_admitted {s : State} {a : Word} {width : AccessWidth} (rest : List HostOp)
    (h : s.busTarget a width = .notAdmitted) {op : HostOp}
    (hop : (∃ v, op = .wr a width v) ∨ op = .rd a width ∨ (width = .b8 ∧ ((∃ b, op = .st a b) ∨ op = .ld a))) :
    s.hostOp rest op = .next s := by
  rcases hop with ⟨v, rfl⟩ | rfl | ⟨rfl, ⟨b, rfl⟩ | rfl⟩ <;> simp only [hostOp, h]

end State

/-- Settles O11: a register's offset is admitted, and any other access that meets the window is not. -/
theorem windowAccessAdmission : Obligations.WindowAccessAdmission := by
  intro s ts rest a v hs hp hbase
  have hsize : s.blk.window.size = 64 := rfl
  have hstays : ∀ (width : AccessWidth) (op : HostOp), s.hostOps = op :: rest →
      s.blk.window.overlaps ⟨a.toNat, State.widthBytes width⟩ = true → ¬(width = .b32 ∧ a.toNat % 4 = 0) →
      ((∃ v, op = .wr a width v) ∨ op = .rd a width ∨ (width = .b8 ∧ ((∃ b, op = .st a b) ∨ op = .ld a))) →
      step s = .next { s with schedule := ts } := fun width op hops hmeets hbad hop => by
    rw [step_of_schedule_host hs hops]
    exact State.hostOp_of_not_admitted (s := { s with schedule := ts }) rest
      (State.busTarget_of_bad_access hp hbase hmeets hbad) hop
  refine ⟨fun r ha => ⟨fun hops => ?write, fun hops => ?read⟩, fun width hhigh hlow hbad hops => ?bad,
    fun b hlow hhigh hops => ?byte⟩
  case write => exact step_of_host_wr_offset hs hp ha hops
  case read =>
    rw [step_of_schedule_host hs hops]
    exact State.hostOp_rd_of_offset (s := { s with schedule := ts }) rest hp ha
  case bad =>
    have hwidth : 0 < State.widthBytes width := by cases width <;> decide
    have hmeets : s.blk.window.overlaps ⟨a.toNat, State.widthBytes width⟩ = true :=
      (Range.overlaps_iff _ _).mpr ⟨Nat.succ_pos _, hwidth, hlow, hhigh⟩
    rcases hops with hops | hops
    · exact hstays width _ hops hmeets hbad (.inl ⟨v, rfl⟩)
    · exact hstays width _ hops hmeets hbad (.inr (.inl rfl))
  case byte =>
    have hmeets : s.blk.window.overlaps ⟨a.toNat, State.widthBytes .b8⟩ = true :=
      (Range.overlaps_iff _ _).mpr ⟨Nat.succ_pos _, Nat.succ_pos _, Nat.lt_succ_of_le hlow, hhigh⟩
    have hbad : ¬(AccessWidth.b8 = .b32 ∧ a.toNat % 4 = 0) := fun h => by cases h.1
    rcases hops with hops | hops
    · exact hstays .b8 _ hops hmeets hbad (.inr (.inr ⟨rfl, .inl ⟨b, rfl⟩⟩))
    · exact hstays .b8 _ hops hmeets hbad (.inr (.inr ⟨rfl, .inr rfl⟩))

/-- Settles O18: the poll reads STATUS, and its bit 1 decides whether the host moves on. -/
theorem pollWaitsForDone : Obligations.PollWaitsForDone := by
  intro s ts rest a hs hp _ ha hops
  have hstatus : a.toNat = s.blk.window.base + Reg.status.offset := ha
  have htarget := State.busTarget_of_offset (s := { s with schedule := ts }) hp hstatus
  have hvalue : ({ s with schedule := ts } : State).regValue 0 .status = some s.blk.status := rfl
  rw [step_of_schedule_host hs hops]
  simp only [State.hostOp, htarget, hvalue]
  cases hdone : s.blk.status.getLsbD 1 with
  | true =>
    rw [if_pos rfl, show Status.done s.blk.status = true from hdone]
    rfl
  | false =>
    rw [if_neg Bool.false_ne_true, show Status.done s.blk.status = false from hdone, ← hops]
    rfl

end Sys2Proof.Machine
end

section
/-! Proofs about reset (10_state.md R58, 70_reset_and_hazards.md R290, R291). -/

namespace Sys2Proof.Machine

/-- A scheduled reset of the block in focus. -/
theorem step_of_schedule_reset_zero {s : State} {ts : List Turn} (h : s.schedule = .reset 0 :: ts) :
    step s = .next ({ s with schedule := ts } : State).resetBlock := by
  rw [step_eq_runTurn, h]
  rfl

/-- With no writing command in flight a reset leaves memory alone (R290). -/
theorem resetBlock_mem_of_not_writing {s : State} (h : (s.blk.busy && s.blk.latch.writes) = false) :
    s.resetBlock.mem = s.mem := by
  simp only [State.resetBlock, h, Bool.false_eq_true, if_false]

/-- A reset leaves every byte outside the latched destination range alone (R291). -/
theorem get_resetBlock_mem {s : State} (hm : Memory.wf s.mem = true) {a : Nat}
    (ha : a < s.blk.latch.dstAddr.toNat ∨ s.blk.latch.dstAddr.toNat + s.blk.latch.dstCap.toNat ≤ a) :
    Memory.get s.resetBlock.mem a = Memory.get s.mem a := by
  cases hw : s.blk.busy && s.blk.latch.writes with
  | false => rw [resetBlock_mem_of_not_writing hw]
  | true =>
    have hmem : s.resetBlock.mem = (s.drawRange s.blk.latch.dst).mem := by
      simp only [State.resetBlock, hw, if_true]
    rw [hmem, State.drawRange_mem]
    refine Memory.get_write_outside hm _ _ ?_
    rwa [List.length_map, List.length_range]

/-- Settles O19: the block is as after power-up, and with nothing in flight nothing is drawn. -/
theorem resetValues : Obligations.ResetValues := by
  intro s ts hs
  refine ⟨_, step_of_schedule_reset_zero hs, ?_⟩
  rw [State.resetBlock_blk, State.resetBlock_peers]
  refine ⟨rfl, rfl, rfl, rfl, rfl, rfl, rfl, rfl, rfl, rfl, rfl, rfl, rfl, rfl, rfl, fun hidle => ?_⟩
  have hnot : (s.blk.busy && s.blk.latch.writes) = false := by rw [Block.busy_of_idle hidle, Bool.false_and]
  exact resetBlock_mem_of_not_writing (s := { s with schedule := ts }) hnot

/-- Settles O20: the reset leaves all bytes but those of the latched destination range. -/
theorem resetWhileBusyTouchesOnlyTheDestination : Obligations.ResetWhileBusyTouchesOnlyTheDestination := by
  intro s ts hs _ hm
  refine ⟨_, step_of_schedule_reset_zero hs, ?_⟩
  rw [State.resetBlock_blk]
  refine ⟨rfl, rfl, fun hw => ?_, fun a => get_resetBlock_mem (s := { s with schedule := ts }) hm⟩
  have hnot : (s.blk.busy && s.blk.latch.writes) = false := by rw [hw, Bool.and_false]
  exact resetBlock_mem_of_not_writing (s := { s with schedule := ts }) hnot

end Sys2Proof.Machine
end

section
/-! Proofs about the hazards of commands in flight (20_memory.md R98, 70_reset_and_hazards.md R296). -/

namespace Sys2Proof.Machine

/-- R296 (b), read out of the test. -/
theorem Latch.loadHazard_eq (l : Latch) (a : Nat) :
    l.loadHazard a =
      decide (l.writes = true ∧ l.dstAddr.toNat ≤ a ∧ a < l.dstAddr.toNat + l.dstCap.toNat) := by
  rw [Bool.eq_iff_iff, Latch.loadHazard, Bool.and_eq_true, Range.has_iff, decide_eq_true_iff]
  rfl

/-- R296 (a) and (b), read out of the test. -/
theorem Latch.storeHazard_eq (l : Latch) (a : Nat) :
    l.storeHazard a =
      decide ((l.srcAddr.toNat ≤ a ∧ a < l.srcAddr.toNat + l.srcLen.toNat) ∨
        (l.writes = true ∧ l.dstAddr.toNat ≤ a ∧ a < l.dstAddr.toNat + l.dstCap.toNat)) := by
  rw [Bool.eq_iff_iff, Latch.storeHazard, Bool.or_eq_true, Bool.and_eq_true, Range.has_iff, Range.has_iff,
    decide_eq_true_iff]
  rfl

namespace State

/-- A hazard taints a BUSY block, and taint stays (R49). -/
theorem taintWhere_blk_taint {s : State} (hp : s.blk.phase = .busy) (hazard : Latch → Bool) :
    (s.taintWhere hazard).blk.taint = (s.blk.taint || hazard s.blk.latch) := by
  simp only [taintWhere, s.blk.busy_iff.mpr hp, Bool.true_and]
  split
  case isTrue h => rw [h, Bool.or_true]
  case isFalse h => rw [Bool.eq_false_iff.mpr h, Bool.or_false]

/-- Alone and BUSY, a block's load hazard decides what a host load sees. -/
theorem loadByte_alone {s : State} (hpeers : s.peers = []) (hp : s.blk.phase = .busy) (a : Word) :
    s.loadByte a =
      if s.blk.latch.loadHazard a.toNat then
        { s.taintWhere (fun l => l.loadHazard a.toNat) with
          seen := .byte a (Config.freeByte s.draws) :: s.seen, draws := s.draws + 1 }
      else { s with seen := .byte a (Memory.get s.mem a.toNat) :: s.seen } := by
  have hany : s.blocks.any (fun b => b.busy && b.latch.loadHazard a.toNat) = s.blk.latch.loadHazard a.toNat := by
    simp [blocks, hpeers, s.blk.busy_iff.mpr hp]
  simp only [loadByte, hany]
  rfl

theorem loadByte_blk_taint {s : State} (hpeers : s.peers = []) (hp : s.blk.phase = .busy) (a : Word) :
    (s.loadByte a).blk.taint = (s.blk.taint || s.blk.latch.loadHazard a.toNat) := by
  rw [loadByte_alone hpeers hp]
  split
  case isTrue => exact taintWhere_blk_taint hp (fun l => l.loadHazard a.toNat)
  case isFalse h => rw [Bool.eq_false_iff.mpr h, Bool.or_false]

/-- A byte access outside the only window is none of a register. -/
theorem busTarget_of_byte {s : State} {a : Word} (hp : s.peers = []) (h : s.blk.window.has a.toNat = false) :
    s.busTarget a .b8 = .outside := by
  refine busTarget_of_outside hp (Bool.eq_false_iff.mpr fun hmeets => ?_)
  obtain ⟨_, _, hlow, hhigh⟩ := (Range.overlaps_iff _ _).mp hmeets
  have hlow' : s.blk.window.base ≤ a.toNat := Nat.le_of_lt_succ hlow
  rw [(Range.has_iff _ _).mpr ⟨hlow', hhigh⟩] at h
  cases h

end State

/-- Settles O53: outside the window the access reaches memory, with the hazard of R296. -/
theorem inFlightHazards : Obligations.InFlightHazards := by
  rintro s l ts rest a b hs hpeers hp rfl hout
  have htarget := State.busTarget_of_byte (s := { s with schedule := ts }) hpeers hout
  refine ⟨fun hops => ?store, fun hops => ?load⟩
  case store =>
    have hstep : step s = .next (({ s with schedule := ts, hostOps := rest } : State).storeByte a b) := by
      rw [step_of_schedule_host hs hops]
      simp only [State.hostOp, htarget]
    refine ⟨_, hstep, rfl, ?_⟩
    rw [← Latch.storeHazard_eq]
    exact State.taintWhere_blk_taint (s := { s with schedule := ts, hostOps := rest }) hp
      (fun l => l.storeHazard a.toNat)
  case load =>
    have hstep : step s = .next (({ s with schedule := ts, hostOps := rest } : State).loadByte a) := by
      rw [step_of_schedule_host hs hops]
      simp only [State.hostOp, htarget]
    have hload := State.loadByte_alone (s := { s with schedule := ts, hostOps := rest }) hpeers hp a
    have hhazard := s.blk.latch.loadHazard_eq a.toNat
    refine ⟨_, hstep, State.loadByte_mem _ a, ?_, fun hno => ?_, fun hyes => ?_⟩
    · rw [← hhazard]
      exact State.loadByte_blk_taint (s := { s with schedule := ts, hostOps := rest }) hpeers hp a
    · rw [decide_eq_false hno] at hhazard
      rw [hload, hhazard]
      rfl
    · rw [decide_eq_true hyes] at hhazard
      rw [hload, hhazard]
      rfl

/-- R98, read out of the test. -/
theorem Latch.conflicts_iff (k l : Latch) :
    k.conflicts l = true ↔
      k.writes = true ∧ (k.dst.overlaps l.src = true ∨ (l.writes = true ∧ k.dst.overlaps l.dst = true)) ∨
        l.writes = true ∧ l.dst.overlaps k.src = true := by
  simp only [Latch.conflicts, Bool.or_eq_true, Bool.and_eq_true]

/-- Acceptance with one BUSY peer taints both exactly where their commands conflict (R98, log 12). -/
theorem acceptCmd_one_peer {s : State} {p : Block} (hidle : s.blk.phase = .idle) (hpeers : s.peers = [p])
    (hp : p.phase = .busy) (v : Word) :
    (s.acceptCmd v).blk.taint = p.latch.conflicts (s.blk.latchOf v) ∧
      (s.acceptCmd v).peers = [if p.latch.conflicts (s.blk.latchOf v) then { p with taint := true } else p] := by
  simp [State.acceptCmd, Block.busy_of_idle hidle, hpeers, p.busy_iff.mpr hp]

/-- Settles O55: the statement's overlap is the conflict that acceptance asks for. -/
theorem overlappingInstancesTaintEachOther : Obligations.OverlappingInstancesTaintEachOther := by
  rintro s p l v hidle hpeers hp rfl
  obtain ⟨htaint, hpeer⟩ := acceptCmd_one_peer hidle hpeers hp v
  refine ⟨fun hyes => ?_, fun hno => ?_⟩
  · have hconflict : p.latch.conflicts (s.blk.latchOf v) = true := (Latch.conflicts_iff _ _).mpr hyes
    rw [State.writeReg_cmd, htaint, hpeer, hconflict]
    exact ⟨rfl, rfl⟩
  · have hconflict : p.latch.conflicts (s.blk.latchOf v) = false :=
      Bool.eq_false_iff.mpr fun h => hno ((Latch.conflicts_iff _ _).mp h)
    rw [State.writeReg_cmd, htaint, hpeer, hconflict]
    exact ⟨rfl, rfl⟩

end Sys2Proof.Machine
end

section
/-! Proofs about the layout of the monochrome bitmap (30_encoding.md R120 to R124, 20_memory.md R84). -/

namespace Sys2Proof.Machine

/-- Sequences of one length with the same bytes are equal. -/
theorem ext_byteAt {a b : Bytes} (hlen : a.length = b.length) (h : ∀ i, i < a.length → byteAt a i = byteAt b i) :
    a = b := by
  refine List.ext_getElem hlen fun i ha hb => ?_
  have hi := h i ha
  rwa [byteAt, byteAt, List.getD_eq_getElem _ _ ha, List.getD_eq_getElem _ _ hb] at hi

section Frame

variable {c : Cfg} (ras : Bytes) (hL : 62 + stride c.width * c.height ≤ c.frameLen)

include hL

/-- A 32-bit header field of ENCODE's output reads as the value that was put there. -/
theorem le32_bitmap_field {o v : Nat} (ho : o + 4 ≤ 62) (hfield : le32 (bitmapHead c) o = le32 (LE32 v) 0)
    (hv : v < 2 ^ 32) : le32 (bitmap c ras) o = v := by
  rw [le32_bitmap_head ras hL ho, hfield, le32_LE32 hv]

/-- The file begins with "BM" (R121). -/
theorem bitmap_take_two : (bitmap c ras).take 2 = [0x42, 0x4D] := by
  rw [bitmap_eq ras hL, List.append_assoc, List.take_append_of_le_length (by rw [bitmapHead_length]; omega)]
  rfl

/-- Where row `r` ends, the frame has not ended. -/
theorem bitmap_row_end {r : Nat} (hr : r < c.height) : 62 + r * stride c.width + stride c.width ≤ c.frameLen := by
  have hrows : (r + 1) * stride c.width ≤ c.height * stride c.width := Nat.mul_le_mul_right _ (by omega)
  rw [Nat.add_one_mul, Nat.mul_comm c.height] at hrows
  omega

/-- Pixel row `r` of the data is raster row `H − 1 − r`, packed (R120). -/
theorem bitmap_row {r : Nat} (hr : r < c.height) :
    ((bitmap c ras).drop (62 + r * stride c.width)).take (stride c.width) =
      pack c (rasterRow c.width ras (c.height - 1 - r)) c.width := by
  have hend := bitmap_row_end hL hr
  have hlen : (((bitmap c ras).drop (62 + r * stride c.width)).take (stride c.width)).length = stride c.width := by
    rw [List.length_take, List.length_drop, bitmap_length ras hL]
    omega
  refine ext_byteAt (hlen.trans (pack_length _ _ _).symm) fun j hj => ?_
  rw [hlen] at hj
  rw [byteAt_take_drop _ _ _ hj, byteAt_bitmap_row ras hL hr hj]

/-- The bit of pixel `(x, y)` is set exactly where the raster's pixel is dark (R84, R164). -/
theorem pixelBit_bitmap {x y : Nat} (hx : x < c.width) (hy : y < c.height) :
    pixelBit ((bitmap c ras).drop (62 + (c.height - 1 - y) * stride c.width)) x = rasterDark c ras x y := by
  have hbyte : x / 8 < stride c.width := by
    have hbits := (stride_bounds c.width).1
    omega
  have hrow : c.height - 1 - (c.height - 1 - y) = y := by omega
  rw [pixelBit, byteAt_drop, byteAt_bitmap_row ras hL (by omega) hbyte, hrow, ← pixelBit, pixelBit_pack,
    decide_eq_true hx, Bool.true_and, pixelDark_rasterRow c ras y hx]

end Frame

/-- Settles O33: each field by its place in the head, each row and pixel by the packed row, zeros in the surplus. -/
theorem bitmapLayout : Obligations.BitmapLayout := by
  intro c ras hwf hL
  obtain ⟨_, _, ⟨_, hLmax⟩, _⟩ := (Cfg.wf_iff c).mp hwf
  have hpalette : le32 (bitmap c ras) 54 = 0x00FFFFFF := (invertFlag_iff _).mp (invertFlag_bitmap ras hL)
  have hplanes : le16 (bitmap c ras) 26 = 1 := (le16_bitmap_head ras hL (by omega)).trans (le16_LE16 (by omega))
  exact ⟨bitmap_length ras hL, bitmap_take_two ras hL, le32_bitmap_field ras hL (by omega) rfl (by omega),
    le32_bitmap_field ras hL (by omega) rfl (by omega), bmpOffset_bitmap ras hL, bmpHeaderSize_bitmap ras hL,
    bmpWidth_bitmap ras hL hwf, bmpHeight_bitmap ras hL hwf, hplanes, bmpBitsPerPixel_bitmap ras hL,
    le32_bitmap_field ras hL (by omega) rfl (by omega), le32_bitmap_field ras hL (by omega) rfl (by omega),
    le32_bitmap_field ras hL (by omega) rfl (by omega), le32_bitmap_field ras hL (by omega) rfl (by omega),
    le32_bitmap_field ras hL (by omega) rfl (by omega), le32_bitmap_field ras hL (by omega) rfl (by omega), hpalette,
    le32_bitmap_field (v := 0) ras hL (by omega) rfl (by omega), fun r => bitmap_row ras hL,
    fun x y => pixelBit_bitmap ras hL, fun k => byteAt_bitmap_surplus ras hL⟩

end Sys2Proof.Machine
end

section
/-! Proofs about the command DECODE and the parts of its container (41_decoder.md R200, R202). -/

namespace Sys2Proof.Machine

/-- Past the prologue DECODE is its own rule (R200). -/
theorem commandWork_decode {s : State} (h : RangesOk s.blk.latch) : commandWork .decode s = decodeBody s.blk s.mem := by
  simp only [commandWork, writesMemory, prologue_true_none h]

section Decode

variable {s : State} {buf : Bytes} (hbuf : buf = srcBytes s s.blk.latch.srcLen.toNat)

include hbuf

theorem decodeBody_of_invalid {e : ErrCode} (h : validate buf = some e) :
    decodeBody s.blk s.mem = Work.fail [s.blk.latch.src] e := by
  subst hbuf
  have h' : validate (Memory.read s.mem s.blk.latch.src.base s.blk.latch.src.size) = some e := h
  simp only [decodeBody, h']

/-- On a validated bitmap the capacity check remains. -/
theorem decodeBody_of_valid (h : validate buf = none) :
    decodeBody s.blk s.mem =
      if s.blk.latch.dstCap.toNat < (decodedContainer s.blk.cfg buf).length then
        Work.fail [s.blk.latch.src] .dstOverflow
      else Work.done [s.blk.latch.src] (decodedContainer s.blk.cfg buf) 0 := by
  subst hbuf
  have h' : validate (Memory.read s.mem s.blk.latch.src.base s.blk.latch.src.size) = none := h
  simp only [decodeBody, h']
  rfl

end Decode

/-- Settles O42: past the prologue each clause is one branch of DECODE's rule. -/
theorem decodeCommand : Obligations.DecodeCommand := by
  rintro s l buf ht rfl hbuf
  refine ⟨rfl, writerPrologueErrors rfl ht, fun hr hsrc => ⟨fun e he => ?invalid, fun hvalid out hout => ?valid⟩⟩
  case invalid => exact exec_of_fail ht ((commandWork_decode hr).trans (decodeBody_of_invalid hbuf he)) hsrc
  case valid =>
    obtain rfl : out = decodedContainer s.blk.cfg buf := hout
    have hwork := (commandWork_decode hr).trans (decodeBody_of_valid hbuf hvalid)
    refine ⟨fun hcap => ?overflow, fun hcap hdst => ?success⟩
    case overflow => exact exec_of_fail (e := .dstOverflow) ht (hwork.trans (if_pos hcap)) hsrc
    case success => exact exec_of_done rfl ht (hwork.trans (if_neg (Nat.not_lt.mpr hcap))) hsrc hdst

/-- The signature and IHDR: the first 33 bytes (R130). -/
def containerHead (w rows : Nat) : Bytes := pngSignature ++ chunk typeIHDR (ihdr w rows)

/-- IDAT up to the Adler-32 of its stream (R135, R136). -/
def idatFront (c : Cfg) (raw : Bytes) : Bytes :=
  BE32 (zstream c raw).length ++ typeIDAT ++ ([c.zlibCmf, c.zlibFlg] ++ deflateBody c.deflate raw)

/-- The CRC of IDAT (R132). -/
def idatCrc (c : Cfg) (raw : Bytes) : Nat := (crc32 (typeIDAT ++ zstream c raw)).toNat

/-- The container cut at its first 33 and its last 20 bytes. -/
theorem container_eq (c : Cfg) (w rows : Nat) (raw : Bytes) :
    container c w rows raw =
      containerHead w rows ++
        (idatFront c raw ++ (BE32 (adler32 raw) ++ (BE32 (idatCrc c raw) ++ chunk typeIEND []))) := by
  have hidat : chunk typeIDAT (zstream c raw) = idatFront c raw ++ (BE32 (adler32 raw) ++ BE32 (idatCrc c raw)) := by
    rw [chunk, idatFront, idatCrc]
    simp only [zstream, List.append_assoc]
  rw [container, hidat, containerHead]
  simp only [List.append_assoc]

/-- A sequence's last part, dropped down to. -/
theorem drop_length_sub {a xs ys : Bytes} {n : Nat} (ha : a = xs ++ ys) (hn : ys.length = n) :
    a.drop (a.length - n) = ys := by
  subst ha hn
  rw [List.length_append, Nat.add_sub_cancel, List.drop_left]

section Container

variable (c : Cfg) (w rows : Nat) (raw : Bytes)

theorem container_take_head : (container c w rows raw).take 33 = containerHead w rows := by
  rw [container_eq]
  exact List.take_left' rfl

theorem container_drop_iend :
    (container c w rows raw).drop ((container c w rows raw).length - 12) = chunk typeIEND [] := by
  have hsplit := container_eq c w rows raw
  simp only [← List.append_assoc] at hsplit
  exact drop_length_sub hsplit rfl

theorem container_adler :
    ((container c w rows raw).drop ((container c w rows raw).length - 20)).take 4 = BE32 (adler32 raw) := by
  have hsplit := container_eq c w rows raw
  rw [← List.append_assoc] at hsplit
  rw [drop_length_sub (n := 20) hsplit rfl]
  exact List.take_left' rfl

end Container

/-- Settles O44: head, trailer and IEND are the same for every deflate parameter, and the length is 57 bytes more than the
stream's. -/
theorem containerPartsIndependentOfDeflate : Obligations.ContainerPartsIndependentOfDeflate := by
  rintro c d w rows raw p q rfl rfl
  refine ⟨?head, ?iend, ?adler, container_adler c w rows raw, ?length⟩
  case head => rw [container_take_head, container_take_head]
  case iend => rw [container_drop_iend, container_drop_iend]
  case adler => rw [container_adler, container_adler]
  case length =>
    rw [container_length, container_length, zstream_length, zstream_length]
    dsimp only
    omega

end Sys2Proof.Machine
end

section
/-! Proofs about the stored deflate stream: its length, the law it obeys, and the stream that ZLIB writes
(42_checksum_compress.md R236 to R238). -/

namespace Sys2Proof.Machine

theorem storedBlock_length (final : Bool) (x : Bytes) : (storedBlock final x).length = x.length + 5 := by
  simp only [storedBlock, List.length_cons, List.length_append, LE16_length]
  omega

theorem storedBlocks_of_short (fuel : Nat) {x : Bytes} (h : x.length ≤ 65535) :
    storedBlocks (fuel + 1) x = storedBlock true x := if_pos h

theorem storedBlocks_of_long (fuel : Nat) {x : Bytes} (h : 65535 < x.length) :
    storedBlocks (fuel + 1) x = storedBlock false (x.take 65535) ++ storedBlocks fuel (x.drop 65535) :=
  if_neg (Nat.not_le.mpr h)

/-- The empty stream is the one empty block, so the loop covers it. -/
theorem deflateStored_eq (x : Bytes) : deflateStored x = storedBlocks (x.length / 65535 + 1) x := by
  unfold deflateStored
  split
  case isTrue h =>
    obtain rfl := List.eq_nil_of_length_eq_zero h
    decide
  case isFalse => rfl

/-- Five bytes for each block, of which there are enough (R237). -/
theorem storedBlocks_length (fuel : Nat) {x : Bytes} (h : x.length ≤ 65535 * (fuel + 1)) :
    (storedBlocks (fuel + 1) x).length = x.length + 5 * max 1 ((x.length + 65534) / 65535) := by
  induction fuel generalizing x with
  | zero =>
    rw [storedBlocks_of_short 0 (by omega), storedBlock_length]
    omega
  | succ fuel ih =>
    rcases Nat.lt_or_ge 65535 x.length with hlong | hshort
    · have hrest : (x.drop 65535).length = x.length - 65535 := List.length_drop
      have hblock : (x.take 65535).length = 65535 := List.length_take_of_le hlong.le
      rw [storedBlocks_of_long _ hlong, List.length_append, storedBlock_length, ih (by omega), hrest, hblock]
      omega
    · rw [storedBlocks_of_short _ hshort, storedBlock_length]
      omega

/-- The loop's bound on the number of blocks. -/
theorem length_le_blocks (n : Nat) : n ≤ 65535 * (n / 65535 + 1) := by omega

theorem deflateStored_length (x : Bytes) :
    (deflateStored x).length = x.length + 5 * max 1 ((x.length + 65534) / 65535) := by
  rw [deflateStored_eq, storedBlocks_length _ (length_le_blocks _)]

/-- NLEN is the ones' complement of LEN (R237). -/
theorem xor_0xFFFF {n : Nat} (h : n ≤ 65535) : n ^^^ 0xFFFF = 65535 - n := by
  have hones : (BitVec.ofNat 16 n ^^^ BitVec.allOnes 16).toNat = 65535 - (BitVec.ofNat 16 n).toNat := by
    rw [BitVec.xor_allOnes, BitVec.toNat_not]
  rwa [BitVec.toNat_xor, BitVec.toNat_allOnes, BitVec.toNat_ofNat, Nat.mod_eq_of_lt (by omega)] at hones

/-- Settles O50: the length of the loop's blocks, and the one block of a short input. -/
theorem storedStreamLength : Obligations.StoredStreamLength := by
  refine ⟨deflateStored_length, rfl, fun x _ hshort => ?_⟩
  rw [deflateStored_eq, storedBlocks_of_short _ hshort, storedBlock, if_pos rfl, xor_0xFFFF hshort]
  simp only [List.cons_append, List.nil_append]

namespace Inflate

theorem bits_append (s t : Bytes) : bits (s ++ t) = bits s ++ bits t := List.flatMap_append

theorem bits_length (s : Bytes) : (bits s).length = 8 * s.length := by
  simp [bits, List.length_flatMap, Nat.mul_comm]

/-- The bits of one byte are those of its number. -/
theorem bits_singleton (b : Byte) : bits [b] = (List.range 8).map b.toNat.testBit := by
  rw [bits, List.flatMap_singleton]
  rfl

/-- The bits of a 16-bit field are those of its number, least significant first. -/
theorem bits_LE16 (v : Nat) : bits (LE16 v) = (List.range 16).map v.testBit := by
  have hbyte : ∀ k, (List.range 8).map (byteOf v k).toNat.testBit = (List.range 8).map (fun i => v.testBit (i + 8 * k)) :=
    fun k => List.map_congr_left fun i hi => by
      rw [byteOf_toNat, Nat.testBit_mod_two_pow, Nat.testBit_div_two_pow, decide_eq_true (List.mem_range.mp hi),
        Bool.true_and]
  have hsplit : LE16 v = [byteOf v 0] ++ [byteOf v 1] := rfl
  rw [hsplit, bits_append, bits_singleton, bits_singleton, hbyte, hbyte]
  rfl

/-- A number is read from its bits. -/
theorem number_testBit (n v : Nat) (r : List Bool) :
    number n ((List.range n).map v.testBit ++ r) = some (v % 2 ^ n, r) := by
  induction n generalizing v with
  | zero => simp [number, Nat.mod_one]
  | succ n ih =>
    have hbits : (List.range (n + 1)).map v.testBit = v.testBit 0 :: (List.range n).map (v / 2).testBit := by
      rw [List.range_succ_eq_map, List.map_cons, List.map_map]
      congr 1
      exact List.map_congr_left fun i _ => Nat.testBit_succ v i
    have hlow : (v.testBit 0).toNat = v % 2 := by
      rw [Nat.testBit_zero]
      rcases Nat.mod_two_eq_zero_or_one v with h | h <;> simp [h]
    have hmod : v % 2 ^ (n + 1) = v % 2 + 2 * (v / 2 % 2 ^ n) := by rw [Nat.pow_succ', Nat.mod_mul]
    simp only [hbits, List.cons_append, number, ih, hlow, hmod]

theorem number_LE16 {v : Nat} (h : v < 2 ^ 16) (r : List Bool) : number 16 (bits (LE16 v) ++ r) = some (v, r) := by
  rw [bits_LE16, number_testBit, Nat.mod_eq_of_lt h]

/-- Whole bytes are read back. -/
theorem takeBytes_bits (x : Bytes) (r : List Bool) : takeBytes x.length (bits x ++ r) = some (x, r) := by
  induction x with
  | nil => rfl
  | cons b x ih =>
    have hbits : bits (b :: x) ++ r = (List.range 8).map b.toNat.testBit ++ (bits x ++ r) := by
      rw [← bits_singleton, ← List.append_assoc, ← bits_append, List.singleton_append]
    have hbyte : BitVec.ofNat 8 (b.toNat % 2 ^ 8) = b := by
      rw [Nat.mod_eq_of_lt b.isLt, BitVec.ofNat_toNat, BitVec.setWidth_eq]
    simp only [List.length_cons, takeBytes, hbits, number_testBit, ih, hbyte]

/-- The five bits between a block's type and the next byte boundary are dropped. -/
theorem align_padding (s : Bytes) : align (List.replicate 5 false ++ bits s) = bits s := by
  have hmod : (List.replicate 5 false ++ bits s).length % 8 = 5 := by
    rw [List.length_append, List.length_replicate, bits_length]
    omega
  rw [align, hmod]
  rfl

/-- A stored block's bits: BFINAL, BTYPE 00, the padding, then LEN, NLEN and the bytes (R237). -/
theorem bits_storedBlock (final : Bool) (x s : Bytes) :
    bits (storedBlock final x ++ s) =
      final :: false :: false ::
        (List.replicate 5 false ++ bits (LE16 x.length ++ (LE16 (x.length ^^^ 0xFFFF) ++ (x ++ s)))) := by
  have hhead : bits [if final then 0x01 else 0x00] = final :: false :: false :: List.replicate 5 false := by
    cases final <;> decide
  have hsplit : storedBlock final x ++ s =
      [if final then 0x01 else 0x00] ++ (LE16 x.length ++ (LE16 (x.length ^^^ 0xFFFF) ++ (x ++ s))) := by
    simp only [storedBlock, List.append_assoc, List.cons_append, List.nil_append]
  rw [hsplit, bits_append, hhead]
  rfl

/-- The body of a stored block gives its bytes, and leaves the stream behind it. -/
theorem storedBlockBody_bits (out : Bytes) {x : Bytes} (s : Bytes) (h : x.length ≤ 65535) :
    storedBlockBody out
        (List.replicate 5 false ++ bits (LE16 x.length ++ (LE16 (x.length ^^^ 0xFFFF) ++ (x ++ s)))) =
      some (x.reverse ++ out, bits s) := by
  have hlen : x.length < 2 ^ 16 := by omega
  have hnlen : x.length ^^^ 0xFFFF < 2 ^ 16 := Nat.xor_lt_two_pow hlen (by decide)
  have hreadLen : number 16 (align (List.replicate 5 false ++
      bits (LE16 x.length ++ (LE16 (x.length ^^^ 0xFFFF) ++ (x ++ s))))) =
      some (x.length, bits (LE16 (x.length ^^^ 0xFFFF) ++ (x ++ s))) := by
    rw [align_padding, bits_append, number_LE16 hlen]
  have hreadNlen : number 16 (bits (LE16 (x.length ^^^ 0xFFFF) ++ (x ++ s))) =
      some (x.length ^^^ 0xFFFF, bits (x ++ s)) := by
    rw [bits_append, number_LE16 hnlen]
  have hreadBytes : takeBytes x.length (bits (x ++ s)) = some (x, bits s) := by
    rw [bits_append, takeBytes_bits]
  simp only [storedBlockBody, hreadLen, hreadNlen, if_true, hreadBytes]

/-- A stored block is read as its bytes; the last one ends the stream. -/
theorem blocks_storedBlock (window fuel : Nat) (out : Bytes) (final : Bool) {x : Bytes} (s : Bytes)
    (h : x.length ≤ 65535) :
    blocks window (fuel + 1) out (bits (storedBlock final x ++ s)) =
      if final then some (x.reverse ++ out, bits s) else blocks window fuel (x.reverse ++ out) (bits s) := by
  have hbody := storedBlockBody_bits out s h
  rw [bits_storedBlock]
  generalize List.replicate 5 false ++ bits (LE16 x.length ++ (LE16 (x.length ^^^ 0xFFFF) ++ (x ++ s))) = rest at hbody ⊢
  have hfinal : number 1 (final :: false :: false :: rest) = some (final.toNat, false :: false :: rest) := rfl
  have htype : number 2 (false :: false :: rest) = some (0, rest) := rfl
  simp only [blocks, hfinal, htype, if_true, hbody]
  cases final <;> rfl

/-- An input of one block is read back. -/
theorem blocks_storedBlocks_of_short (window fuel n : Nat) (out : Bytes) {x : Bytes} (h : x.length ≤ 65535) :
    blocks window (fuel + 1) out (bits (storedBlocks (n + 1) x)) = some (x.reverse ++ out, []) := by
  have hone := blocks_storedBlock window fuel out true [] h
  rw [List.append_nil, if_pos rfl] at hone
  rw [storedBlocks_of_short n h, hone]
  rfl

/-- The blocks of `DEFLATE_STORED` are read back as the input, if the fuel covers their number. -/
theorem blocks_storedBlocks (window n extra : Nat) (out : Bytes) {x : Bytes} (h : x.length ≤ 65535 * (n + 1)) :
    blocks window (n + extra + 1) out (bits (storedBlocks (n + 1) x)) = some (x.reverse ++ out, []) := by
  induction n generalizing out x with
  | zero => exact blocks_storedBlocks_of_short window _ 0 out (by omega)
  | succ n ih =>
    rcases Nat.lt_or_ge 65535 x.length with hlong | hshort
    · have hblock : (x.take 65535).length ≤ 65535 := List.length_take_le _ _
      have hrest : (x.drop 65535).length ≤ 65535 * (n + 1) := by rw [List.length_drop]; omega
      have hfuel : n + 1 + extra = n + extra + 1 := by omega
      rw [storedBlocks_of_long _ hlong, blocks_storedBlock _ _ _ _ _ hblock, if_neg Bool.false_ne_true, hfuel,
        ih _ hrest, ← List.append_assoc, ← List.reverse_append, List.take_append_drop]
    · exact blocks_storedBlocks_of_short window _ _ out hshort

/-- `DEFLATE_STORED` gives a complete stream that inflates to its input (R236 (a), (b)). -/
theorem inflate_deflateStored (window : Nat) (x : Bytes) : inflate window (deflateStored x) = some x := by
  have hlen := deflateStored_length x
  obtain ⟨extra, hextra⟩ : ∃ extra, (bits (deflateStored x)).length = x.length / 65535 + extra :=
    Nat.exists_eq_add_of_le (by rw [bits_length]; omega)
  have hread := blocks_storedBlocks window (x.length / 65535) extra [] (length_le_blocks x.length)
  rw [← deflateStored_eq, ← hextra, List.append_nil] at hread
  simp only [inflate, hread, List.length_nil, List.all_nil, List.reverse_reverse]
  rfl

end Inflate

/-- Settles O51: the stored stream inflates whatever the window, which is all that `CFG_OK` asks beside `Cfg.wf`. -/
theorem storedInstanceObeysTheLaw : Obligations.StoredInstanceObeysTheLaw := by
  refine ⟨Inflate.inflate_deflateStored, fun c hwf hstored => ⟨hwf, ?_⟩⟩
  rw [hstored]
  exact Inflate.inflate_deflateStored (zlibWindow c)

/-- What ZLIB's success writes is the stream of its source (R238). -/
theorem zlibBody_ok {b : Block} {m : Memory} {out : Bytes} {val : Word} (h : (zlibBody b m).result = .ok out val) :
    out = zstream b.cfg (Memory.read m b.latch.src.base b.latch.src.size) := by
  dsimp only [zlibBody] at h
  split at h
  · cases h
  · cases h
    rfl

/-- Settles O52: the destination holds the stream, whose body inflates by the law. -/
theorem zlibOutputInflatesToSource : Obligations.ZlibOutputInflatesToSource := by
  intro s t hcfg hm hr ht hs h hok
  obtain ⟨hwf, hlaw⟩ : CfgOk s.blk.cfg := hcfg.elim id fun hstored => storedInstanceObeysTheLaw.2 _ hstored.1 hstored.2
  obtain ⟨out, val, hres, rfl⟩ := exec_success_inv ht hs h hok
  have hcap := (commandWork_fits rfl s out val hres).2
  rw [commandWork_zlib hr] at hres
  have hout : out = zstream s.blk.cfg (srcBytes s s.blk.latch.srcLen.toNat) := zlibBody_ok hres
  obtain ⟨_, hdst, _⟩ := hr
  have hlen : (BitVec.ofNat 32 out.length).toNat = out.length := by
    rw [BitVec.toNat_ofNat, Nat.mod_eq_of_lt (Nat.lt_of_le_of_lt hcap (BitVec.isLt _))]
  obtain ⟨_, _, _, ⟨_, _, _, hcheck⟩, _⟩ := (Cfg.wf_iff _).mp hwf
  refine ⟨deflateBody s.blk.cfg.deflate (srcBytes s s.blk.latch.srcLen.toNat), ?_, hlaw _, hcheck⟩
  rw [State.complete_blk_resultLen, hlen, State.complete_mem, writesMemory, if_pos rfl,
    Memory.read_write hm _ _ (by omega), hout, zstream_eq]

end Sys2Proof.Machine
end

section
/-! Proofs about the binary64 luminance: with the reference weights every rounding is far smaller than the distance between
two values of the exact sum (40_encoder.md R162). -/

namespace Sys2Proof.Machine

/-- Two numbers differ by at most `e`. -/
def Within (a b e : Nat) : Prop := a ≤ b + e ∧ b ≤ a + e

/-- The most that rounding a value below 2^9 moves it, in units: 2^−44. -/
def rounding64 : Nat := 2 ^ 1030

theorem unit64_eq : unit64 = 2 ^ 44 * rounding64 := by decide +kernel

theorem rounding64_pos : 0 < rounding64 := by decide +kernel

/-- The rounded quotient is the quotient or one more. -/
theorem roundDiv_within (num : Nat) {den : Nat} (hden : 0 < den) : Within (roundDiv num den * den) num den := by
  have hdiv : num / den * den + num % den = num := Nat.div_add_mod' num den
  have hmod := Nat.mod_lt num hden
  have hcases : roundDiv num den = num / den ∨ roundDiv num den = num / den + 1 := by
    have hparity := Nat.mod_two_eq_zero_or_one (num / den)
    dsimp only [roundDiv]
    split_ifs <;> omega
  rcases hcases with h | h <;> rw [h, Within]
  · omega
  · rw [Nat.add_one_mul]
    omega

/-- Rounding a value of at most `53 + k` bits moves it by at most `2^k`. -/
theorem fl64_within_two_pow {v k : Nat} (h : v < 2 ^ (53 + k)) : Within (fl64 v 1) v (2 ^ k) := by
  by_cases hv : v = 0
  · subst hv
    rw [fl64_zero]
    exact ⟨Nat.zero_le _, Nat.zero_le _⟩
  · have hlog : Nat.log2 v < 53 + k := (Nat.log2_lt hv).mpr h
    have hbit : 2 ^ (Nat.log2 v + 1 - 53) ≤ 2 ^ k := Nat.pow_le_pow_right (by decide) (by omega)
    obtain ⟨hlow, hhigh⟩ := roundDiv_within v (Nat.two_pow_pos (Nat.log2 v + 1 - 53))
    have hfl : fl64 v 1 = roundDiv v (2 ^ (Nat.log2 v + 1 - 53)) * 2 ^ (Nat.log2 v + 1 - 53) := by
      simp only [fl64, Nat.div_one, Nat.one_mul]
    rw [hfl]
    exact ⟨by omega, by omega⟩

/-- Rounding moves a value below 2^9 by at most 2^−44. -/
theorem fl64_within {v : Nat} (h : v < 512 * unit64) : Within (fl64 v 1) v rounding64 := by
  have hsize : 512 * unit64 = 2 ^ (53 + 1030) := by decide +kernel
  rw [hsize] at h
  exact fl64_within_two_pow h

/-- A coefficient of the reference weights: near `w/100`, and below 1. -/
def CoefNear (w : Nat) : Prop := Within (100 * coef64 w) (w * unit64) rounding64 ∧ coef64 w ≤ unit64

theorem coefNear_reference : CoefNear 30 ∧ CoefNear 59 ∧ CoefNear 11 := by
  unfold CoefNear Within
  decide +kernel

/-- A term is near `w·v/100`: a coefficient's error 255 times at most, and one rounding. -/
theorem term64_within {w : Nat} (hw : CoefNear w) (v : Byte) :
    Within (100 * term64 w v) (w * v.toNat * unit64) (355 * rounding64) ∧ term64 w v ≤ 256 * unit64 := by
  obtain ⟨⟨hlow, hhigh⟩, hone⟩ := hw
  have hv : v.toNat ≤ 255 := Nat.le_of_lt_succ v.isLt
  have hunit := unit64_eq
  have hpos := rounding64_pos
  have hproduct : coef64 w * v.toNat ≤ 255 * unit64 := by
    rw [Nat.mul_comm 255]
    exact Nat.mul_le_mul hone hv
  obtain ⟨hlow', hhigh'⟩ := fl64_within (v := coef64 w * v.toNat) (by omega)
  have herror : rounding64 * v.toNat ≤ rounding64 * 255 := Nat.mul_le_mul_left _ hv
  have hup := Nat.mul_le_mul_right v.toNat hlow
  have hdown := Nat.mul_le_mul_right v.toNat hhigh
  have hsum : w * v.toNat * unit64 = w * unit64 * v.toNat := Nat.mul_right_comm _ _ _
  rw [Nat.add_mul, Nat.mul_assoc 100] at hup hdown
  rw [term64, Within, hsum]
  omega

section Reference

variable {c : Cfg} (hR : c.weightR = 30) (hG : c.weightG = 59) (hB : c.weightB = 11) (r g b : Byte)

include hR hG hB

/-- The luminance is near the exact sum's hundredth: three terms and two more roundings. -/
theorem gray64_within :
    Within (100 * gray64 c r g b) ((30 * r.toNat + 59 * g.toNat + 11 * b.toNat) * unit64) (1265 * rounding64) := by
  obtain ⟨h30, h59, h11⟩ := coefNear_reference
  obtain ⟨⟨hrLow, hrHigh⟩, hrMax⟩ := term64_within h30 r
  obtain ⟨⟨hgLow, hgHigh⟩, hgMax⟩ := term64_within h59 g
  obtain ⟨⟨hbLow, hbHigh⟩, hbMax⟩ := term64_within h11 b
  have hbounds : r.toNat ≤ 255 ∧ g.toNat ≤ 255 ∧ b.toNat ≤ 255 :=
    ⟨Nat.le_of_lt_succ r.isLt, Nat.le_of_lt_succ g.isLt, Nat.le_of_lt_succ b.isLt⟩
  have hsum : (30 * r.toNat + 59 * g.toNat + 11 * b.toNat) * unit64 ≤ 25500 * unit64 :=
    Nat.mul_le_mul_right _ (by omega)
  have hunit := unit64_eq
  have hpos := rounding64_pos
  rw [Nat.add_mul, Nat.add_mul] at hsum ⊢
  obtain ⟨hLow, hHigh⟩ := fl64_within (v := term64 30 r + term64 59 g) (by omega)
  obtain ⟨hLow', hHigh'⟩ := fl64_within (v := fl64 (term64 30 r + term64 59 g) 1 + term64 11 b) (by omega)
  rw [gray64, hR, hG, hB, Within]
  omega

/-- No value of the comparison is beyond the format's range. -/
theorem lumaBeyond64_reference : lumaBeyond64 c r g b = false := by
  obtain ⟨h30, h59, h11⟩ := coef64_reference_not_beyond
  obtain ⟨hgray, _⟩ := gray64_within hR hG hB r g b
  have hbounds : r.toNat ≤ 255 ∧ g.toNat ≤ 255 ∧ b.toNat ≤ 255 :=
    ⟨Nat.le_of_lt_succ r.isLt, Nat.le_of_lt_succ g.isLt, Nat.le_of_lt_succ b.isLt⟩
  have hsum : (30 * r.toNat + 59 * g.toNat + 11 * b.toNat) * unit64 ≤ 25500 * unit64 :=
    Nat.mul_le_mul_right _ (by omega)
  have hrange : 2 ^ 8 * unit64 ≤ 2 ^ 1024 * unit64 :=
    Nat.mul_le_mul_right _ (pow_le_pow_right₀ (by decide) (by decide))
  have hunit := unit64_eq
  have hpos := rounding64_pos
  have hin : beyond64 (gray64 c r g b) = false := decide_eq_false (by omega)
  rw [lumaBeyond64, hR, hG, hB, h30, h59, h11, hin]
  rfl

variable (hT : c.threshold = 128)

include hT

theorem darkBinary64_iff : darkBinary64 c r g b = true ↔ gray64 c r g b < 128 * unit64 := by
  rw [darkBinary64, lumaBeyond64_reference hR hG hB, if_neg Bool.false_ne_true, decide_eq_true_iff, hT]

theorem darkExact_iff_sum : darkExact c r g b = true ↔ 30 * r.toNat + 59 * g.toNat + 11 * b.toNat < 12800 := by
  rw [darkExact_iff, hR, hG, hB, hT]

/-- A sum below 12800 is dark in binary64 too: it is below by 1 at least. -/
theorem darkBinary64_of_sum_lt (h : 30 * r.toNat + 59 * g.toNat + 11 * b.toNat < 12800) :
    darkBinary64 c r g b = true := by
  obtain ⟨hgray, _⟩ := gray64_within hR hG hB r g b
  have hsum : (30 * r.toNat + 59 * g.toNat + 11 * b.toNat) * unit64 ≤ 12799 * unit64 :=
    Nat.mul_le_mul_right _ (by omega)
  have hunit := unit64_eq
  have hpos := rounding64_pos
  rw [darkBinary64_iff hR hG hB r g b hT]
  omega

/-- A sum above 12800 is not dark in binary64. -/
theorem sum_le_of_darkBinary64 (h : darkBinary64 c r g b = true) :
    30 * r.toNat + 59 * g.toNat + 11 * b.toNat ≤ 12800 := by
  by_contra hgt
  obtain ⟨_, hgray⟩ := gray64_within hR hG hB r g b
  have hsum : 12801 * unit64 ≤ (30 * r.toNat + 59 * g.toNat + 11 * b.toNat) * unit64 :=
    Nat.mul_le_mul_right _ (by omega)
  have hunit := unit64_eq
  have hpos := rounding64_pos
  rw [darkBinary64_iff hR hG hB r g b hT] at h
  omega

end Reference

/-- The luminance of (128,128,128), rounded down from 128. -/
theorem gray64_128_lt : fl64 (fl64 (term64 30 128 + term64 59 128) 1 + term64 11 128) 1 < 128 * unit64 := by
  decide +kernel

/-- Settles O27: off the boundary the exact sum is a hundredth or more away, and (128,128,128) rounds down. -/
theorem binary64DiffersOnlyOnTheBoundary : Obligations.Binary64DiffersOnlyOnTheBoundary := by
  intro c hR hG hB hT r g b
  have hexact := darkExact_iff_sum hR hG hB r g b hT
  refine ⟨fun h => darkBinary64_of_sum_lt hR hG hB r g b hT (hexact.mp h), fun h hnot => ?boundary, ?binary64, ?exact⟩
  case boundary =>
    have hle := sum_le_of_darkBinary64 hR hG hB r g b hT h
    have hge : ¬30 * r.toNat + 59 * g.toNat + 11 * b.toNat < 12800 := fun hlt => by
      rw [hexact.mpr hlt] at hnot
      cases hnot
    omega
  case binary64 =>
    rw [darkBinary64_iff hR hG hB 128 128 128 hT, gray64, hR, hG, hB]
    exact gray64_128_lt
  case exact =>
    rw [Bool.eq_false_iff, ne_eq, darkExact_iff_sum hR hG hB 128 128 128 hT]
    decide

end Sys2Proof.Machine
end
